-- ==== Sys2Proof/Word.lean ====
section
/-! DEFINITION. The widths of 00_scope.md R8 and the two shapes every file uses: a frame (R18) and a
store table. -/

namespace Sys2Proof

/-- The spec's `UInt8` (R17): one byte of a frame. -/
abbrev Byte := BitVec 8

/-- The spec's `UInt16` (R17): an address, a count, a register value, a header field. -/
abbrev Half := BitVec 16

/-- The spec's `UInt32` (R17): a value held in two adjacent registers (R34). -/
abbrev Double := BitVec 32

/-- A frame is a finite list of bytes; byte 0 is the first byte on the wire (R18). -/
abbrev Frame := List Byte

/-- A table of cells (R32, R33): (address, value) pairs. An address that is not listed reads as the
table's blank value; the canonical form is `Memory.wf`. -/
abbrev Memory (α : Type) := List (Nat × α)

end Sys2Proof
end

