-- ==== Sys2Proof/Config.lean ====
section
/-! DEFINITION. The OPEN parameters of 00_scope.md R9 to R16, and the free values of the model with the
type of the result latch, which is one of them. -/

namespace Sys2Proof

/-- `E[i].res`, the result of Execute (10_state.md R39). -/
inductive Machine.ExecResult where
  | regs (vs : List Half)
  | coils (bs : List Bool)
  | ack
deriving DecidableEq, Repr, Inhabited

/-- `RO_COIL_WRITE` (R13): what a protocol write to a read-only coil does. -/
inductive RoCoilWrite where
  | reject
  | accept
deriving DecidableEq, Repr

/-- The OPEN parameters, fixed when the block is built (R44). `initHr` and `initCo` are INIT_HR and
INIT_CO (R15) as tables. -/
structure Config where
  hrSize      : Nat
  coilSize    : Nat
  nConn       : Nat
  roCoilWrite : RoCoilWrite
  acceptUnit  : Option Byte
  initHr      : Memory Half
  initCo      : Memory Bool
deriving DecidableEq, Repr

/-- The reference configuration (R9 to R16). -/
def Config.reference : Config where
  hrSize      := 102
  coilSize    := 11
  nConn       := 1
  roCoilWrite := .reject
  acceptUnit  := none
  initHr      := []
  initCo      := []

/-- A free value (log entry 7): what the latches `a` and `q` hold after a request of kind Unknown or
Malformed, which R151 leaves unspecified. It has no body, so nothing can be proved of its values. -/
opaque Config.freeHalf : Nat → Half

/-- A free value (log entry 7): what the latch `res` holds after a request of kind Unknown or Malformed
is latched, for which 93_implementation_defined.md allows any value. It has no body either. -/
opaque Config.freeResult : Nat → Machine.ExecResult

end Sys2Proof
end

