-- ==== Sys2Proof/Syntax.lean ====
section
/-! DEFINITION. The instructions of spec/opcode_table.json, their operands, and the results of the
codec's decoders. -/

namespace Sys2Proof

/-- One write of a store batch (42_store_ports.md R226): `(HR, a, v)` or `(CO, a, b)`. -/
inductive StoreWrite where
  | reg  (a : Half) (v : Half)
  | coil (a : Half) (b : Bool)
deriving DecidableEq, Repr

/-- A response to be encoded (40_codec.md R155). -/
inductive Response where
  | regs  (tid : Half) (unit : Byte) (fc : Byte) (vs : List Half)
  | coils (tid : Half) (unit : Byte) (fc : Byte) (bs : List Bool)
  | ack   (tid : Half) (unit : Byte) (addr : Half) (value : Half)
  | exc   (tid : Half) (unit : Byte) (fc : Byte) (code : Byte)
deriving DecidableEq, Repr

/-- What the host offers at an engine's `rx` (10_state.md R46): a frame or end-of-stream. -/
inductive PortInput where
  | frame (f : Frame)
  | eof
deriving DecidableEq, Repr

/-- The data of a request for a supported function code: its two 16-bit fields, or a data part that is
not exactly 4 bytes (the malformed PDU of 41_dispatch.md R194). -/
inductive PduArgs where
  | fields (a q : Half)
  | malformed (data : List Byte)
deriving DecidableEq, Repr

/-- The errors of the shared header check (40_codec.md R143). -/
inductive FrameError where
  | truncated
  | badProtocolId
  | lengthMismatch
deriving DecidableEq, Repr

/-- `DecodeError` (40_codec.md R149). -/
inductive DecodeError where
  | truncated
  | lengthMismatch
  | badProtocolId
  | unsupportedFunction (fc : Byte)
deriving DecidableEq, Repr

/-- The fields `check_header` returns (40_codec.md R143). -/
structure Header where
  tid  : Half
  unit : Byte
  fc   : Byte
  data : List Byte
deriving DecidableEq, Repr

/-- The body of a decoded response (40_codec.md R149). -/
inductive ResponseBody where
  | exception (code : Byte)
  | registers (vs : List Half)
  | coils (bs : List Bool)
  | writeAck (addr value : Half)
deriving DecidableEq, Repr

/-- `DecodedResponse` (40_codec.md R149). -/
structure DecodedResponse where
  tid  : Half
  unit : Byte
  fc   : Byte
  body : ResponseBody
deriving DecidableEq, Repr

/-- The kind of a decoded request with the fields that kind has (40_codec.md R151): `a` and `q` are
unspecified and unused for the last two kinds, so those have none. -/
inductive RequestBody where
  | read (a q : Half)
  | writeCoil (a q : Half)
  | unknown
  | malformed
deriving DecidableEq, Repr

/-- `DecodedRequest` (40_codec.md R151). -/
structure DecodedRequest where
  tid  : Half
  unit : Byte
  fc   : Byte
  body : RequestBody
deriving DecidableEq, Repr

/-- One operand of an operation-select command (30_encoding.md R120): the spec gives each operand a
width and no bit layout (log entry 10). -/
inductive Operand where
  | engine (i : Nat)
  | byte (v : Byte)
  | half (v : Half)
  | bool (b : Bool)
  | frame (f : Frame)
  | eof
  | response (r : Response)
  | writes (ws : List StoreWrite)
deriving DecidableEq, Repr

/-- What an agent puts at a port for the block to decode: a request frame at engine `i`, a response
frame at the client-side decoder, or an operation-select value with its operands (R120). -/
inductive Wire where
  | request (i : Nat) (f : Frame)
  | response (f : Frame)
  | command (op : BitVec 4) (args : List Operand)
deriving DecidableEq, Repr

/-- The instructions: one constructor per mnemonic of spec/opcode_table.json (rows that share a
mnemonic differ only in the value of `fc`). -/
inductive Instr where
  -- request side (30_encoding.md R110): the exchange of engine `i`
  | readCoils (i : Nat) (tid : Half) (unit : Byte) (args : PduArgs)
  | readDiscreteInputs (i : Nat) (tid : Half) (unit : Byte) (args : PduArgs)
  | readHoldingRegisters (i : Nat) (tid : Half) (unit : Byte) (args : PduArgs)
  | readInputRegisters (i : Nat) (tid : Half) (unit : Byte) (args : PduArgs)
  | writeSingleCoil (i : Nat) (tid : Half) (unit : Byte) (args : PduArgs)
  | illegalFunction (i : Nat) (tid : Half) (unit : Byte) (fc : Byte) (data : List Byte)
  -- response side (30_encoding.md R110): the client-side decoder
  | rspCoils (tid : Half) (unit : Byte) (fc : Byte) (data : List Byte)
  | rspRegisters (tid : Half) (unit : Byte) (fc : Byte) (data : List Byte)
  | rspWriteAck (tid : Half) (unit : Byte) (data : List Byte)
  | rspException (tid : Half) (unit : Byte) (fc : Byte) (data : List Byte)
  | rspUnsupported (tid : Half) (unit : Byte) (fc : Byte) (data : List Byte)
  -- operation select (30_encoding.md R120)
  | encReadReq (tid : Half) (unit : Byte) (fc : Byte) (start count : Half)
  | encWriteCoilReq (tid : Half) (unit : Byte) (addr : Half) (value : Bool)
  | decResponse (f : Frame)
  | decRequest (f : Frame)
  | encResponse (r : Response)
  | serve (i : Nat) (x : PortInput)
  | stReadRegs (start count : Half)
  | stWriteReg (addr value : Half)
  | stReadCoils (start count : Half)
  | stWriteCoil (addr : Half) (value : Bool)
  | stBatch (ws : List StoreWrite)
  | connect (i : Nat)
  | reservedOp (op : BitVec 4)
deriving DecidableEq, Repr

end Sys2Proof
end

