-- ==== Sys2Proof/WellFormed.lean ====
section
/-! DEFINITION. Which terms of `Instr` are instructions of the block: a request or response term has
the function code and the data length of its row, and a reserved operation a reserved OP value. -/

namespace Sys2Proof

/-- The data of a frame fits its 16-bit length field, `length = 2 + len(data)` (30_encoding.md R102). -/
def fitsLength (data : List Byte) : Bool := data.length + 2 < 65536

/-- A malformed PDU is one whose data is not exactly 4 bytes (41_dispatch.md R194). -/
def PduArgs.wellFormed : PduArgs → Bool
  | .fields _ _ => true
  | .malformed data => data.length != 4 && fitsLength data

/-- fc ∈ {0x01..0x05} (30_encoding.md R110). -/
def supportedFc (fc : Byte) : Bool := 1 ≤ fc.toNat && fc.toNat ≤ 5

/-- The function code, data and OP values each row of the table allows (30_encoding.md R110, R120). -/
def Instr.wellFormed : Instr → Bool
  | .readCoils _ _ _ args => args.wellFormed
  | .readDiscreteInputs _ _ _ args => args.wellFormed
  | .readHoldingRegisters _ _ _ args => args.wellFormed
  | .readInputRegisters _ _ _ args => args.wellFormed
  | .writeSingleCoil _ _ _ args => args.wellFormed
  | .illegalFunction _ _ _ fc data => !supportedFc fc && fitsLength data
  | .rspCoils _ _ fc data => (fc == 0x01 || fc == 0x02) && fitsLength data
  | .rspRegisters _ _ fc data => (fc == 0x03 || fc == 0x04) && fitsLength data
  | .rspWriteAck _ _ data => fitsLength data
  | .rspException _ _ fc data => fc.getLsbD 7 && fitsLength data
  | .rspUnsupported _ _ fc data => !fc.getLsbD 7 && !supportedFc fc && fitsLength data
  | .encReadReq _ _ _ _ _ => true
  | .encWriteCoilReq _ _ _ _ => true
  | .decResponse _ => true
  | .decRequest _ => true
  | .encResponse _ => true
  | .serve _ _ => true
  | .stReadRegs _ _ => true
  | .stWriteReg _ _ => true
  | .stReadCoils _ _ => true
  | .stWriteCoil _ _ => true
  | .stBatch _ => true
  | .connect _ => true
  | .reservedOp op => 12 ≤ op.toNat

end Sys2Proof
end

