-- ==== Sys2Proof/Decode.lean ====
section
/-! DEFINITION. The decoder from what stands at a port to an instruction, total and rejecting by name,
and after it the encoder; with them the byte order of 16-bit fields and the header check that both
frame decoders share. -/

namespace Sys2Proof

/-! ### Byte order (20_memory.md R68, 00_scope.md R18) -/

/-- `be16`: a big-endian 16-bit field from its high byte, at the lower offset, and its low byte. -/
def be16 (hi lo : Byte) : Half := hi.setWidth 16 <<< 8 ||| lo.setWidth 16

/-- `u16be`: a 16-bit value as two bytes, high byte first. -/
def u16be (v : Half) : List Byte := [v.extractLsb' 8 8, v.extractLsb' 0 8]

/-- A frame around a PDU (30_encoding.md R100, R102): transaction id, protocol id 0, length
`len(PDU) + 1`, unit id, PDU. -/
def adu (tid : Half) (unit : Byte) (pdu : List Byte) : Frame :=
  u16be tid ++ [0x00, 0x00] ++ u16be (BitVec.ofNat 16 (pdu.length + 1)) ++ [unit] ++ pdu

/-! ### The header check (40_codec.md R143) -/

/-- `check_header`: fewer than 8 bytes, then the protocol id, then a declared length that is too long,
then one that is too short. A byte is read only where the pattern shows that it is there. -/
def checkHeader : Frame → Except FrameError Header
  | t1 :: t0 :: p1 :: p0 :: l1 :: l0 :: unit :: fc :: data =>
    if be16 p1 p0 ≠ 0x0000 then .error .badProtocolId
    else if 6 + (be16 l1 l0).toNat > 8 + data.length then .error .truncated
    else if 6 + (be16 l1 l0).toNat < 8 + data.length then .error .lengthMismatch
    else .ok ⟨be16 t1 t0, unit, fc, data⟩
  | _ => .error .truncated

/-! ### Request frames (30_encoding.md R106, R107, R110) -/

/-- The two 16-bit fields of a supported request's data, or the malformed form (R194). -/
def pduArgs : List Byte → PduArgs
  | [a1, a0, q1, q0] => .fields (be16 a1 a0) (be16 q1 q0)
  | data => .malformed data

/-- The request-side function-code map (30_encoding.md R110), complete over all 256 values. -/
def requestInstr (i : Nat) (h : Header) : Instr :=
  match h.fc.toNat with
  | 1 => .readCoils i h.tid h.unit (pduArgs h.data)
  | 2 => .readDiscreteInputs i h.tid h.unit (pduArgs h.data)
  | 3 => .readHoldingRegisters i h.tid h.unit (pduArgs h.data)
  | 4 => .readInputRegisters i h.tid h.unit (pduArgs h.data)
  | 5 => .writeSingleCoil i h.tid h.unit (pduArgs h.data)
  | _ => .illegalFunction i h.tid h.unit h.fc h.data

/-- The kind and fields of a supported request (40_codec.md R150, R151). -/
def requestBody (fc : Byte) : PduArgs → RequestBody
  | .fields a q => if fc = 0x05 then .writeCoil a q else .read a q
  | .malformed _ => .malformed

/-- A request as `DEC_REQUEST` returns it once the header is checked (40_codec.md R150). -/
def decodedRequest (h : Header) : DecodedRequest :=
  ⟨h.tid, h.unit, h.fc, if supportedFc h.fc then requestBody h.fc (pduArgs h.data) else .unknown⟩

/-- `DEC_REQUEST` (40_codec.md R150). -/
def decodeRequest (f : Frame) : Except FrameError DecodedRequest :=
  (checkHeader f).map decodedRequest

/-! ### Response frames (30_encoding.md R110, response side) -/

/-- The response-side function-code map (30_encoding.md R110): bit 7 first, then the supported codes. -/
def responseInstr (h : Header) : Instr :=
  if h.fc.getLsbD 7 then .rspException h.tid h.unit h.fc h.data
  else match h.fc.toNat with
    | 1 => .rspCoils h.tid h.unit h.fc h.data
    | 2 => .rspCoils h.tid h.unit h.fc h.data
    | 3 => .rspRegisters h.tid h.unit h.fc h.data
    | 4 => .rspRegisters h.tid h.unit h.fc h.data
    | 5 => .rspWriteAck h.tid h.unit h.data
    | _ => .rspUnsupported h.tid h.unit h.fc h.data

/-! ### Operation-select commands (30_encoding.md R120, R121) -/

/-- The operation-select map (30_encoding.md R120): `none` where the operands are not those of the
operation. A reserved value has no operands of its own, so any are ignored (R121). -/
def commandInstr (op : BitVec 4) (args : List Operand) : Option Instr :=
  match op.toNat, args with
  | 0, [.half tid, .byte unit, .byte fc, .half start, .half count] =>
    some (.encReadReq tid unit fc start count)
  | 1, [.half tid, .byte unit, .half addr, .bool value] => some (.encWriteCoilReq tid unit addr value)
  | 2, [.frame f] => some (.decResponse f)
  | 3, [.frame f] => some (.decRequest f)
  | 4, [.response r] => some (.encResponse r)
  | 5, [.engine i, .frame f] => some (.serve i (.frame f))
  | 5, [.engine i, .eof] => some (.serve i .eof)
  | 6, [.half start, .half count] => some (.stReadRegs start count)
  | 7, [.half addr, .half value] => some (.stWriteReg addr value)
  | 8, [.half start, .half count] => some (.stReadCoils start count)
  | 9, [.half addr, .bool value] => some (.stWriteCoil addr value)
  | 10, [.writes ws] => some (.stBatch ws)
  | 11, [.engine i] => some (.connect i)
  | n, _ => if 12 ≤ n then some (.reservedOp op) else none

/-! ### The decoder -/

/-- Why the decoder rejects what stands at a port: a framing error, or a command whose operands are not
those of its operation. -/
inductive Reject where
  | frame (k : FrameError)
  | badOperands
deriving DecidableEq, Repr

/-- The decoder, total on any bytes. -/
def decode : Wire → Except Reject Instr
  | .request i f =>
    match checkHeader f with
    | .ok h => .ok (requestInstr i h)
    | .error k => .error (.frame k)
  | .response f =>
    match checkHeader f with
    | .ok h => .ok (responseInstr h)
    | .error k => .error (.frame k)
  | .command op args =>
    match commandInstr op args with
    | some ins => .ok ins
    | none => .error .badOperands

/-! ### The encoder -/

/-- The data bytes of a supported request (30_encoding.md R106, R107). -/
def PduArgs.bytes : PduArgs → List Byte
  | .fields a q => u16be a ++ u16be q
  | .malformed data => data

/-- What stands at the port for a well-formed instruction, from the formats of 30_encoding.md R100,
R106, R107 (requests), R108, R109, R111, R112 (responses) and R120 (commands). -/
def encode : Instr → Wire
  | .readCoils i tid unit args => .request i (adu tid unit (0x01 :: args.bytes))
  | .readDiscreteInputs i tid unit args => .request i (adu tid unit (0x02 :: args.bytes))
  | .readHoldingRegisters i tid unit args => .request i (adu tid unit (0x03 :: args.bytes))
  | .readInputRegisters i tid unit args => .request i (adu tid unit (0x04 :: args.bytes))
  | .writeSingleCoil i tid unit args => .request i (adu tid unit (0x05 :: args.bytes))
  | .illegalFunction i tid unit fc data => .request i (adu tid unit (fc :: data))
  | .rspCoils tid unit fc data => .response (adu tid unit (fc :: data))
  | .rspRegisters tid unit fc data => .response (adu tid unit (fc :: data))
  | .rspWriteAck tid unit data => .response (adu tid unit (0x05 :: data))
  | .rspException tid unit fc data => .response (adu tid unit (fc :: data))
  | .rspUnsupported tid unit fc data => .response (adu tid unit (fc :: data))
  | .encReadReq tid unit fc start count =>
    .command 0x0 [.half tid, .byte unit, .byte fc, .half start, .half count]
  | .encWriteCoilReq tid unit addr value =>
    .command 0x1 [.half tid, .byte unit, .half addr, .bool value]
  | .decResponse f => .command 0x2 [.frame f]
  | .decRequest f => .command 0x3 [.frame f]
  | .encResponse r => .command 0x4 [.response r]
  | .serve i (.frame f) => .command 0x5 [.engine i, .frame f]
  | .serve i .eof => .command 0x5 [.engine i, .eof]
  | .stReadRegs start count => .command 0x6 [.half start, .half count]
  | .stWriteReg addr value => .command 0x7 [.half addr, .half value]
  | .stReadCoils start count => .command 0x8 [.half start, .half count]
  | .stWriteCoil addr value => .command 0x9 [.half addr, .bool value]
  | .stBatch ws => .command 0xA [.writes ws]
  | .connect i => .command 0xB [.engine i]
  | .reservedOp op => .command op []

/-! ### Words of spec/opcode_table.json -/

/-- Operands of zeros for an operation-select value (log entry 8). -/
def zeroOperands (op : Nat) : List Operand :=
  match op with
  | 0 => [.half 0, .byte 0, .byte 0, .half 0, .half 0]
  | 1 => [.half 0, .byte 0, .half 0, .bool false]
  | 2 => [.frame []]
  | 3 => [.frame []]
  | 4 => [.response (.exc 0 0 0 0)]
  | 5 => [.engine 0, .frame []]
  | 6 => [.half 0, .half 0]
  | 7 => [.half 0, .half 0]
  | 8 => [.half 0, .half 0]
  | 9 => [.half 0, .bool false]
  | 10 => [.writes []]
  | 11 => [.engine 0]
  | _ => []

/-- Byte `k` of a table word, the byte of the lowest bits first. -/
def wordByte (w k : Nat) : Byte := BitVec.ofNat 8 (w / 2 ^ (8 * k))

/-- The 8-bit words that are the match value of one row of the table only, a row of the operation-select
map: no function-code row has 0x07, 0x09, 0x0A, 0x0B or 0x0C as its match value. -/
def ownOpWords : List Nat := [0x07, 0x09, 0x0A, 0x0B, 0x0C]

/-- The port's contents for a table word (log entry 8). The table numbers a function-code row's bits
from the function-code byte (frame byte 7); the bytes after it are the four data bytes of the request
formats (R106, R107), and the header before it is transaction id 0, unit id 0 and the length that the
frame has. The three maps of the table share their words. A word of at most 4 bits, or one of
`ownOpWords`, is an OP value with operands of zeros; any other is read by the first map of the table,
the request side. -/
def tableWire (nbits w : Nat) : Wire :=
  let v := w % 2 ^ nbits
  if nbits ≤ 4 ∨ v ∈ ownOpWords then .command (BitVec.ofNat 4 v) (zeroOperands v)
  else .request 0
    (adu 0 0 [wordByte v 0, wordByte v 1, wordByte v 2, wordByte v 3, wordByte v 4])

/-- The instruction the decoder reads from a word of spec/opcode_table.json. -/
def decodeTableWord (nbits w : Nat) : Option Instr :=
  match decode (tableWire nbits w) with
  | .ok i => some i
  | .error _ => none

end Sys2Proof
end

