-- ==== Sys2Proof/Machine/State.lean ====
section
/-! DEFINITION. The state of the block (10_state.md), the reasons a step can stop, and reset
(70_reset_and_hazards.md R280). -/

namespace Sys2Proof.Machine

/-- `E[i].phase` (10_state.md R38). -/
inductive Phase where
  | closed
  | idle
  | received
  | validated
  | executed
  | responded
deriving DecidableEq, Repr

/-- `E[i].kind` (10_state.md R39). -/
inductive ReqKind where
  | read
  | writeCoil
  | unknown
  | malformed
deriving DecidableEq, Repr

/-- `CloseReason` (60_exceptions.md R246). -/
inductive CloseReason where
  | truncated
  | badProtocolId
  | lengthMismatch
  | connectionClosed
deriving DecidableEq, Repr

/-- A connection engine: its phase (R38) and its exchange latches (R39). -/
structure Engine where
  phase : Phase
  rx    : Frame
  tid   : Half
  unit  : Byte
  fc    : Byte
  a     : Half
  q     : Half
  kind  : ReqKind
  exc   : Option Byte
  res   : ExecResult
  tx    : Frame
  why   : Option CloseReason
deriving DecidableEq, Repr

/-- The store lock (10_state.md R45). No step reads it: each step that touches the store is atomic, so
it is free before and after every step. -/
inductive StoreLock where
  | free
  | held
deriving DecidableEq, Repr

/-- What the block puts out at a port (10_state.md R46; log entry 6). -/
inductive Output where
  /-- A frame returned by an encoder (R140, R141, R156). -/
  | frame (f : Frame)
  /-- The result of DEC_RESPONSE (R142). -/
  | response (r : DecodedResponse)
  /-- The result of DEC_REQUEST (R150). -/
  | request (r : DecodedRequest)
  /-- A typed decode error, returned to the caller (R245). -/
  | decodeError (k : DecodeError)
  /-- The result of ST_READ_REGS (R222). -/
  | regs (vs : List Half)
  /-- The result of ST_READ_COILS (R224). -/
  | coils (bs : List Bool)
  /-- The result of a store write (R223, R225, R226). -/
  | ok
  /-- A store-port operation whose range is not in the store (R247). -/
  | outOfRange
  /-- CONNECT made engine `i` Idle (R200). -/
  | connected (i : Nat)
  /-- The response frame the host took from engine `i` (R197). -/
  | tx (i : Nat) (f : Frame)
  /-- Engine `i` dropped the exchange with no response (R198). -/
  | dropped (i : Nat)
  /-- `close(k)` of engine `i` (R181, R199). -/
  | closed (i : Nat) (k : CloseReason)
deriving DecidableEq, Repr

/-- One move of one agent (00_scope.md R7; log entry 4). -/
inductive Move where
  /-- An agent issues an operation-select command at its port (30_encoding.md R120). -/
  | command (op : BitVec 4) (args : List Operand)
  /-- A caller hands a response frame to the client-side decoder (30_encoding.md R110). -/
  | response (f : Frame)
  /-- The host offers a frame or end-of-stream to engine `i` (Receive, 41_dispatch.md R181). -/
  | offer (i : Nat) (x : PortInput)
  /-- Engine `i` takes its next step: Validate, Execute or Respond (41_dispatch.md R180). -/
  | advance (i : Nat)
  /-- The host takes the response frame of engine `i` (Deliver, 41_dispatch.md R197). -/
  | take (i : Nat)
deriving DecidableEq, Repr

/-- The state of the block. -/
structure State where
  /-- The configuration: fixed at build and written by no step (10_state.md R44; log entry 1). -/
  cfg       : Config
  /-- HR (10_state.md R32). -/
  hr        : Memory Half
  /-- CO (10_state.md R33). -/
  co        : Memory Bool
  /-- E[0..N_CONN-1] (10_state.md R30, R38, R39). -/
  engines   : List Engine
  /-- The store lock (10_state.md R45). -/
  lock      : StoreLock
  /-- The `sim_reset` event history, oldest first (10_state.md R47). -/
  simReset  : List Nat
  /-- The model's: the agents' moves still to happen, in the environment's order (log entry 4). -/
  agenda    : List Move
  /-- The model's: what the block has put out at its ports, oldest first (log entry 6). -/
  outputs   : List Output
  /-- The model's: how many free values have been used (log entry 7). -/
  freeCount : Nat
deriving DecidableEq, Repr

/-- Why the machine stops with a fault. Both are raised in no state a run reaches (log entry 13), where
the spec gives no effect: safe. -/
inductive Fault where
  /-- A store primitive used outside its table; raised by Execute when the latches name cells that do
  not exist (00_scope.md R19, 20_memory.md R66). Safe. -/
  | outOfStore
  /-- Latches that no exchange leaves together; raised by Execute and Respond where their case
  distinction has no arm (41_dispatch.md R182, R196). Safe. -/
  | latchMismatch
deriving DecidableEq, Repr

/-- Why the machine refuses a move. Each is `OpRefused` (30_encoding.md R121, 60_exceptions.md R248) or
an input the block gives no meaning to; a refusal is never a value. All are safe. -/
inductive Refusal where
  /-- Raised by an arm of `exec` that has no meaning yet. Safe. -/
  | notModelled (mnemonic : String)
  /-- OP 0xC to 0xF (R121); raised by RESERVED_OP. Safe. -/
  | reservedOp
  /-- A byte_count over 255 (R156 to R158); raised by ENC_RESPONSE, and by Respond in states no run
  reaches. Safe. -/
  | responseTooLong
  /-- A frame or end-of-stream for an engine that is not Idle (R201, R262); raised by SERVE and
  Receive. Safe. -/
  | engineNotIdle
  /-- CONNECT on an engine that is not Closed (R200). Safe. -/
  | engineNotClosed
  /-- An engine index of N_CONN or more; raised wherever an engine is named (log entry 11). Safe. -/
  | noSuchEngine
  /-- A command whose operands are not those of its operation; raised by the fetch (log entry 10).
  Safe. -/
  | badOperands
  /-- A configuration outside the bounds of R283; raised by `step`. Safe. -/
  | badConfig
  /-- A step of an exchange that its engine's phase does not enable (R180, R262); raised by Deliver and
  by the request-side instructions (log entry 14). Safe. -/
  | notEnabled
deriving DecidableEq, Repr

/-- The outcome of one step of this block. -/
abbrev Result := Host.Outcome State Fault Refusal

/-- An engine after block reset (R280): Closed, `why` and `exc` none. R39 leaves the other latches
unspecified and unobservable; the values here are the model's (DESIGN CHOICE, log entry 2). -/
def Engine.reset : Engine where
  phase := .closed
  rx    := []
  tid   := 0
  unit  := 0
  fc    := 0
  a     := 0
  q     := 0
  kind  := .unknown
  exc   := none
  res   := .ack
  tx    := []
  why   := none

/-- Block reset, which is the creation of the block with configuration `c` (70_reset_and_hazards.md
R280). -/
def State.boot (c : Config) : State where
  cfg       := c
  hr        := c.initHr
  co        := c.initCo
  engines   := List.replicate c.nConn Engine.reset
  lock      := .free
  simReset  := []
  agenda    := []
  outputs   := []
  freeCount := 0

/-- The block right after reset, in the reference configuration (R9 to R16; log entry 1). -/
def State.reset : State := State.boot Config.reference

end Sys2Proof.Machine
end

