-- ==== Sys2Proof/Machine/Params.lean ====
section
/-! DEFINITION. The parameters the spec fixes (00_scope.md R11 to R13) and the exception codes
(60_exceptions.md R242). -/

namespace Sys2Proof.Machine

/-- `MAX_REGS` (R11). -/
def maxRegs : Nat := 125

/-- `MAX_COILS` (R11). -/
def maxCoils : Nat := 2000

/-- `RESET_COIL` (R12). -/
def resetCoil : Nat := 10

/-- `RESET_REGS` (R12). -/
def resetRegs : List Nat := [0, 1]

/-- `RO_COILS` (R13). -/
def roCoils : List Nat := [0, 1, 2]

/-- IllegalFunction (R242, R23). -/
def excIllegalFunction : Byte := 0x01

/-- IllegalDataAddress (R242, R23). -/
def excIllegalDataAddress : Byte := 0x02

/-- IllegalDataValue (R242, R23). -/
def excIllegalDataValue : Byte := 0x03

/-- What a register cell that is not listed reads as: the reference value of INIT_HR (R15; log
entry 3). -/
def blankReg : Half := 0x0000

/-- What a coil cell that is not listed reads as: the reference value of INIT_CO (R15; log entry 3). -/
def blankCoil : Bool := false

end Sys2Proof.Machine
end

