-- ==== Sys2Proof/Machine/Flags.lean ====
section
/-! DEFINITION. The block has no status flags and no condition codes (10_state.md R43). The one
flag-like bit is bit 7 of the function-code byte of a response frame. -/

namespace Sys2Proof.Machine

/-- Whether a response's function code marks an exception (R43, 40_codec.md R144). -/
def isExceptionFc (fc : Byte) : Bool := fc.getLsbD 7

/-- The function code of the exception response to a request with code `fc` (40_codec.md R160). -/
def exceptionFc (fc : Byte) : Byte := fc ||| 0x80

end Sys2Proof.Machine
end

