-- ==== Sys2Proof/Machine/Operands.lean ====
section
/-! DEFINITION. Assembly of operands from bytes and bytes from operands (30_encoding.md R113, R114),
and the 32-bit view of two registers (10_state.md R34). -/

namespace Sys2Proof.Machine

/-- The coil value that encodes a boolean (R113): 0xFF00 for true, 0x0000 for false. -/
def coilValue (b : Bool) : Half := if b then 0xFF00 else 0x0000

/-- The boolean of a coil value (R113), applied after R191's check. -/
def coilBool (v : Half) : Bool := v == 0xFF00

/-- The coil values a write may carry (41_dispatch.md R191). -/
def legalCoilValue (v : Half) : Bool := v == 0xFF00 || v == 0x0000

/-- `ceil(n/8)` (00_scope.md R17). -/
def byteCount (n : Nat) : Nat := (n + 7) / 8

/-- One packed byte: bit `i` is element `i`, and 0 where there is none (R114). -/
def packByte (bs : List Bool) : Byte :=
  (List.range 8).foldl (fun acc i => if bs.getD i false then acc ||| 1#8 <<< i else acc) 0#8

/-- `pack_coils` (R114): byte `j` holds coils `8j` to `8j+7`, least significant bit first. -/
def packCoils (bs : List Bool) : List Byte :=
  (List.range (byteCount bs.length)).map fun j => packByte (bs.drop (8 * j))

/-- The eight bits of a byte, least significant first (R114). -/
def unpackByte (b : Byte) : List Bool := (List.range 8).map fun i => b.getLsbD i

/-- `unpack_coils` (R114). -/
def unpackCoils (d : List Byte) : List Bool := d.flatMap unpackByte

/-- Register values on the wire, in order, each high byte first (R113, R157). -/
def regBytes (vs : List Half) : List Byte := vs.flatMap u16be

/-- Big-endian 16-bit values from an even number of bytes (40_codec.md R145). -/
def regValues : List Byte → List Half
  | hi :: lo :: rest => be16 hi lo :: regValues rest
  | _ => []

/-- A 32-bit value from its low and high word (10_state.md R34): `(high << 16) | low`. -/
def composeWords (low high : Half) : Double := high.setWidth 32 <<< 16 ||| low.setWidth 32

/-- The low word of a 32-bit value, held at the base address (R34). -/
def lowWord (v : Double) : Half := v.extractLsb' 0 16

/-- The high word of a 32-bit value, held at base + 1 (R34). -/
def highWord (v : Double) : Half := v.extractLsb' 16 16

/-- The batch that writes a 32-bit value at base `b` (R34, 42_store_ports.md R228 (b), (c)). For the base
0xFFFF the spec gives no batch: b + 1 is 65536 (00_scope.md R17), which no store write can name. The sum
is taken in 16 bits here and the high word would go to address 0 (DESIGN CHOICE, log entry 23). No step
uses this definition. -/
def pairWrites (b : Half) (v : Double) : List StoreWrite :=
  [.reg b (lowWord v), .reg (b + 1) (highWord v)]

end Sys2Proof.Machine
end

