-- ==== Sys2Proof/Machine/Ops.lean ====
section
/-! DEFINITION. The named operations over the state: the store tables and their bounds, the engines'
latches, the outputs, and taking an exception and returning from one. -/

namespace Sys2Proof.Machine

/-! ### Tables of cells -/

/-- Reading one cell: the listed value, or the table's blank value. -/
def Memory.read {α : Type} (blank : α) : Memory α → Nat → α
  | [], _ => blank
  | (k, v) :: m, a => if k = a then v else Memory.read blank m a

/-- A table without any entry at `a`. -/
def Memory.erase {α : Type} : Memory α → Nat → Memory α
  | [], _ => []
  | (k, v) :: m, a => if k = a then m else (k, v) :: Memory.erase m a

/-- A table with `v` listed at `a`, in address order. -/
def Memory.insert {α : Type} : Memory α → Nat → α → Memory α
  | [], a, v => [(a, v)]
  | (k, w) :: m, a, v =>
    if a < k then (a, v) :: (k, w) :: m
    else if k = a then (a, v) :: m
    else (k, w) :: Memory.insert m a v

/-- Writing one cell, keeping the canonical form: the blank value is never listed. -/
def Memory.write {α : Type} [DecidableEq α] (blank : α) (m : Memory α) (a : Nat) (v : α) : Memory α :=
  if v = blank then Memory.erase m a else Memory.insert m a v

/-- Whether addresses rise strictly, all of them at `low` or above. -/
def Memory.risingFrom {α : Type} : Nat → Memory α → Bool
  | _, [] => true
  | low, (k, _) :: m => decide (low ≤ k) && Memory.risingFrom (k + 1) m

/-- The canonical form: addresses strictly rising, and no entry holding the blank value. -/
def Memory.wf {α : Type} [DecidableEq α] (blank : α) (m : Memory α) : Bool :=
  Memory.risingFrom 0 m && m.all fun c => decide (c.2 ≠ blank)

/-- Whether every listed address exists in a space of `size` cells. -/
def Memory.within {α : Type} (size : Nat) (m : Memory α) : Bool := m.all fun c => decide (c.1 < size)

/-! ### Configuration -/

/-- The bounds of 70_reset_and_hazards.md R283, and INIT_HR and INIT_CO as tables of existing cells
with `INIT_CO[RESET_COIL] = false` (00_scope.md R15). -/
def configOk (c : Config) : Bool :=
  decide (102 ≤ c.hrSize) && decide (c.hrSize ≤ 65536) && decide (11 ≤ c.coilSize) &&
    decide (c.coilSize ≤ 65536) && decide (1 ≤ c.nConn) &&
    Memory.wf blankReg c.initHr && Memory.within c.hrSize c.initHr &&
    Memory.wf blankCoil c.initCo && Memory.within c.coilSize c.initCo &&
    !Memory.read blankCoil c.initCo resetCoil

/-! ### The Register Store -/

/-- `HR[a]` (00_scope.md R19). -/
def State.readReg (s : State) (a : Nat) : Half := Memory.read blankReg s.hr a

/-- `HR[a] <- v` (R19). -/
def State.writeReg (s : State) (a : Nat) (v : Half) : State :=
  { s with hr := Memory.write blankReg s.hr a v }

/-- `CO[a]` (R19). -/
def State.readCoil (s : State) (a : Nat) : Bool := Memory.read blankCoil s.co a

/-- `CO[a] <- b` (R19). -/
def State.writeCoil (s : State) (a : Nat) (b : Bool) : State :=
  { s with co := Memory.write blankCoil s.co a b }

/-- `MemRead(HR, a, n)` (R19). -/
def State.readRegs (s : State) (a n : Nat) : List Half := (List.range n).map fun k => s.readReg (a + k)

/-- `MemRead(CO, a, n)` (R19). -/
def State.readCoils (s : State) (a n : Nat) : List Bool :=
  (List.range n).map fun k => s.readCoil (a + k)

/-- The bounds check in Nat, without wrap-around (20_memory.md R64; R65 with n = 1). -/
def inRange (size start n : Nat) : Bool := decide (start + n ≤ size)

/-- Reading a 32-bit value at base `b` (10_state.md R34). -/
def State.readDouble (s : State) (b : Nat) : Double := composeWords (s.readReg b) (s.readReg (b + 1))

/-- Whether the cell a store write names exists (42_store_ports.md R226). -/
def StoreWrite.inStore (c : Config) : StoreWrite → Bool
  | .reg a _ => inRange c.hrSize a.toNat 1
  | .coil a _ => inRange c.coilSize a.toNat 1

/-- One cell write of a batch (R226). -/
def State.applyWrite (s : State) : StoreWrite → State
  | .reg a v => s.writeReg a.toNat v
  | .coil a b => s.writeCoil a.toNat b

/-- A batch's writes in list order: a later write to the same cell wins (R226). -/
def State.applyWrites (s : State) (ws : List StoreWrite) : State := ws.foldl State.applyWrite s

/-! ### Ports -/

/-- The block puts `o` out at its port. -/
def State.emit (s : State) (o : Output) : State := { s with outputs := s.outputs ++ [o] }

/-- `emit sim_reset(i)` (00_scope.md R20, 10_state.md R47). -/
def State.emitReset (s : State) (i : Nat) : State := { s with simReset := s.simReset ++ [i] }

/-- The state once the next move of the agenda is taken up. -/
def State.popMove (s : State) : State := { s with agenda := s.agenda.tail }

/-! ### Engines -/

/-- `E[i]`, if it exists (00_scope.md R16). -/
def State.engine? (s : State) (i : Nat) : Option Engine := s.engines[i]?

/-- Engine `i` holds `e`; no other engine changes (10_state.md R40). -/
def State.setEngine (s : State) (i : Nat) (e : Engine) : State :=
  { s with engines := s.engines.set i e }

/-- The next two free values are used up (log entry 7). -/
def State.useFree (s : State) : State := { s with freeCount := s.freeCount + 2 }

/-- `(E.tid, E.unit, E.fc, E.kind, E.a, E.q) <- r` (41_dispatch.md R185). For the kinds
that R151 leaves a and q unspecified for, and 93_implementation_defined.md `res` with them, those latches
take free values (log entry 7). -/
def Engine.latch (e : Engine) (r : DecodedRequest) (n : Nat) : Engine :=
  match r.body with
  | .read a q => { e with tid := r.tid, unit := r.unit, fc := r.fc, kind := .read, a := a, q := q }
  | .writeCoil a q =>
    { e with tid := r.tid, unit := r.unit, fc := r.fc, kind := .writeCoil, a := a, q := q }
  | .unknown =>
    { e with tid := r.tid, unit := r.unit, fc := r.fc, kind := .unknown,
             a := Config.freeHalf n, q := Config.freeHalf (n + 1), res := Config.freeResult n }
  | .malformed =>
    { e with tid := r.tid, unit := r.unit, fc := r.fc, kind := .malformed,
             a := Config.freeHalf n, q := Config.freeHalf (n + 1), res := Config.freeResult n }

/-- The state once a request is latched: the free values it used are used up. -/
def State.afterLatch (s : State) (r : DecodedRequest) : State :=
  match r.body with
  | .read _ _ => s
  | .writeCoil _ _ => s
  | .unknown => s.useFree
  | .malformed => s.useFree

/-- Engine `i` closes with reason `k` and sends no response (60_exceptions.md R246). -/
def closeEngine (i : Nat) (e : Engine) (k : CloseReason) (s : State) : State :=
  (s.setEngine i { e with why := some k, phase := .closed }).emit (.closed i k)

/-! ### Taking an exception and returning from one (60_exceptions.md R251, R252) -/

/-- Taking exception `code` in the exchange of engine `i`, whose request latches `e` already holds:
`exc` is set and control goes to the Respond step. No store cell and no other engine changes. -/
def takeException (i : Nat) (e : Engine) (code : Byte) (s : State) : State :=
  s.setEngine i { e with exc := some code, phase := .validated }

/-- The return, after an exception as after a success (R252, 41_dispatch.md R197): the host takes `tx`
and the engine is Idle. Nothing is restored. -/
def returnToIdle (i : Nat) (e : Engine) (s : State) : State :=
  (s.setEngine i { e with phase := .idle }).emit (.tx i e.tx)

/-! ### Outcomes -/

/-- One step after another: a stop of the first is a stop of both. -/
def andThen (r : Result) (f : State → Result) : Result :=
  match r with
  | .next s => f s
  | .fault x => .fault x
  | .refused x => .refused x

end Sys2Proof.Machine
end

