-- ==== Sys2Proof/Machine/Codec.lean ====
section
/-! DEFINITION. The frame codec (40_codec.md): response bodies, DEC_RESPONSE, ENC_RESPONSE, and the
meanings of the codec port's operations and of the response-side function codes. They read no state
and write none; their result goes out at the codec port (10_state.md R48). -/

namespace Sys2Proof.Machine

/-! ### Decoding response bodies (R144 to R147) -/

/-- `exception_body` (R144). -/
def exceptionBody : List Byte → Except DecodeError ResponseBody
  | [] => .error .truncated
  | [code] => .ok (.exception code)
  | _ => .error .lengthMismatch

/-- The byte_count check that both read bodies share (R145, R146): the value bytes, exactly as many as
declared. -/
def countedBytes : List Byte → Except DecodeError (List Byte)
  | [] => .error .truncated
  | bc :: rest =>
    if rest.length < bc.toNat then .error .truncated
    else if rest.length > bc.toNat then .error .lengthMismatch
    else .ok rest

/-- `register_body` (R145): an odd byte_count is rejected, never rounded. -/
def registerBody (data : List Byte) : Except DecodeError ResponseBody :=
  match countedBytes data with
  | .error k => .error k
  | .ok bytes =>
    if bytes.length % 2 = 1 then .error .lengthMismatch else .ok (.registers (regValues bytes))

/-- `coil_body` (R146): all `8 * byte_count` bits are returned. -/
def coilBody (data : List Byte) : Except DecodeError ResponseBody :=
  match countedBytes data with
  | .error k => .error k
  | .ok bytes => .ok (.coils (unpackCoils bytes))

/-- `ack_body` (R147): the echoed fields, unchecked. -/
def ackBody : List Byte → Except DecodeError ResponseBody
  | [] => .error .truncated
  | [_] => .error .truncated
  | [_, _] => .error .truncated
  | [_, _, _] => .error .truncated
  | [a1, a0, v1, v0] => .ok (.writeAck (be16 a1 a0) (be16 v1 v0))
  | _ => .error .lengthMismatch

/-- The body of a response with a checked header, by its function code (R142, R148). -/
def responseBody (h : Header) : Except DecodeError ResponseBody :=
  if isExceptionFc h.fc then exceptionBody h.data
  else match h.fc.toNat with
    | 1 => coilBody h.data
    | 2 => coilBody h.data
    | 3 => registerBody h.data
    | 4 => registerBody h.data
    | 5 => ackBody h.data
    | _ => .error (.unsupportedFunction h.fc)

/-- The header check's errors as `DecodeError`s (R149). -/
def frameDecodeError : FrameError → DecodeError
  | .truncated => .truncated
  | .badProtocolId => .badProtocolId
  | .lengthMismatch => .lengthMismatch

/-- `hdr + body` (R142). -/
def withHeader (tid : Half) (unit fc : Byte) :
    Except DecodeError ResponseBody → Except DecodeError DecodedResponse
  | .ok body => .ok ⟨tid, unit, fc, body⟩
  | .error k => .error k

/-- `DEC_RESPONSE` (R142). -/
def decodeResponse (f : Frame) : Except DecodeError DecodedResponse :=
  match checkHeader f with
  | .error k => .error (frameDecodeError k)
  | .ok h => withHeader h.tid h.unit h.fc (responseBody h)

/-! ### Encoding -/

/-- `ENC_READ_REQ` (R140). -/
def encodeReadRequest (tid : Half) (unit fc : Byte) (start count : Half) : Frame :=
  u16be tid ++ [0x00, 0x00] ++ [0x00, 0x06] ++ [unit, fc] ++ u16be start ++ u16be count

/-- `ENC_WRITE_COIL_REQ` (R141). -/
def encodeWriteCoilRequest (tid : Half) (unit : Byte) (addr : Half) (value : Bool) : Frame :=
  u16be tid ++ [0x00, 0x00] ++ [0x00, 0x06] ++ [unit, 0x05] ++ u16be addr ++ u16be (coilValue value)

/-- `regs_pdu` (R157): none where the byte_count would exceed 255. -/
def regsPdu (fc : Byte) (vs : List Half) : Option (List Byte) :=
  if 2 * vs.length > 255 then none
  else some (fc :: BitVec.ofNat 8 (2 * vs.length) :: regBytes vs)

/-- `coils_pdu` (R158): none where the byte_count would exceed 255. -/
def coilsPdu (fc : Byte) (bs : List Bool) : Option (List Byte) :=
  if byteCount bs.length > 255 then none
  else some (fc :: BitVec.ofNat 8 (byteCount bs.length) :: packCoils bs)

/-- `ack_pdu` (R159). -/
def ackPdu (addr value : Half) : List Byte := 0x05 :: (u16be addr ++ u16be value)

/-- `exc_pdu` (R160). -/
def excPdu (fc code : Byte) : List Byte := [exceptionFc fc, code]

/-- `ENC_RESPONSE` (R156): none is `OpRefused`. -/
def encodeResponse : Response → Option Frame
  | .regs tid unit fc vs => (regsPdu fc vs).map (adu tid unit)
  | .coils tid unit fc bs => (coilsPdu fc bs).map (adu tid unit)
  | .ack tid unit addr value => some (adu tid unit (ackPdu addr value))
  | .exc tid unit fc code => some (adu tid unit (excPdu fc code))

/-! ### Results at the codec port -/

/-- A decoder's result goes out: the decoded response, or the typed error (R162). -/
def responseOutput : Except DecodeError DecodedResponse → Output
  | .ok r => .response r
  | .error k => .decodeError k

/-- `DEC_REQUEST`'s result goes out. -/
def requestOutput : Except FrameError DecodedRequest → Output
  | .ok r => .request r
  | .error k => .decodeError (frameDecodeError k)

/-! ### The meanings of the codec operations (OP 0x0 to 0x4) -/

/-- ENC_READ_REQ (R140). -/
def execEncReadReq (tid : Half) (unit fc : Byte) (start count : Half) (s : State) : Result :=
  .next (s.emit (.frame (encodeReadRequest tid unit fc start count)))

/-- ENC_WRITE_COIL_REQ (R141). -/
def execEncWriteCoilReq (tid : Half) (unit : Byte) (addr : Half) (value : Bool) (s : State) : Result :=
  .next (s.emit (.frame (encodeWriteCoilRequest tid unit addr value)))

/-- DEC_RESPONSE (R142). -/
def execDecResponse (f : Frame) (s : State) : Result :=
  .next (s.emit (responseOutput (decodeResponse f)))

/-- DEC_REQUEST (R150). -/
def execDecRequest (f : Frame) (s : State) : Result :=
  .next (s.emit (requestOutput (decodeRequest f)))

/-- ENC_RESPONSE (R156), refused where the response is too long to encode. -/
def execEncResponse (r : Response) (s : State) : Result :=
  match encodeResponse r with
  | some f => .next (s.emit (.frame f))
  | none => .refused .responseTooLong

/-! ### The meanings of the response-side function codes (30_encoding.md R110; log entry 12) -/

/-- RSP_COILS: fc 0x01 or 0x02, the coil body (R146). -/
def execRspCoils (tid : Half) (unit fc : Byte) (data : List Byte) (s : State) : Result :=
  .next (s.emit (responseOutput (withHeader tid unit fc (coilBody data))))

/-- RSP_REGISTERS: fc 0x03 or 0x04, the register body (R145). -/
def execRspRegisters (tid : Half) (unit fc : Byte) (data : List Byte) (s : State) : Result :=
  .next (s.emit (responseOutput (withHeader tid unit fc (registerBody data))))

/-- RSP_WRITE_ACK: fc 0x05, the acknowledgment body (R147). -/
def execRspWriteAck (tid : Half) (unit : Byte) (data : List Byte) (s : State) : Result :=
  .next (s.emit (responseOutput (withHeader tid unit 0x05 (ackBody data))))

/-- RSP_EXCEPTION: fc with bit 7 set, the exception body (R144). -/
def execRspException (tid : Half) (unit fc : Byte) (data : List Byte) (s : State) : Result :=
  .next (s.emit (responseOutput (withHeader tid unit fc (exceptionBody data))))

/-- RSP_UNSUPPORTED: every other code, a typed error whatever the data (R148). -/
def execRspUnsupported (_tid : Half) (_unit fc : Byte) (_data : List Byte) (s : State) : Result :=
  .next (s.emit (.decodeError (.unsupportedFunction fc)))

end Sys2Proof.Machine
end

