-- ==== Sys2Proof/Machine/Engine.lean ====
section
/-! DEFINITION. The exchange state machine of a connection engine (41_dispatch.md R180): Receive,
Validate, Execute, Respond and Deliver. -/

namespace Sys2Proof.Machine

/-! ### Receive (R181) -/

/-- Receive: the host offers a frame or end-of-stream to an Idle engine. -/
def receive (i : Nat) (x : PortInput) (s : State) : Result :=
  match s.engine? i with
  | none => .refused .noSuchEngine
  | some e =>
    if e.phase = .idle then
      match x with
      | .frame f => .next (s.setEngine i { e with rx := f, phase := .received })
      | .eof => .next (closeEngine i e .connectionClosed s)
    else .refused .engineNotIdle

/-! ### Validate (R183 to R185, R191, R193 to R195, R198, R199) -/

/-- Quantity, then address, of a read (R183, R184). -/
def validateRead (size limit : Nat) (a q : Half) : Option Byte :=
  if q.toNat = 0 ∨ limit < q.toNat then some excIllegalDataValue
  else if inRange size a.toNat q.toNat then none
  else some excIllegalDataAddress

/-- Coil value, then address, then the read-only coils, of a coil write (R191, R184, R193). -/
def validateWriteCoil (c : Config) (a q : Half) : Option Byte :=
  if legalCoilValue q then
    if inRange c.coilSize a.toNat 1 then
      if a.toNat ∈ roCoils ∧ c.roCoilWrite = .reject then some excIllegalDataAddress else none
    else some excIllegalDataAddress
  else some excIllegalDataValue

/-- `validate_request` (R185): the exception a request takes, or none. -/
def validateRequest (c : Config) (r : DecodedRequest) : Option Byte :=
  match r.body with
  | .unknown => some excIllegalFunction
  | .malformed => some excIllegalDataValue
  | .read a q =>
    if r.fc = 0x01 ∨ r.fc = 0x02 then validateRead c.coilSize maxCoils a q
    else validateRead c.hrSize maxRegs a q
  | .writeCoil a q => validateWriteCoil c a q

/-- Whether ACCEPT_UNIT admits the request's unit id (R198). -/
def unitAccepted (c : Config) (unit : Byte) : Bool :=
  match c.acceptUnit with
  | none => true
  | some u => unit == u

/-- Validate of a decoded request (R185): the request is latched, then it is dropped, takes an
exception, or is ready to execute. -/
def validate (i : Nat) (e : Engine) (r : DecodedRequest) (s : State) : State :=
  let latched := e.latch r s.freeCount
  let s' := s.afterLatch r
  if unitAccepted s.cfg r.unit then
    match validateRequest s.cfg r with
    | some code => takeException i latched code s'
    | none => s'.setEngine i { latched with exc := none, phase := .validated }
  else (s'.setEngine i { latched with phase := .idle }).emit (.dropped i)

/-- The close reason of a framing error (R199, R246). -/
def frameCloseReason : FrameError → CloseReason
  | .truncated => .truncated
  | .badProtocolId => .badProtocolId
  | .lengthMismatch => .lengthMismatch

/-! ### Execute (R182) -/

/-- Execute ends: the result is latched and the phase is Executed (R182). -/
def finishExecute (i : Nat) (e : Engine) (res : ExecResult) (s : State) : Result :=
  .next (s.setEngine i { e with res := res, phase := .executed })

/-- `E.res <- MemRead(CO, E.a, E.q)` (R182). -/
def executeCoilRead (i : Nat) (e : Engine) (s : State) : Result :=
  if inRange s.cfg.coilSize e.a.toNat e.q.toNat then
    finishExecute i e (.coils (s.readCoils e.a.toNat e.q.toNat)) s
  else .fault .outOfStore

/-- `E.res <- MemRead(HR, E.a, E.q)` (R182). -/
def executeRegRead (i : Nat) (e : Engine) (s : State) : Result :=
  if inRange s.cfg.hrSize e.a.toNat e.q.toNat then
    finishExecute i e (.regs (s.readRegs e.a.toNat e.q.toNat)) s
  else .fault .outOfStore

/-- `reset_side_effect` (R192): RESET_REGS are cleared and one event is emitted. -/
def resetSideEffect (i : Nat) (s : State) : State :=
  (resetRegs.foldl (fun t a => t.writeReg a 0x0000) s).emitReset i

/-- The store's part of `write_coil_execute` (R190): the reset coil clears itself. -/
def writeCoilStore (i : Nat) (a : Nat) (b : Bool) (s : State) : State :=
  if a = resetCoil then
    (if b then resetSideEffect i s else s).writeCoil resetCoil false
  else s.writeCoil a b

/-- `write_coil_execute(E); E.res <- Ack` (R182, R190). -/
def executeCoilWrite (i : Nat) (e : Engine) (s : State) : Result :=
  if inRange s.cfg.coilSize e.a.toNat 1 then
    finishExecute i e .ack (writeCoilStore i e.a.toNat (coilBool e.q) s)
  else .fault .outOfStore

/-- Execute runs a function-code rule only for the latches of its case (R182). -/
def executeFor (kind : ReqKind) (fc : Byte) (rule : Nat → Engine → State → Result) (i : Nat) (e : Engine)
    (s : State) : Result :=
  if e.kind = kind ∧ e.fc = fc then rule i e s else .fault .latchMismatch

/-! ### Respond and Deliver (R196, R197) -/

/-- The response of an executed exchange, by kind, function code and result (R196); none where the
latches fit no case. -/
def successResponse (e : Engine) : Option Response :=
  match e.kind, e.res with
  | .read, .coils bs =>
    if e.fc = 0x01 ∨ e.fc = 0x02 then some (.coils e.tid e.unit e.fc bs) else none
  | .read, .regs vs =>
    if e.fc = 0x03 ∨ e.fc = 0x04 then some (.regs e.tid e.unit e.fc vs) else none
  | .writeCoil, .ack => if e.fc = 0x05 then some (.ack e.tid e.unit e.a e.q) else none
  | _, _ => none

/-- The response the engine builds (R196). -/
def engineResponse (e : Engine) : Option Response :=
  match e.exc with
  | some code => some (.exc e.tid e.unit e.fc code)
  | none => successResponse e

/-- Respond (R196): `tx` is encoded and the phase is Responded. -/
def respond (i : Nat) (e : Engine) (s : State) : Result :=
  match engineResponse e with
  | none => .fault .latchMismatch
  | some r =>
    match encodeResponse r with
    | none => .refused .responseTooLong
    | some f => .next (s.setEngine i { e with tx := f, phase := .responded })

/-- Deliver (R197): the host takes `tx` from a Responded engine. -/
def deliver (i : Nat) (s : State) : Result :=
  match s.engine? i with
  | none => .refused .noSuchEngine
  | some e => if e.phase = .responded then .next (returnToIdle i e s) else .refused .notEnabled

/-! ### One engine step of a request (R180) -/

/-- The step of engine `i` that its phase enables, for a request `r` whose Execute rule is `execute`:
Validate, Execute or Respond. In every other phase no step of the exchange is enabled. -/
def requestStep (i : Nat) (r : DecodedRequest) (execute : Nat → Engine → State → Result) (s : State) :
    Result :=
  match s.engine? i with
  | none => .refused .noSuchEngine
  | some e =>
    match e.phase with
    | .received => .next (validate i e r s)
    | .validated =>
      match e.exc with
      | none => execute i e s
      | some _ => respond i e s
    | .executed => respond i e s
    | .closed => .refused .notEnabled
    | .idle => .refused .notEnabled
    | .responded => .refused .notEnabled

end Sys2Proof.Machine
end

