-- ==== Sys2Proof/Machine/Requests.lean ====
section
/-! DEFINITION. The request-side function codes (41_dispatch.md R186 to R190, R194, R195). Each is
carried out by its engine one step of R180 at a time. -/

namespace Sys2Proof.Machine

/-- The decoded form of a request for the supported function code `fc`. -/
def supportedRequest (tid : Half) (unit fc : Byte) (args : PduArgs) : DecodedRequest :=
  ⟨tid, unit, fc, requestBody fc args⟩

/-- FC 0x01, READ_COILS (R186). -/
def execReadCoils (i : Nat) (tid : Half) (unit : Byte) (args : PduArgs) (s : State) : Result :=
  requestStep i (supportedRequest tid unit 0x01 args) (executeFor .read 0x01 executeCoilRead) s

/-- FC 0x02, READ_DISCRETE_INPUTS (R187): it reads the coil table (20_memory.md R61). -/
def execReadDiscreteInputs (i : Nat) (tid : Half) (unit : Byte) (args : PduArgs) (s : State) : Result :=
  requestStep i (supportedRequest tid unit 0x02 args) (executeFor .read 0x02 executeCoilRead) s

/-- FC 0x03, READ_HOLDING_REGISTERS (R188). -/
def execReadHoldingRegisters (i : Nat) (tid : Half) (unit : Byte) (args : PduArgs) (s : State) : Result :=
  requestStep i (supportedRequest tid unit 0x03 args) (executeFor .read 0x03 executeRegRead) s

/-- FC 0x04, READ_INPUT_REGISTERS (R189): it reads the holding-register table (20_memory.md R61). -/
def execReadInputRegisters (i : Nat) (tid : Half) (unit : Byte) (args : PduArgs) (s : State) : Result :=
  requestStep i (supportedRequest tid unit 0x04 args) (executeFor .read 0x04 executeRegRead) s

/-- FC 0x05, WRITE_SINGLE_COIL (R190). -/
def execWriteSingleCoil (i : Nat) (tid : Half) (unit : Byte) (args : PduArgs) (s : State) : Result :=
  requestStep i (supportedRequest tid unit 0x05 args) (executeFor .writeCoil 0x05 executeCoilWrite) s

/-- Execute has no case for an unknown function code, which always carries an exception (R182, R195). -/
def executeNothing (_i : Nat) (_e : Engine) (_s : State) : Result := .fault .latchMismatch

/-- ILLEGAL_FUNCTION: any other code, whatever its data (R195). -/
def execIllegalFunction (i : Nat) (tid : Half) (unit fc : Byte) (_data : List Byte) (s : State) : Result :=
  requestStep i ⟨tid, unit, fc, .unknown⟩ executeNothing s

end Sys2Proof.Machine
end

