-- ==== Sys2Proof/Machine/Serve.lean ====
section
/-! DEFINITION. The host-issued operations on an engine (41_dispatch.md R200, R201), the engine's own
next step, and the reserved operation-select values (30_encoding.md R121). -/

namespace Sys2Proof.Machine

/-- What engine `e` has to do next: a request in flight (its header and data), a framing error found by
Validate (R199), or nothing until another agent acts. -/
inductive Pending where
  | request (h : Header)
  | badFrame (k : FrameError)
  | waiting
deriving DecidableEq, Repr

/-- The data of the latched request: the two fields, or what stands in `rx` after the function code for
the kinds that latch no fields (40_codec.md R151). -/
def latchedData (e : Engine) : List Byte :=
  match e.kind with
  | .read => u16be e.a ++ u16be e.q
  | .writeCoil => u16be e.a ++ u16be e.q
  | .unknown => e.rx.drop 8
  | .malformed => e.rx.drop 8

/-- The request in flight: Validate reads the received frame (R185), Execute and Respond the latches
(R182, R196). -/
def pending (e : Engine) : Pending :=
  match e.phase with
  | .received =>
    match checkHeader e.rx with
    | .ok h => .request h
    | .error k => .badFrame k
  | .validated => .request ⟨e.tid, e.unit, e.fc, latchedData e⟩
  | .executed => .request ⟨e.tid, e.unit, e.fc, latchedData e⟩
  | .closed => .waiting
  | .idle => .waiting
  | .responded => .waiting

/-- The meaning of a request by its function code (30_encoding.md R110, request side). -/
def runRequest (i : Nat) (h : Header) (s : State) : Result :=
  match h.fc.toNat with
  | 1 => execReadCoils i h.tid h.unit (pduArgs h.data) s
  | 2 => execReadDiscreteInputs i h.tid h.unit (pduArgs h.data) s
  | 3 => execReadHoldingRegisters i h.tid h.unit (pduArgs h.data) s
  | 4 => execReadInputRegisters i h.tid h.unit (pduArgs h.data) s
  | 5 => execWriteSingleCoil i h.tid h.unit (pduArgs h.data) s
  | _ => execIllegalFunction i h.tid h.unit h.fc h.data s

/-- The engine's own next step (R180): Validate, Execute or Respond; a waiting engine does nothing. -/
def advance (i : Nat) (s : State) : Result :=
  match s.engine? i with
  | none => .refused .noSuchEngine
  | some e =>
    match pending e with
    | .request h => runRequest i h s
    | .badFrame k => .next (closeEngine i e (frameCloseReason k) s)
    | .waiting => .next s

/-- Whether engine `i` holds a response for the host. -/
def isResponded (i : Nat) (s : State) : Bool :=
  match s.engine? i with
  | none => false
  | some e => e.phase == .responded

/-- SERVE's run after Receive (R201): the engine's own steps, at most Validate, Execute and Respond
(R203), and then Deliver where there is a response. -/
def finishExchange (i : Nat) (s : State) : Result :=
  andThen (advance i s) fun s1 =>
  andThen (advance i s1) fun s2 =>
  andThen (advance i s2) fun s3 =>
  if isResponded i s3 then deliver i s3 else .next s3

/-- SERVE (R201): Receive, Validate, Execute where it applies, Respond and Deliver, with no step of
another agent between them (log entry 5). Refused on an engine that is not Idle. -/
def execServe (i : Nat) (x : PortInput) (s : State) : Result :=
  andThen (receive i x s) (finishExchange i)

/-- CONNECT (R200). Refused on an engine that is not Closed. -/
def execConnect (i : Nat) (s : State) : Result :=
  match s.engine? i with
  | none => .refused .noSuchEngine
  | some e =>
    if e.phase = .closed then
      .next ((s.setEngine i { e with why := none, phase := .idle }).emit (.connected i))
    else .refused .engineNotClosed

/-- OP 0xC to 0xF: `refuse(OpRefused)`, no state change (30_encoding.md R121). -/
def execReservedOp (_op : BitVec 4) (_s : State) : Result := .refused .reservedOp

end Sys2Proof.Machine
end

