-- ==== Sys2Proof/Machine/StorePorts.lean ====
section
/-! DEFINITION. The simulation port's store operations (42_store_ports.md R222 to R226). Each checks
its whole range first and is one atomic step (R220, R221). -/

namespace Sys2Proof.Machine

/-- ST_READ_REGS (R222). -/
def execStReadRegs (start count : Half) (s : State) : Result :=
  if inRange s.cfg.hrSize start.toNat count.toNat then
    .next (s.emit (.regs (s.readRegs start.toNat count.toNat)))
  else .next (s.emit .outOfRange)

/-- ST_WRITE_REG (R223). -/
def execStWriteReg (addr value : Half) (s : State) : Result :=
  if inRange s.cfg.hrSize addr.toNat 1 then .next ((s.writeReg addr.toNat value).emit .ok)
  else .next (s.emit .outOfRange)

/-- ST_READ_COILS (R224). -/
def execStReadCoils (start count : Half) (s : State) : Result :=
  if inRange s.cfg.coilSize start.toNat count.toNat then
    .next (s.emit (.coils (s.readCoils start.toNat count.toNat)))
  else .next (s.emit .outOfRange)

/-- ST_WRITE_COIL (R225): RESET_COIL stores its value and fires nothing (R227). -/
def execStWriteCoil (addr : Half) (value : Bool) (s : State) : Result :=
  if inRange s.cfg.coilSize addr.toNat 1 then .next ((s.writeCoil addr.toNat value).emit .ok)
  else .next (s.emit .outOfRange)

/-- ST_BATCH (R226): all or nothing. -/
def execStBatch (ws : List StoreWrite) (s : State) : Result :=
  if ws.all (StoreWrite.inStore s.cfg) then .next ((s.applyWrites ws).emit .ok)
  else .next (s.emit .outOfRange)

end Sys2Proof.Machine
end

