-- ==== Sys2Proof/Machine/Dispatch.lean ====
section
/-! DEFINITION. The meaning of every instruction, one arm each. -/

namespace Sys2Proof.Machine

def exec (i : Instr) (s : State) : Host.Outcome State Fault Refusal :=
  match i with
  | .readCoils k tid unit args => Sys2Proof.Machine.execReadCoils k tid unit args s
  | .readDiscreteInputs k tid unit args => Sys2Proof.Machine.execReadDiscreteInputs k tid unit args s
  | .readHoldingRegisters k tid unit args => Sys2Proof.Machine.execReadHoldingRegisters k tid unit args s
  | .readInputRegisters k tid unit args => Sys2Proof.Machine.execReadInputRegisters k tid unit args s
  | .writeSingleCoil k tid unit args => Sys2Proof.Machine.execWriteSingleCoil k tid unit args s
  | .illegalFunction k tid unit fc data => Sys2Proof.Machine.execIllegalFunction k tid unit fc data s
  | .rspCoils tid unit fc data => Sys2Proof.Machine.execRspCoils tid unit fc data s
  | .rspRegisters tid unit fc data => Sys2Proof.Machine.execRspRegisters tid unit fc data s
  | .rspWriteAck tid unit data => Sys2Proof.Machine.execRspWriteAck tid unit data s
  | .rspException tid unit fc data => Sys2Proof.Machine.execRspException tid unit fc data s
  | .rspUnsupported tid unit fc data => Sys2Proof.Machine.execRspUnsupported tid unit fc data s
  | .encReadReq tid unit fc start count => Sys2Proof.Machine.execEncReadReq tid unit fc start count s
  | .encWriteCoilReq tid unit addr value => Sys2Proof.Machine.execEncWriteCoilReq tid unit addr value s
  | .decResponse f => Sys2Proof.Machine.execDecResponse f s
  | .decRequest f => Sys2Proof.Machine.execDecRequest f s
  | .encResponse r => Sys2Proof.Machine.execEncResponse r s
  | .serve k x => Sys2Proof.Machine.execServe k x s
  | .stReadRegs start count => Sys2Proof.Machine.execStReadRegs start count s
  | .stWriteReg addr value => Sys2Proof.Machine.execStWriteReg addr value s
  | .stReadCoils start count => Sys2Proof.Machine.execStReadCoils start count s
  | .stWriteCoil addr value => Sys2Proof.Machine.execStWriteCoil addr value s
  | .stBatch ws => Sys2Proof.Machine.execStBatch ws s
  | .connect k => Sys2Proof.Machine.execConnect k s
  | .reservedOp op => Sys2Proof.Machine.execReservedOp op s

end Sys2Proof.Machine
end

