-- ==== Sys2Proof/Machine/Fetch.lean ====
section
/-! DEFINITION. What the next step is: the first move of the agenda, decoded (log entry 4), and how a
word of the opcode table is placed so that it is the next instruction (log entry 9). -/

namespace Sys2Proof.Machine

/-- What a move asks for: an instruction to execute, a step that no instruction stands for, or a
rejection by the decoder. -/
inductive Fetched where
  | instr (ins : Instr)
  | framingError (i : Nat) (e : Engine) (k : FrameError)
  | badResponse (k : FrameError)
  | receive (i : Nat) (x : PortInput)
  | deliver (i : Nat)
  | idle
  | refuse (r : Refusal)
deriving DecidableEq, Repr

/-- The fetch of one move. -/
def fetchMove (s : State) : Move → Fetched
  | .command op args =>
    match decode (.command op args) with
    | .ok ins => .instr ins
    | .error _ => .refuse .badOperands
  | .response f =>
    match checkHeader f with
    | .ok h => .instr (responseInstr h)
    | .error k => .badResponse k
  | .offer i x => .receive i x
  | .advance i =>
    match s.engine? i with
    | none => .refuse .noSuchEngine
    | some e =>
      match pending e with
      | .request h => .instr (requestInstr i h)
      | .badFrame k => .framingError i e k
      | .waiting => .idle
  | .take i => .deliver i

/-- The fetch: with an empty agenda the block does nothing (70_reset_and_hazards.md R281). -/
def fetch (s : State) : Fetched :=
  match s.agenda with
  | [] => .idle
  | m :: _ => fetchMove s m

/-- An engine that holds the received frame `f`. -/
def Engine.holding (e : Engine) (f : Frame) : Engine := { e with rx := f, phase := .received }

/-- The state in which what stands in `w` is the next instruction: a command is the next move; a request
frame has been received by its engine, whose step is the next move; a response frame is handed to the
client-side decoder. -/
def placeWire (s : State) : Wire → State
  | .command op args => { s with agenda := .command op args :: s.agenda }
  | .response f => { s with agenda := .response f :: s.agenda }
  | .request i f =>
    { s with
        engines := s.engines.set i ((s.engines.getD i Engine.reset).holding f),
        agenda := .advance i :: s.agenda }

end Sys2Proof.Machine
end

