-- ==== Sys2Proof/Machine/Step.lean ====
section
/-! DEFINITION. One step of the machine: the next move of the agenda. -/

namespace Sys2Proof.Machine

/-- What the fetch found happens. -/
def runFetched (s : State) : Fetched → Result
  | .instr ins => exec ins s
  | .framingError i e k => .next (closeEngine i e (frameCloseReason k) s)
  | .badResponse k => .next (s.emit (.decodeError (frameDecodeError k)))
  | .receive i x => receive i x s
  | .deliver i => deliver i s
  | .idle => .next s
  | .refuse r => .refused r

/-- One step: the next move is taken off the agenda and happens. A configuration outside R283's bounds
is refused. -/
def step (s : State) : Host.Outcome State Fault Refusal :=
  if configOk s.cfg then runFetched s.popMove (fetch s) else .refused .badConfig

/-- `s` with the table word `w` placed as the next instruction (log entry 9). -/
def State.withFetchWord (s : State) (nbits w : Nat) : State := placeWire s (tableWire nbits w)

end Sys2Proof.Machine
end

