-- ==== Sys2Proof/Machine/AddressMap.lean ====
section
/-! DEFINITION. The address map and the scaled reading of a register (20_memory.md R73 to R77): a
contract for clients and for the simulation. The block itself never interprets register contents, so no
step reads these tables. -/

namespace Sys2Proof.Machine

/-- One quantity of the register map (R73): the addresses that hold it, low word first where there are
two, and k for a scale of 1/k. -/
structure Quantity where
  base    : Nat
  words   : Nat
  content : String
  scale   : Nat
deriving DecidableEq, Repr

/-- The holding-register map (R73; single addresses in listing order, R74). -/
def registerMap : List Quantity :=
  [⟨0, 2, "cumulative energy (kWh)", 100⟩, ⟨2, 2, "instantaneous power (W)", 10⟩,
   ⟨10, 1, "voltage L1 (V)", 10⟩, ⟨11, 1, "voltage L2 (V)", 10⟩, ⟨12, 1, "voltage L3 (V)", 10⟩,
   ⟨13, 1, "current L1 (A)", 100⟩, ⟨14, 1, "current L2 (A)", 100⟩, ⟨15, 1, "current L3 (A)", 100⟩,
   ⟨16, 1, "frequency (Hz)", 100⟩, ⟨17, 1, "power factor", 1000⟩,
   ⟨100, 1, "online status (0/1)", 1⟩, ⟨101, 1, "meter type (0 = electric)", 1⟩]

/-- The coil map (R75). -/
def coilMap : List (Nat × String) :=
  [(0, "meter online"), (1, "no-alarms"), (2, "communication-OK"), (10, "reset command")]

/-- The bases of the 32-bit pairs (10_state.md R34). -/
def pairBases : List Nat := (registerMap.filter fun x => x.words == 2).map Quantity.base

/-- The raw unsigned value of a quantity (R34, R77). -/
def State.rawValue (s : State) (x : Quantity) : Nat :=
  if x.words = 2 then (s.readDouble x.base).toNat else (s.readReg x.base).toNat

/-- The exact rational a raw value denotes at scale 1/k (R77). -/
def scaledReading (raw k : Nat) : Rat := (raw : Rat) / (k : Rat)

end Sys2Proof.Machine
end

