-- ==== Sys2Proof/Safety.lean ====
section
/-! DEFINITION. What counts as a legal state and a safe run: the invariant of the model, the parts of the
state that claims compare, and the simulation agent's duties. -/

namespace Sys2Proof.Machine

/-! ### The invariant -/

/-- The latched request as a decoded request (10_state.md R39, 40_codec.md R151). -/
def latchedRequest (e : Engine) : DecodedRequest :=
  ⟨e.tid, e.unit, e.fc,
    match e.kind with
    | .read => .read e.a e.q
    | .writeCoil => .writeCoil e.a e.q
    | .unknown => .unknown
    | .malformed => .malformed⟩

/-- The kind latch is the one DEC_REQUEST gives the function-code latch (40_codec.md R151). -/
def kindFits (e : Engine) : Bool :=
  match e.kind with
  | .read => supportedFc e.fc && e.fc != 0x05
  | .writeCoil => e.fc == 0x05
  | .unknown => !supportedFc e.fc
  | .malformed => supportedFc e.fc

/-- The latches of an exchange that Validate let through (41_dispatch.md R185): `exc` is what validation
of the latched request gives. -/
def latchesValid (c : Config) (e : Engine) : Bool :=
  kindFits e && unitAccepted c e.unit && e.exc == validateRequest c (latchedRequest e)

/-- The result latch is the one Execute writes for the latched request (41_dispatch.md R182): as many
cells as the count asks for. -/
def resultFits (e : Engine) : Bool :=
  match e.kind, e.res with
  | .read, .coils bs => (e.fc == 0x01 || e.fc == 0x02) && bs.length == e.q.toNat
  | .read, .regs vs => (e.fc == 0x03 || e.fc == 0x04) && vs.length == e.q.toNat
  | .writeCoil, .ack => e.fc == 0x05
  | _, _ => false

/-- What each phase says of an engine's latches (41_dispatch.md R180, R185, R196, R200). -/
def engineOk (c : Config) (e : Engine) : Bool :=
  match e.phase with
  | .closed => true
  | .idle => e.why == none
  | .received => e.why == none
  | .validated => e.why == none && latchesValid c e
  | .executed => e.why == none && latchesValid c e && e.exc == none && resultFits e
  | .responded =>
    e.why == none && latchesValid c e && (e.exc.isSome || resultFits e) &&
      (engineResponse e).bind encodeResponse == some e.tx

/-- Both tables in canonical form, naming existing cells only (20_memory.md R60). -/
def storeOk (s : State) : Bool :=
  Memory.wf blankReg s.hr && Memory.within s.cfg.hrSize s.hr &&
    Memory.wf blankCoil s.co && Memory.within s.cfg.coilSize s.co

/-- The states the invariant admits: a configuration within its bounds (R283), N_CONN engines whose
latches fit their phase, a canonical store, and a free lock (10_state.md R45). -/
def stateOk (s : State) : Bool :=
  configOk s.cfg && storeOk s && s.engines.length == s.cfg.nConn &&
    s.engines.all (engineOk s.cfg) && s.lock == .free

/-! ### Parts of the state that claims compare -/

/-- The Register Store and the `sim_reset` history are the same (41_dispatch.md R202). -/
def SameStore (s t : State) : Prop := t.hr = s.hr ∧ t.co = s.co ∧ t.simReset = s.simReset

/-- Configuration, lock and agenda are the same: no instruction writes them (10_state.md R44, R45). -/
def SameControl (s t : State) : Prop := t.cfg = s.cfg ∧ t.lock = s.lock ∧ t.agenda = s.agenda

/-- Every engine but engine `i` is the same (10_state.md R40). -/
def SameOtherEngines (i : Nat) (s t : State) : Prop := ∀ j, j ≠ i → t.engine? j = s.engine? j

/-- What an operation without state leaves (10_state.md R48): everything but the output it adds. -/
def OnlyOutputs (s t : State) : Prop :=
  SameStore s t ∧ SameControl s t ∧ t.engines = s.engines ∧ t.freeCount = s.freeCount

/-- The outcome is a next state that meets `P`. -/
def NextWith (r : Result) (P : State → Prop) : Prop := ∃ t, r = .next t ∧ P t

/-- Nothing but engine `i`, the outputs and the free-value counter may differ. -/
def OnlyEngine (i : Nat) (s t : State) : Prop :=
  SameStore s t ∧ SameControl s t ∧ SameOtherEngines i s t

/-- The codec operations and the response-side instructions, which have no state (10_state.md R48). -/
def Instr.isCodec : Instr → Bool
  | .encReadReq _ _ _ _ _ => true
  | .encWriteCoilReq _ _ _ _ => true
  | .decResponse _ => true
  | .decRequest _ => true
  | .encResponse _ => true
  | .rspCoils _ _ _ _ => true
  | .rspRegisters _ _ _ _ => true
  | .rspWriteAck _ _ _ => true
  | .rspException _ _ _ _ => true
  | .rspUnsupported _ _ _ _ => true
  | .readCoils _ _ _ _ => false
  | .readDiscreteInputs _ _ _ _ => false
  | .readHoldingRegisters _ _ _ _ => false
  | .readInputRegisters _ _ _ _ => false
  | .writeSingleCoil _ _ _ _ => false
  | .illegalFunction _ _ _ _ _ => false
  | .serve _ _ => false
  | .stReadRegs _ _ => false
  | .stWriteReg _ _ => false
  | .stReadCoils _ _ => false
  | .stWriteCoil _ _ => false
  | .stBatch _ => false
  | .connect _ => false
  | .reservedOp _ => false

/-- `n` steps of the machine, one after another. -/
def runSteps : Nat → State → Result
  | 0, s => .next s
  | n + 1, s => andThen (step s) (runSteps n)

/-- The phase changes of 41_dispatch.md R180's table, each as (from, to). -/
def phaseMoves : List (Phase × Phase) :=
  [(.closed, .idle), (.idle, .received), (.idle, .closed), (.received, .closed), (.received, .idle),
   (.received, .validated), (.validated, .executed), (.validated, .responded), (.executed, .responded),
   (.responded, .idle)]

/-! ### The simulation agent's duties (42_store_ports.md R228) -/

/-- Whether a batch writes cell `a` of the register table. -/
def batchWrites (ws : List StoreWrite) (a : Nat) : Bool :=
  ws.any fun w => match w with
    | .reg b _ => b.toNat == a
    | .coil _ _ => false

/-- The duties that one instruction can show: both words of a 32-bit value in one ST_BATCH (b), and no
write to RESET_COIL (d). Duties (a) and (c) are about the values the simulation chooses (log entry 18).
No other instruction is the simulation's. -/
def Instr.keepsDuties : Instr → Bool
  | .stWriteReg addr _ => pairBases.all fun b => addr.toNat != b && addr.toNat != b + 1
  | .stWriteCoil addr _ => addr.toNat != resetCoil
  | .stBatch ws =>
    pairBases.all (fun b => batchWrites ws b == batchWrites ws (b + 1)) &&
      ws.all fun w => match w with
        | .reg _ _ => true
        | .coil a _ => a.toNat != resetCoil
  | .stReadRegs _ _ => true
  | .stReadCoils _ _ => true
  | .readCoils _ _ _ _ => true
  | .readDiscreteInputs _ _ _ _ => true
  | .readHoldingRegisters _ _ _ _ => true
  | .readInputRegisters _ _ _ _ => true
  | .writeSingleCoil _ _ _ _ => true
  | .illegalFunction _ _ _ _ _ => true
  | .rspCoils _ _ _ _ => true
  | .rspRegisters _ _ _ _ => true
  | .rspWriteAck _ _ _ => true
  | .rspException _ _ _ _ => true
  | .rspUnsupported _ _ _ _ => true
  | .encReadReq _ _ _ _ _ => true
  | .encWriteCoilReq _ _ _ _ => true
  | .decResponse _ => true
  | .decRequest _ => true
  | .encResponse _ => true
  | .serve _ _ => true
  | .connect _ => true
  | .reservedOp _ => true

/-- Whether a move keeps the simulation's duties. -/
def Move.keepsDuties : Move → Bool
  | .command op args => match commandInstr op args with
    | some ins => Instr.keepsDuties ins
    | none => true
  | .response _ => true
  | .offer _ _ => true
  | .advance _ => true
  | .take _ => true

/-- Whether every move still to happen keeps the simulation's duties. No step adds a move, so a run from
such a state holds no move that breaks a duty (R228; log entry 18). -/
def State.keepsDuties (s : State) : Bool := s.agenda.all Move.keepsDuties

/-- The states of the runs R228 admits: legal, every move to come keeps the duties, and so the reset coil
is false (R228 (d), 10_state.md R36). -/
def stateDutiful (s : State) : Bool := stateOk s && s.keepsDuties && !s.readCoil resetCoil

end Sys2Proof.Machine
end

