-- ==== Sys2Proof/Certificates/Slice0/Obligations.lean ====
section
/-! DEFINITION. The statements for the provers. Each docstring names the rule of spec/ it formalises. -/

open Sys2Proof Sys2Proof.Machine

/-! ### The codec port -/

/-- R140: for every operand ENC_READ_REQ completes; its frame (transaction id, protocol id 0, length
6, unit, fc, start, count, all big-endian) goes out at the codec port, is 12 bytes long, and nothing
else changes. -/
def Obligations.EncReadReqPutsOutItsFrame : Prop :=
  ∀ (tid : Half) (unit fc : Byte) (start count : Half) (s : State),
    exec (.encReadReq tid unit fc start count) s =
      .next (s.emit (.frame (u16be tid ++ [0x00, 0x00] ++ [0x00, 0x06] ++ [unit, fc] ++
        u16be start ++ u16be count))) ∧
    (u16be tid ++ [0x00, 0x00] ++ [0x00, 0x06] ++ [unit, fc] ++ u16be start ++ u16be count).length = 12

/-- R141: for every operand ENC_WRITE_COIL_REQ completes and puts out its frame, with coil value
0xFF00 for true and 0x0000 for false; nothing else changes. -/
def Obligations.EncWriteCoilReqPutsOutItsFrame : Prop :=
  ∀ (tid : Half) (unit : Byte) (addr : Half) (s : State),
    exec (.encWriteCoilReq tid unit addr true) s =
      .next (s.emit (.frame (u16be tid ++ [0x00, 0x00] ++ [0x00, 0x06] ++ [unit, 0x05] ++
        u16be addr ++ [0xFF, 0x00]))) ∧
    exec (.encWriteCoilReq tid unit addr false) s =
      .next (s.emit (.frame (u16be tid ++ [0x00, 0x00] ++ [0x00, 0x06] ++ [unit, 0x05] ++
        u16be addr ++ [0x00, 0x00])))

/-- R143 and R142: DEC_RESPONSE completes on every frame and only puts out a result. check_header,
which both frame decoders share, gives on the bytes of the frame, in this order: fewer than 8 bytes
Truncated; else a protocol id other than 0 BadProtocolId; else 6 + L above the frame's length
Truncated; else 6 + L below it LengthMismatch; else the transaction id, unit id, function code and
data. DEC_RESPONSE gives that error, or decodes the frame as the response-side instruction of its
function code: bit 7 first, then 0x03 and 0x04, 0x01 and 0x02, 0x05, and every other code as
unsupported. -/
def Obligations.DecResponseDispatchesByFunctionCode : Prop :=
  ∀ (f : Frame) (s : State),
    (∃ o, exec (.decResponse f) s = .next (s.emit o)) ∧
    (f.length < 8 → checkHeader f = .error .truncated ∧
      exec (.decResponse f) s = .next (s.emit (.decodeError .truncated))) ∧
    ∀ (t1 t0 p1 p0 l1 l0 unit fc : Byte) (data : List Byte),
      f = [t1, t0, p1, p0, l1, l0, unit, fc] ++ data →
      (¬(p1 = 0 ∧ p0 = 0) → checkHeader f = .error .badProtocolId ∧
        exec (.decResponse f) s = .next (s.emit (.decodeError .badProtocolId))) ∧
      (p1 = 0 → p0 = 0 → f.length < 6 + (256 * l1.toNat + l0.toNat) →
        checkHeader f = .error .truncated ∧
        exec (.decResponse f) s = .next (s.emit (.decodeError .truncated))) ∧
      (p1 = 0 → p0 = 0 → 6 + (256 * l1.toNat + l0.toNat) < f.length →
        checkHeader f = .error .lengthMismatch ∧
        exec (.decResponse f) s = .next (s.emit (.decodeError .lengthMismatch))) ∧
      (p1 = 0 → p0 = 0 → 6 + (256 * l1.toNat + l0.toNat) = f.length →
        checkHeader f = .ok ⟨be16 t1 t0, unit, fc, data⟩ ∧
        exec (.decResponse f) s =
          if fc.getLsbD 7 = true then exec (.rspException (be16 t1 t0) unit fc data) s
          else if fc = 0x03 ∨ fc = 0x04 then exec (.rspRegisters (be16 t1 t0) unit fc data) s
          else if fc = 0x01 ∨ fc = 0x02 then exec (.rspCoils (be16 t1 t0) unit fc data) s
          else if fc = 0x05 then exec (.rspWriteAck (be16 t1 t0) unit data) s
          else exec (.rspUnsupported (be16 t1 t0) unit fc data) s)

/-- R144: for every function code with bit 7 set, an empty body is Truncated, a body of one byte is
returned as the exception code as it is, with fc keeping bit 7, and a longer body is LengthMismatch;
nothing else changes. -/
def Obligations.RspExceptionReturnsTheCode : Prop :=
  ∀ (tid : Half) (unit fc : Byte) (s : State), fc.getLsbD 7 = true →
    exec (.rspException tid unit fc []) s = .next (s.emit (.decodeError .truncated)) ∧
    (∀ code, exec (.rspException tid unit fc [code]) s =
      .next (s.emit (.response ⟨tid, unit, fc, .exception code⟩))) ∧
    ∀ data : List Byte, 1 < data.length →
      exec (.rspException tid unit fc data) s = .next (s.emit (.decodeError .lengthMismatch))

/-- R145: for fc 0x03 and 0x04, no byte_count is Truncated, fewer value bytes than byte_count is
Truncated, more is LengthMismatch, an odd byte_count is LengthMismatch, and otherwise the
byte_count/2 big-endian 16-bit values are returned in order; nothing else changes. -/
def Obligations.RspRegistersReturnsTheValues : Prop :=
  ∀ (tid : Half) (unit fc : Byte) (s : State), (fc = 0x03 ∨ fc = 0x04) →
    exec (.rspRegisters tid unit fc []) s = .next (s.emit (.decodeError .truncated)) ∧
    ∀ (bc : Byte) (rest : List Byte),
      (rest.length < bc.toNat → exec (.rspRegisters tid unit fc (bc :: rest)) s =
        .next (s.emit (.decodeError .truncated))) ∧
      (rest.length > bc.toNat → exec (.rspRegisters tid unit fc (bc :: rest)) s =
        .next (s.emit (.decodeError .lengthMismatch))) ∧
      (rest.length = bc.toNat → bc.toNat % 2 = 1 →
        exec (.rspRegisters tid unit fc (bc :: rest)) s =
          .next (s.emit (.decodeError .lengthMismatch))) ∧
      (rest.length = bc.toNat → bc.toNat % 2 = 0 → ∃ vs : List Half,
        exec (.rspRegisters tid unit fc (bc :: rest)) s =
          .next (s.emit (.response ⟨tid, unit, fc, .registers vs⟩)) ∧
        vs.length = bc.toNat / 2 ∧
        ∀ k, k < vs.length → vs[k]? = some (be16 (rest.getD (2 * k) 0) (rest.getD (2 * k + 1) 0)))

/-- R146: for fc 0x01 and 0x02, no byte_count is Truncated, fewer data bytes than byte_count is
Truncated, more is LengthMismatch, and otherwise all 8*byte_count booleans are returned, element
8*j+i being bit i of data byte j; nothing else changes. -/
def Obligations.RspCoilsReturnsEveryBit : Prop :=
  ∀ (tid : Half) (unit fc : Byte) (s : State), (fc = 0x01 ∨ fc = 0x02) →
    exec (.rspCoils tid unit fc []) s = .next (s.emit (.decodeError .truncated)) ∧
    ∀ (bc : Byte) (rest : List Byte),
      (rest.length < bc.toNat → exec (.rspCoils tid unit fc (bc :: rest)) s =
        .next (s.emit (.decodeError .truncated))) ∧
      (rest.length > bc.toNat → exec (.rspCoils tid unit fc (bc :: rest)) s =
        .next (s.emit (.decodeError .lengthMismatch))) ∧
      (rest.length = bc.toNat → ∃ bs : List Bool,
        exec (.rspCoils tid unit fc (bc :: rest)) s =
          .next (s.emit (.response ⟨tid, unit, fc, .coils bs⟩)) ∧
        bs.length = 8 * bc.toNat ∧
        ∀ j i, j < rest.length → i < 8 → bs[8 * j + i]? = some ((rest.getD j 0).getLsbD i))

/-- R147: exactly 4 data bytes are returned as the echoed address and value, unchecked; fewer is
Truncated and more is LengthMismatch; nothing else changes. -/
def Obligations.RspWriteAckReturnsTheEcho : Prop :=
  ∀ (tid : Half) (unit : Byte) (s : State),
    (∀ a1 a0 v1 v0, exec (.rspWriteAck tid unit [a1, a0, v1, v0]) s =
      .next (s.emit (.response ⟨tid, unit, 0x05, .writeAck (be16 a1 a0) (be16 v1 v0)⟩))) ∧
    ∀ data : List Byte,
      (data.length < 4 → exec (.rspWriteAck tid unit data) s =
        .next (s.emit (.decodeError .truncated))) ∧
      (data.length > 4 → exec (.rspWriteAck tid unit data) s =
        .next (s.emit (.decodeError .lengthMismatch)))

/-- R148, its first item: for fc 0x00 and 0x06 to 0x7F, RSP_UNSUPPORTED puts out
UnsupportedFunction(fc) whatever the data; nothing else changes. -/
def Obligations.RspUnsupportedIsATypedError : Prop :=
  ∀ (tid : Half) (unit fc : Byte) (data : List Byte) (s : State),
    (fc.toNat = 0 ∨ 6 ≤ fc.toNat ∧ fc.toNat ≤ 0x7F) →
    exec (.rspUnsupported tid unit fc data) s = .next (s.emit (.decodeError (.unsupportedFunction fc)))

/-- R150 (which the spec derives as the inverse of R140 and R141): DEC_REQUEST completes on every
frame. It puts out the header check's error, or the decoded request: kind Read for fc 0x01 to 0x04
and WriteCoil for 0x05 with 4 data bytes, Malformed for those codes with any other data length,
Unknown for every other code; nothing else changes. -/
def Obligations.DecRequestDecodesByFunctionCode : Prop :=
  ∀ (f : Frame) (s : State),
    (∃ o, exec (.decRequest f) s = .next (s.emit o)) ∧
    (checkHeader f = .error .truncated →
      exec (.decRequest f) s = .next (s.emit (.decodeError .truncated))) ∧
    (checkHeader f = .error .badProtocolId →
      exec (.decRequest f) s = .next (s.emit (.decodeError .badProtocolId))) ∧
    (checkHeader f = .error .lengthMismatch →
      exec (.decRequest f) s = .next (s.emit (.decodeError .lengthMismatch))) ∧
    ∀ (tid : Half) (unit fc : Byte) (data : List Byte), checkHeader f = .ok ⟨tid, unit, fc, data⟩ →
      (1 ≤ fc.toNat ∧ fc.toNat ≤ 4 → ∀ a1 a0 q1 q0, data = [a1, a0, q1, q0] →
        exec (.decRequest f) s =
          .next (s.emit (.request ⟨tid, unit, fc, .read (be16 a1 a0) (be16 q1 q0)⟩))) ∧
      (fc = 0x05 → ∀ a1 a0 q1 q0, data = [a1, a0, q1, q0] →
        exec (.decRequest f) s =
          .next (s.emit (.request ⟨tid, unit, fc, .writeCoil (be16 a1 a0) (be16 q1 q0)⟩))) ∧
      (1 ≤ fc.toNat ∧ fc.toNat ≤ 5 → data.length ≠ 4 →
        exec (.decRequest f) s = .next (s.emit (.request ⟨tid, unit, fc, .malformed⟩))) ∧
      (fc.toNat = 0 ∨ 6 ≤ fc.toNat →
        exec (.decRequest f) s = .next (s.emit (.request ⟨tid, unit, fc, .unknown⟩)))

/-- R156 to R160 (R156 is derived in the spec as the inverse of R142): ENC_RESPONSE completes for a
register response of at most 255 value bytes, a coil response of at most 255 data bytes, every
acknowledgment and every exception, and puts out the frame of each; a register or coil response
whose byte_count would exceed 255 is refused. -/
def Obligations.EncResponsePutsOutItsFrame : Prop :=
  ∀ (tid : Half) (unit fc : Byte) (s : State),
    (∀ vs : List Half, 2 * vs.length ≤ 255 → exec (.encResponse (.regs tid unit fc vs)) s =
      .next (s.emit (.frame (u16be tid ++ [0x00, 0x00] ++ u16be (BitVec.ofNat 16 (2 * vs.length + 3)) ++
        [unit] ++ [fc, BitVec.ofNat 8 (2 * vs.length)] ++ vs.flatMap u16be)))) ∧
    (∀ vs : List Half, 255 < 2 * vs.length →
      exec (.encResponse (.regs tid unit fc vs)) s = .refused .responseTooLong) ∧
    (∀ bs : List Bool, (bs.length + 7) / 8 ≤ 255 → exec (.encResponse (.coils tid unit fc bs)) s =
      .next (s.emit (.frame (u16be tid ++ [0x00, 0x00] ++
        u16be (BitVec.ofNat 16 ((bs.length + 7) / 8 + 3)) ++ [unit] ++
        [fc, BitVec.ofNat 8 ((bs.length + 7) / 8)] ++ packCoils bs)))) ∧
    (∀ bs : List Bool, 255 < (bs.length + 7) / 8 →
      exec (.encResponse (.coils tid unit fc bs)) s = .refused .responseTooLong) ∧
    (∀ addr value : Half, exec (.encResponse (.ack tid unit addr value)) s =
      .next (s.emit (.frame (u16be tid ++ [0x00, 0x00] ++ [0x00, 0x06] ++ [unit] ++
        [0x05] ++ u16be addr ++ u16be value)))) ∧
    ∀ code : Byte, exec (.encResponse (.exc tid unit fc code)) s =
      .next (s.emit (.frame (u16be tid ++ [0x00, 0x00] ++ [0x00, 0x03] ++ [unit] ++
        [fc ||| 0x80, code])))

/-- R48: each codec operation and each response-side instruction either puts out, in every state,
one result that depends on its operands alone and leaves everything else, or is refused in every
state. -/
def Obligations.CodecReadsAndWritesNoState : Prop :=
  ∀ i : Instr, Instr.isCodec i = true →
    (∃ o, ∀ s : State, ∃ t, exec i s = .next t ∧ t.outputs = s.outputs ++ [o] ∧ OnlyOutputs s t) ∨
    (∀ s : State, exec i s = .refused .responseTooLong)

/-! ### Encoding -/

/-- For every well-formed instruction, decode of encode is the instruction: request and response
frames by the formats of R100 to R112, commands by the map of R120. The list of typed operands of a
command is the model's form (log entry 10). -/
def Obligations.DecodeOfEncodeIsTheInstruction : Prop :=
  ∀ i : Instr, i.wellFormed = true → decode (encode i) = .ok i

/-- Whatever decodes, decodes to a well-formed instruction whose encoding it is, so no byte of a
frame and no operand of a command is dropped. A reserved OP value has no operands of its own (R121),
so its instruction keeps only the OP value. The list of typed operands of a command is the model's
form (log entry 10). -/
def Obligations.EncodeOfDecodeIsTheWire : Prop :=
  ∀ (w : Wire) (i : Instr), decode w = .ok i →
    i.wellFormed = true ∧ (encode i = w ∨ ∃ op args, i = .reservedOp op ∧ w = .command op args)

/-- A read request, a coil write request, a request with fc 0x10, an exception response and a
CONNECT command, written out byte by byte, decode to READ_HOLDING_REGISTERS, WRITE_SINGLE_COIL,
ILLEGAL_FUNCTION, RSP_EXCEPTION and CONNECT with their fields; a frame with protocol id 1 is
rejected as BadProtocolId. The engine operand of the command is the model's form (log entry 10). -/
def Obligations.WrittenOutWiresDecode : Prop :=
  decode (.request 0 [0x00, 0x01, 0x00, 0x00, 0x00, 0x06, 0x01, 0x03, 0x00, 0x64, 0x00, 0x02]) =
    .ok (.readHoldingRegisters 0 0x0001 0x01 (.fields 0x0064 0x0002)) ∧
  decode (.request 1 [0x00, 0x02, 0x00, 0x00, 0x00, 0x06, 0x01, 0x05, 0x00, 0x0A, 0xFF, 0x00]) =
    .ok (.writeSingleCoil 1 0x0002 0x01 (.fields 0x000A 0xFF00)) ∧
  decode (.request 0 [0x00, 0x05, 0x00, 0x00, 0x00, 0x02, 0x01, 0x10]) =
    .ok (.illegalFunction 0 0x0005 0x01 0x10 []) ∧
  decode (.response [0x00, 0x05, 0x00, 0x00, 0x00, 0x03, 0x01, 0x83, 0x02]) =
    .ok (.rspException 0x0005 0x01 0x83 [0x02]) ∧
  decode (.command 0xB [.engine 0]) = .ok (.connect 0) ∧
  decode (.request 0 [0x00, 0x01, 0x00, 0x01, 0x00, 0x02, 0x01, 0x03]) =
    .error (.frame .badProtocolId)

/-- R152 and R153, which the spec derives itself: DEC_REQUEST of an encoded read request is Read
with its fields for fc 0x01 to 0x04, WriteCoil for fc 0x05 and Unknown for any other code; of an
encoded coil write request it is WriteCoil with 0xFF00 or 0x0000. -/
def Obligations.RequestsRoundTrip : Prop :=
  ∀ (tid : Half) (unit fc : Byte) (start count : Half) (value : Bool),
    (1 ≤ fc.toNat ∧ fc.toNat ≤ 4 → decodeRequest (encodeReadRequest tid unit fc start count) =
      .ok ⟨tid, unit, fc, .read start count⟩) ∧
    decodeRequest (encodeReadRequest tid unit 0x05 start count) =
      .ok ⟨tid, unit, 0x05, .writeCoil start count⟩ ∧
    (fc.toNat = 0 ∨ 6 ≤ fc.toNat → decodeRequest (encodeReadRequest tid unit fc start count) =
      .ok ⟨tid, unit, fc, .unknown⟩) ∧
    decodeRequest (encodeWriteCoilRequest tid unit start value) =
      .ok ⟨tid, unit, 0x05, .writeCoil start (if value then 0xFF00 else 0x0000)⟩

/-- R161, which the spec derives itself: registers come back as they were, coils with false padding
up to a multiple of 8, an acknowledgment as its address and value with fc 0x05, an exception as its
code with fc OR 0x80; transaction id and unit id come back too. -/
def Obligations.ResponsesRoundTrip : Prop :=
  ∀ (tid : Half) (unit fc : Byte) (f : Frame),
    (∀ vs, (fc = 0x03 ∨ fc = 0x04) → encodeResponse (.regs tid unit fc vs) = some f →
      decodeResponse f = .ok ⟨tid, unit, fc, .registers vs⟩) ∧
    (∀ bs, (fc = 0x01 ∨ fc = 0x02) → encodeResponse (.coils tid unit fc bs) = some f →
      decodeResponse f = .ok ⟨tid, unit, fc,
        .coils (bs ++ List.replicate (8 * ((bs.length + 7) / 8) - bs.length) false)⟩) ∧
    (∀ addr value, encodeResponse (.ack tid unit addr value) = some f →
      decodeResponse f = .ok ⟨tid, unit, 0x05, .writeAck addr value⟩) ∧
    (∀ code, encodeResponse (.exc tid unit fc code) = some f →
      decodeResponse f = .ok ⟨tid, unit, fc ||| 0x80, .exception code⟩)

/-- R114: pack_coils of n booleans has ceil(n/8) bytes, bit i of byte j being element 8*j+i and 0
where there is none; unpack_coils of d has 8*len(d) elements, element 8*j+i being bit i of byte j.
-/
def Obligations.CoilsPackLeastSignificantBitFirst : Prop :=
  (∀ bs : List Bool, (packCoils bs).length = (bs.length + 7) / 8 ∧
    ∀ j i, j < (bs.length + 7) / 8 → i < 8 →
      ((packCoils bs).getD j 0).getLsbD i = bs.getD (8 * j + i) false) ∧
  (∀ d : List Byte, (unpackCoils d).length = 8 * d.length ∧
    ∀ j i, j < d.length → i < 8 → (unpackCoils d)[8 * j + i]? = some ((d.getD j 0).getLsbD i))

/-! ### Validate -/

/-- R183 to R185 for the four reads of a Received engine whose unit is accepted: the step completes,
the request is latched and exc is 0x03 for a quantity of 0 or above the limit, else 0x02 for a range
past the end of the table, else none; the phase is Validated and nothing else changes. The limits
and the order are the spec's decisions D4 and D5. -/
def Obligations.ReadRequestsAreValidated : Prop :=
  ∀ (s : State) (i : Nat) (e : Engine) (tid : Half) (unit : Byte) (a q : Half),
    s.engine? i = some e → e.phase = .received → (∀ u, s.cfg.acceptUnit = some u → unit = u) →
    let exc (size limit : Nat) : Option Byte :=
      if q.toNat = 0 ∨ limit < q.toNat then some 0x03
      else if size < a.toNat + q.toNat then some 0x02 else none
    let t (fc : Byte) (x : Option Byte) : State := s.setEngine i { e with
      tid := tid, unit := unit, fc := fc, kind := .read, a := a, q := q, exc := x, phase := .validated }
    exec (.readCoils i tid unit (.fields a q)) s = .next (t 0x01 (exc s.cfg.coilSize 2000)) ∧
    exec (.readDiscreteInputs i tid unit (.fields a q)) s = .next (t 0x02 (exc s.cfg.coilSize 2000)) ∧
    exec (.readHoldingRegisters i tid unit (.fields a q)) s = .next (t 0x03 (exc s.cfg.hrSize 125)) ∧
    exec (.readInputRegisters i tid unit (.fields a q)) s = .next (t 0x04 (exc s.cfg.hrSize 125))

/-- R191: Validate of a coil write of a Received engine whose unit is accepted completes; a coil
value other than 0xFF00 and 0x0000 gives exception 0x03 and writes nothing in the store. After it
come the address (0x02, R184) and the read-only coils 0 to 2 under RO_COIL_WRITE = reject (0x02,
R193), in the order of the spec's decisions D5 and D6; else exc is none. The request is latched, the
phase is Validated and nothing else changes. -/
def Obligations.CoilWriteRequestsAreValidated : Prop :=
  ∀ (s : State) (i : Nat) (e : Engine) (tid : Half) (unit : Byte) (a v : Half),
    s.engine? i = some e → e.phase = .received → (∀ u, s.cfg.acceptUnit = some u → unit = u) →
    exec (.writeSingleCoil i tid unit (.fields a v)) s = .next (s.setEngine i { e with
      tid := tid, unit := unit, fc := 0x05, kind := .writeCoil, a := a, q := v,
      exc :=
        if v ≠ 0xFF00 ∧ v ≠ 0x0000 then some 0x03
        else if s.cfg.coilSize ≤ a.toNat then some 0x02
        else if a.toNat < 3 ∧ s.cfg.roCoilWrite = .reject then some 0x02
        else none,
      phase := .validated })

/-- R194: for each of the five supported codes, Validate of a request whose data is not exactly 4
bytes completes, takes exception 0x03 with its own function code and executes nothing: only this
engine changes, to Validated with exc 0x03, and the model's free-value counter. What its latches a,
q and res hold is left open (R151). -/
def Obligations.MalformedRequestsTakeIllegalDataValue : Prop :=
  ∀ (s : State) (i : Nat) (e : Engine) (tid : Half) (unit : Byte) (data : List Byte),
    s.engine? i = some e → e.phase = .received → (∀ u, s.cfg.acceptUnit = some u → unit = u) →
    data.length ≠ 4 →
    let taken (fc : Byte) (r : Result) : Prop := NextWith r fun t =>
      OnlyEngine i s t ∧ t.outputs = s.outputs ∧ ∃ a q res, t.engine? i = some { e with
        tid := tid, unit := unit, fc := fc, kind := .malformed, a := a, q := q, res := res,
        exc := some 0x03, phase := .validated }
    taken 0x01 (exec (.readCoils i tid unit (.malformed data)) s) ∧
    taken 0x02 (exec (.readDiscreteInputs i tid unit (.malformed data)) s) ∧
    taken 0x03 (exec (.readHoldingRegisters i tid unit (.malformed data)) s) ∧
    taken 0x04 (exec (.readInputRegisters i tid unit (.malformed data)) s) ∧
    taken 0x05 (exec (.writeSingleCoil i tid unit (.malformed data)) s)

/-- R195: for every function code outside 0x01 to 0x05 and whatever data, Validate completes and
takes exception 0x01; nothing but this engine and the model's free-value counter changes. SERVE of
such a frame completes, answers the function code with bit 7 set and the code 0x01, and changes
nothing but this engine, the outputs and the model's free-value counter (R202). That no other
agent's step falls inside one SERVE is the model's choice (log entry 5). -/
def Obligations.IllegalFunctionTakesException : Prop :=
  ∀ (s : State) (i : Nat) (e : Engine) (tid : Half) (unit fc : Byte) (data : List Byte),
    s.engine? i = some e → (fc.toNat = 0 ∨ 6 ≤ fc.toNat) →
    (∀ u, s.cfg.acceptUnit = some u → unit = u) →
    (e.phase = .received → NextWith (exec (.illegalFunction i tid unit fc data) s) fun t =>
      OnlyEngine i s t ∧ t.outputs = s.outputs ∧ ∃ a q res, t.engine? i = some { e with
        tid := tid, unit := unit, fc := fc, kind := .unknown, a := a, q := q, res := res,
        exc := some 0x01, phase := .validated }) ∧
    (e.phase = .idle → ∀ f, checkHeader f = .ok ⟨tid, unit, fc, data⟩ →
      NextWith (exec (.serve i (.frame f)) s) fun t => OnlyEngine i s t ∧
        t.outputs = s.outputs ++ [.tx i (u16be tid ++ [0x00, 0x00, 0x00, 0x03] ++
          [unit, fc ||| 0x80, 0x01])])

/-- R198, its case ACCEPT_UNIT = some u: Validate of a request for another unit, for all six
request-side instructions, completes with no response: the drop is put out, the engine is Idle with
why and tx unchanged, and nothing else but the engine's latches and the free-value counter changes.
-/
def Obligations.ForeignUnitsAreDropped : Prop :=
  ∀ (s : State) (i : Nat) (e : Engine) (h : Header) (u : Byte),
    s.engine? i = some e → e.phase = .received → s.cfg.acceptUnit = some u → h.unit ≠ u →
    NextWith (exec (requestInstr i h) s) fun t =>
      OnlyEngine i s t ∧ t.outputs = s.outputs ++ [.dropped i] ∧
      ∃ e', t.engine? i = some e' ∧ e'.phase = .idle ∧ e'.why = e.why ∧ e'.tx = e.tx

/-- R199: the step of an engine whose received frame fails the header check completes: why is the
reason, the phase is Closed, close(k) goes to the host, no response is sent and nothing else
changes. -/
def Obligations.FramingErrorsClose : Prop :=
  ∀ (s : State) (i : Nat) (e : Engine) (rest : List Move) (k : FrameError) (why : CloseReason),
    configOk s.cfg = true → s.agenda = .advance i :: rest → s.engine? i = some e →
    e.phase = .received → checkHeader e.rx = .error k →
    (k = .truncated ∧ why = .truncated ∨ k = .badProtocolId ∧ why = .badProtocolId ∨
      k = .lengthMismatch ∧ why = .lengthMismatch) →
    step s = .next (((s.popMove).setEngine i { e with why := some why, phase := .closed }).emit
      (.closed i why))

/-! ### Execute and Respond -/

/-- R182 with R186 and R187: Execute of a validated coil read completes: the coils from the start
address on, in order, are latched as the result, the phase is Executed and nothing else changes. -/
def Obligations.CoilReadsExecute : Prop :=
  ∀ (s : State) (i : Nat) (e : Engine) (tid : Half) (unit : Byte) (args : PduArgs),
    s.engine? i = some e → e.phase = .validated → e.exc = none → e.kind = .read →
    e.a.toNat + e.q.toNat ≤ s.cfg.coilSize →
    let t : State := s.setEngine i { e with
      res := .coils ((List.range e.q.toNat).map fun k => s.readCoil (e.a.toNat + k)), phase := .executed }
    (e.fc = 0x01 → exec (.readCoils i tid unit args) s = .next t) ∧
    (e.fc = 0x02 → exec (.readDiscreteInputs i tid unit args) s = .next t)

/-- R182 with R188 and R189: Execute of a validated register read completes: the registers from the
start address on, in order, are latched as the result, the phase is Executed and nothing else
changes. -/
def Obligations.RegisterReadsExecute : Prop :=
  ∀ (s : State) (i : Nat) (e : Engine) (tid : Half) (unit : Byte) (args : PduArgs),
    s.engine? i = some e → e.phase = .validated → e.exc = none → e.kind = .read →
    e.a.toNat + e.q.toNat ≤ s.cfg.hrSize →
    let t : State := s.setEngine i { e with
      res := .regs ((List.range e.q.toNat).map fun k => s.readReg (e.a.toNat + k)), phase := .executed }
    (e.fc = 0x03 → exec (.readHoldingRegisters i tid unit args) s = .next t) ∧
    (e.fc = 0x04 → exec (.readInputRegisters i tid unit args) s = .next t)

/-- R192, with the Execute part of R190: Execute of a validated coil write completes. An ordinary
coil takes the value and no register and no other coil changes. Coil 10 is false afterwards; a write
of true to it also clears registers 0 and 1, leaves every other register and appends one event of
this engine to the sim_reset history, in the same step; a write of false to it does none of these.
No other engine, output or control field changes. -/
def Obligations.CoilWritesExecute : Prop :=
  ∀ (s : State) (i : Nat) (e : Engine) (tid : Half) (unit : Byte) (args : PduArgs),
    storeOk s = true → s.engine? i = some e → e.phase = .validated → e.exc = none →
    e.kind = .writeCoil → e.fc = 0x05 → e.a.toNat < s.cfg.coilSize →
    NextWith (exec (.writeSingleCoil i tid unit args) s) fun t =>
      t.engine? i = some { e with res := .ack, phase := .executed } ∧ SameControl s t ∧
      SameOtherEngines i s t ∧ t.outputs = s.outputs ∧ t.freeCount = s.freeCount ∧
      (∀ c, c ≠ e.a.toNat → t.readCoil c = s.readCoil c) ∧
      (e.a.toNat ≠ 10 → t.readCoil e.a.toNat = decide (e.q = 0xFF00) ∧ t.hr = s.hr ∧
        t.simReset = s.simReset) ∧
      (e.a.toNat = 10 → t.readCoil 10 = false ∧
        (e.q = 0xFF00 → t.readReg 0 = 0x0000 ∧ t.readReg 1 = 0x0000 ∧
          (∀ a, a ≠ 0 → a ≠ 1 → t.readReg a = s.readReg a) ∧ t.simReset = s.simReset ++ [i]) ∧
        (e.q ≠ 0xFF00 → t.hr = s.hr ∧ t.simReset = s.simReset))

/-- R196 for a validated request that carries an exception, for all six request-side instructions:
the step completes, Execute is skipped, tx is the exception frame of the latched transaction id,
unit and function code, the phase is Responded and nothing else changes. -/
def Obligations.ExceptionsAreResponded : Prop :=
  ∀ (s : State) (i : Nat) (e : Engine) (h : Header) (code : Byte),
    s.engine? i = some e → e.phase = .validated → e.exc = some code →
    exec (requestInstr i h) s = .next (s.setEngine i { e with
      tx := u16be e.tid ++ [0x00, 0x00, 0x00, 0x03] ++ [e.unit, e.fc ||| 0x80, code],
      phase := .responded })

/-- R196 for an executed exchange: the step completes, tx is the coil response, the register
response or the acknowledgment of the latched request and result, in the formats R109, R108 and
R111, the phase is Responded and nothing else changes. -/
def Obligations.SuccessesAreResponded : Prop :=
  ∀ (s : State) (i : Nat) (e : Engine) (h : Header),
    s.engine? i = some e → e.phase = .executed → e.exc = none →
    let t (pdu : List Byte) : State := s.setEngine i { e with
      tx := u16be e.tid ++ [0x00, 0x00] ++ u16be (BitVec.ofNat 16 (pdu.length + 1)) ++ [e.unit] ++ pdu,
      phase := .responded }
    (e.kind = .read → (e.fc = 0x01 ∨ e.fc = 0x02) → ∀ bs, e.res = .coils bs →
      (bs.length + 7) / 8 ≤ 255 → exec (requestInstr i h) s =
        .next (t ([e.fc, BitVec.ofNat 8 ((bs.length + 7) / 8)] ++ packCoils bs))) ∧
    (e.kind = .read → (e.fc = 0x03 ∨ e.fc = 0x04) → ∀ vs, e.res = .regs vs →
      2 * vs.length ≤ 255 → exec (requestInstr i h) s =
        .next (t ([e.fc, BitVec.ofNat 8 (2 * vs.length)] ++ vs.flatMap u16be))) ∧
    (e.kind = .writeCoil → e.fc = 0x05 → e.res = .ack → exec (requestInstr i h) s =
      .next (t ([0x05] ++ u16be e.a ++ u16be e.q)))

/-! ### Whole exchanges: SERVE -/

/-- R188 and R189 in one SERVE: a register read from an Idle engine with an accepted unit, a count
of 1 to 125 and a range inside the table completes and is answered with the values of the addressed
registers in order; only this engine, the outputs and the model's free-value counter may change, and
the engine is Idle again. The store read is that of the state SERVE starts in: that no other agent's
step falls inside one SERVE is the model's choice (log entry 5). -/
def Obligations.ServeAnswersRegisterReads : Prop :=
  ∀ (s : State) (i : Nat) (e : Engine) (tid : Half) (unit fc : Byte) (a q : Half),
    s.engine? i = some e → e.phase = .idle → (∀ u, s.cfg.acceptUnit = some u → unit = u) →
    (fc = 0x03 ∨ fc = 0x04) → 1 ≤ q.toNat → q.toNat ≤ 125 → a.toNat + q.toNat ≤ s.cfg.hrSize →
    NextWith (exec (.serve i (.frame (encodeReadRequest tid unit fc a q))) s) fun t =>
      OnlyEngine i s t ∧
      (∃ e', t.engine? i = some e' ∧ e'.phase = .idle ∧ e'.why = e.why ∧ e'.exc = none) ∧
      t.outputs = s.outputs ++ [.tx i (u16be tid ++ [0x00, 0x00] ++
        u16be (BitVec.ofNat 16 (2 * q.toNat + 3)) ++ [unit, fc, BitVec.ofNat 8 (2 * q.toNat)] ++
        ((List.range q.toNat).map fun k => s.readReg (a.toNat + k)).flatMap u16be)]

/-- R186 and R187 in one SERVE: a coil read from an Idle engine with an accepted unit, a count of 1
to 2000 and a range inside the table completes and is answered with the addressed coils, packed;
only this engine, the outputs and the model's free-value counter may change, and the engine is Idle
again. The store read is that of the state SERVE starts in: that no other agent's step falls inside
one SERVE is the model's choice (log entry 5). -/
def Obligations.ServeAnswersCoilReads : Prop :=
  ∀ (s : State) (i : Nat) (e : Engine) (tid : Half) (unit fc : Byte) (a q : Half),
    s.engine? i = some e → e.phase = .idle → (∀ u, s.cfg.acceptUnit = some u → unit = u) →
    (fc = 0x01 ∨ fc = 0x02) → 1 ≤ q.toNat → q.toNat ≤ 2000 → a.toNat + q.toNat ≤ s.cfg.coilSize →
    NextWith (exec (.serve i (.frame (encodeReadRequest tid unit fc a q))) s) fun t =>
      OnlyEngine i s t ∧
      (∃ e', t.engine? i = some e' ∧ e'.phase = .idle ∧ e'.why = e.why ∧ e'.exc = none) ∧
      t.outputs = s.outputs ++ [.tx i (u16be tid ++ [0x00, 0x00] ++
        u16be (BitVec.ofNat 16 ((q.toNat + 7) / 8 + 3)) ++
        [unit, fc, BitVec.ofNat 8 ((q.toNat + 7) / 8)] ++
        packCoils ((List.range q.toNat).map fun k => s.readCoil (a.toNat + k)))]

/-- R190 in one SERVE: a coil write of an existing coil that the protocol may write completes and is
answered with its echo. An ordinary coil takes the value and no other cell changes; coil 10 is false
afterwards; true to coil 10 clears registers 0 and 1 only and appends one event of this engine. The
engine is Idle again and no other engine changes. The store after SERVE is stated from the store
SERVE starts with: that no other agent's step falls inside one SERVE is the model's choice (log
entry 5). -/
def Obligations.ServeAnswersCoilWrites : Prop :=
  ∀ (s : State) (i : Nat) (e : Engine) (tid : Half) (unit : Byte) (a : Half) (b : Bool),
    storeOk s = true → s.engine? i = some e → e.phase = .idle →
    (∀ u, s.cfg.acceptUnit = some u → unit = u) → a.toNat < s.cfg.coilSize →
    (a.toNat < 3 → s.cfg.roCoilWrite = .accept) →
    NextWith (exec (.serve i (.frame (encodeWriteCoilRequest tid unit a b))) s) fun t =>
      SameControl s t ∧ SameOtherEngines i s t ∧
      (∃ e', t.engine? i = some e' ∧ e'.phase = .idle ∧ e'.why = e.why ∧ e'.exc = none) ∧
      t.outputs = s.outputs ++ [.tx i (u16be tid ++ [0x00, 0x00, 0x00, 0x06] ++ [unit, 0x05] ++
        u16be a ++ (if b then [0xFF, 0x00] else [0x00, 0x00]))] ∧
      (∀ c, c ≠ a.toNat → t.readCoil c = s.readCoil c) ∧
      t.readCoil a.toNat = (if a.toNat = 10 then false else b) ∧
      (if a.toNat = 10 ∧ b = true then t.readReg 0 = 0x0000 ∧ t.readReg 1 = 0x0000 ∧
          (∀ c, c ≠ 0 → c ≠ 1 → t.readReg c = s.readReg c) ∧ t.simReset = s.simReset ++ [i]
        else t.hr = s.hr ∧ t.simReset = s.simReset)

/-- R241, R251 and R202: a request that validation rejects with a code is answered with the 9-byte
exception frame of its function code and that code; the store, the sim_reset history and every other
engine stay as they were and the engine is Idle again. That no other agent's step falls inside one
SERVE is the model's choice (log entry 5). -/
def Obligations.ServeAnswersExceptions : Prop :=
  ∀ (s : State) (i : Nat) (e : Engine) (f : Frame) (h : Header) (code : Byte),
    s.engine? i = some e → e.phase = .idle → checkHeader f = .ok h →
    (∀ u, s.cfg.acceptUnit = some u → h.unit = u) →
    validateRequest s.cfg (decodedRequest h) = some code →
    NextWith (exec (.serve i (.frame f)) s) fun t =>
      OnlyEngine i s t ∧
      (∃ e', t.engine? i = some e' ∧ e'.phase = .idle ∧ e'.why = e.why) ∧
      t.outputs = s.outputs ++ [.tx i (u16be h.tid ++ [0x00, 0x00, 0x00, 0x03] ++
        [h.unit, h.fc ||| 0x80, code])]

/-- R243, which the spec derives itself, read as a bound: where SERVE of a frame with function code
f answers an exception response, its function code is f OR 0x80, and its code is 0x02 or 0x03 for f
in 0x01 to 0x05 and 0x01 for every other f. -/
def Obligations.ExceptionCodesByFunctionCode : Prop :=
  ∀ (s t : State) (i : Nat) (f g : Frame) (h : Header) (tid : Half) (unit fc code : Byte),
    checkHeader f = .ok h → exec (.serve i (.frame f)) s = .next t →
    t.outputs = s.outputs ++ [.tx i g] → decodeResponse g = .ok ⟨tid, unit, fc, .exception code⟩ →
    fc = h.fc ||| 0x80 ∧
    (1 ≤ h.fc.toNat ∧ h.fc.toNat ≤ 5 → code = 0x02 ∨ code = 0x03) ∧
    (h.fc.toNat = 0 ∨ 6 ≤ h.fc.toNat → code = 0x01)

/-- R199, R198 and R181 in one SERVE of an Idle engine: a frame that fails the header check closes
with its reason, a request for a unit that is not accepted is dropped and leaves the engine Idle,
end-of-stream closes with ConnectionClosed; each completes, sends no response and leaves the store
and every other engine. That no other agent's step falls inside one SERVE is the model's choice (log
entry 5). -/
def Obligations.ServeClosesAndDrops : Prop :=
  ∀ (s : State) (i : Nat) (e : Engine), s.engine? i = some e → e.phase = .idle →
    (∀ f k, checkHeader f = .error k → ∃ why,
      (k = .truncated → why = .truncated) ∧ (k = .badProtocolId → why = .badProtocolId) ∧
      (k = .lengthMismatch → why = .lengthMismatch) ∧
      exec (.serve i (.frame f)) s =
        .next ((s.setEngine i { e with rx := f, why := some why, phase := .closed }).emit
          (.closed i why))) ∧
    (∀ f h u, checkHeader f = .ok h → s.cfg.acceptUnit = some u → h.unit ≠ u →
      NextWith (exec (.serve i (.frame f)) s) fun t => OnlyEngine i s t ∧
        t.outputs = s.outputs ++ [.dropped i] ∧
        ∃ e', t.engine? i = some e' ∧ e'.phase = .idle ∧ e'.why = e.why) ∧
    exec (.serve i .eof) s =
      .next ((s.setEngine i { e with why := some .connectionClosed, phase := .closed }).emit
        (.closed i .connectionClosed))

/-- R201: SERVE does what the machine does in the moves it stands for: the host's offer, three steps
of the engine, and Deliver where the engine is then Responded, each taken by step. That no other
agent's step falls between them inside one SERVE is the model's choice (log entry 5). -/
def Obligations.ServeIsTheRunOfItsSteps : Prop :=
  ∀ (s : State) (i : Nat) (x : PortInput) (rest : List Move), configOk s.cfg = true →
    s.agenda = .offer i x :: .advance i :: .advance i :: .advance i :: rest →
    exec (.serve i x) { s with agenda := rest } =
      andThen (runSteps 4 s) fun u =>
        if (u.engine? i).map Engine.phase = some .responded then
          step { u with agenda := .take i :: u.agenda }
        else .next u

/-- R203, which the spec derives itself: from every state that meets the model's invariant, SERVE of
an Idle engine with any frame or end-of-stream completes, and the engine is then Idle or Closed. -/
def Obligations.ServeCompletesFromLegalStates : Prop :=
  ∀ (s : State) (i : Nat) (e : Engine) (x : PortInput),
    stateOk s = true → s.engine? i = some e → e.phase = .idle →
    NextWith (exec (.serve i x) s) fun t =>
      ∃ e', t.engine? i = some e' ∧ (e'.phase = .idle ∨ e'.phase = .closed)

/-- R69, which the spec derives itself: SERVE of a read of two registers at base b, by either
register read code, answers the 32-bit value whose low word is at b and high word at b+1 as the four
bytes v[15:8], v[7:0], v[31:24], v[23:16]. The store read is that of the state SERVE starts in: that
no other agent's step falls inside one SERVE is the model's choice (log entry 5). -/
def Obligations.PairsGoLowWordFirst : Prop :=
  ∀ (s : State) (i : Nat) (e : Engine) (tid : Half) (unit fc : Byte) (b : Half) (v : Double),
    s.engine? i = some e → e.phase = .idle → (∀ u, s.cfg.acceptUnit = some u → unit = u) →
    (fc = 0x03 ∨ fc = 0x04) → b.toNat + 2 ≤ s.cfg.hrSize →
    v = (s.readReg (b.toNat + 1)).setWidth 32 <<< 16 ||| (s.readReg b.toNat).setWidth 32 →
    NextWith (exec (.serve i (.frame (encodeReadRequest tid unit fc b 2))) s) fun t =>
      t.outputs = s.outputs ++ [.tx i (u16be tid ++ [0x00, 0x00, 0x00, 0x07, unit, fc, 0x04] ++
        [v.extractLsb' 8 8, v.extractLsb' 0 8, v.extractLsb' 24 8, v.extractLsb' 16 8])]

/-! ### Operations on engines -/

/-- R200: CONNECT on a Closed engine completes: why is none, the phase is Idle, nothing else changes
but the result put out; on an engine in any other phase it is refused. -/
def Obligations.ConnectOpensAClosedEngine : Prop :=
  ∀ (s : State) (i : Nat) (e : Engine), s.engine? i = some e →
    (e.phase = .closed → exec (.connect i) s =
      .next ((s.setEngine i { e with why := none, phase := .idle }).emit (.connected i))) ∧
    (e.phase ≠ .closed → exec (.connect i) s = .refused .engineNotClosed)

/-- R121: an OP value of 0xC to 0xF is RESERVED_OP whatever stands beside it and is refused;
ENC_RESPONSE of a response too long to encode, SERVE on an engine that is not Idle and CONNECT on an
engine that is not Closed are refused. A refusal carries no state, so nothing changes. -/
def Obligations.OpRefusedIsARefusal : Prop :=
  ∀ (s : State),
    (∀ op : BitVec 4, 12 ≤ op.toNat → exec (.reservedOp op) s = .refused .reservedOp ∧
      ∀ args, decode (.command op args) = .ok (.reservedOp op)) ∧
    (∀ r, encodeResponse r = none → exec (.encResponse r) s = .refused .responseTooLong) ∧
    (∀ i e x, s.engine? i = some e → e.phase ≠ .idle →
      exec (.serve i x) s = .refused .engineNotIdle) ∧
    (∀ i e, s.engine? i = some e → e.phase ≠ .closed →
      exec (.connect i) s = .refused .engineNotClosed)

/-- R181 and R197: a frame offered to an Idle engine is received into rx and the phase is Received;
end-of-stream offered to it closes it with ConnectionClosed; the host takes tx from a Responded
engine, which is then Idle. Nothing else changes but the agenda's first move. An offer to an engine
that is not Idle and a take from one that is not Responded are refused; that these are refusals is
the model's choice (log entry 14). In every state, every step leaves each engine's phase as it was
or changes it along one row of R180's table. -/
def Obligations.HostMovesReceiveAndDeliver : Prop :=
  (∀ (s : State) (i : Nat) (e : Engine) (rest : List Move),
    configOk s.cfg = true → s.engine? i = some e →
    (∀ f, e.phase = .idle → s.agenda = .offer i (.frame f) :: rest →
      step s = .next (s.popMove.setEngine i { e with rx := f, phase := .received })) ∧
    (e.phase = .idle → s.agenda = .offer i .eof :: rest →
      step s = .next ((s.popMove.setEngine i
        { e with why := some .connectionClosed, phase := .closed }).emit
        (.closed i .connectionClosed))) ∧
    (∀ x, e.phase ≠ .idle → s.agenda = .offer i x :: rest → step s = .refused .engineNotIdle) ∧
    (e.phase = .responded → s.agenda = .take i :: rest →
      step s = .next ((s.popMove.setEngine i { e with phase := .idle }).emit (.tx i e.tx))) ∧
    (e.phase ≠ .responded → s.agenda = .take i :: rest → step s = .refused .notEnabled)) ∧
  ∀ (s t : State) (j : Nat) (e : Engine), step s = .next t → s.engine? j = some e →
    ∃ e', t.engine? j = some e' ∧ (e'.phase = e.phase ∨ (e.phase, e'.phase) ∈ phaseMoves)

/-! ### The simulation port -/

/-- R222: ST_READ_REGS completes for every operand: it puts out the registers in order where the
whole range exists (none for count 0), else OutOfRange; nothing else changes. -/
def Obligations.StReadRegsReturnsTheRegisters : Prop :=
  ∀ (s : State) (start count : Half), exec (.stReadRegs start count) s = .next (s.emit
    (if s.cfg.hrSize < start.toNat + count.toNat then .outOfRange
     else .regs ((List.range count.toNat).map fun k => s.readReg (start.toNat + k))))

/-- R223: ST_WRITE_REG completes for every operand: an existing register takes the value, every
other register and all coils keep theirs and ok is put out; an address past the table answers
OutOfRange and touches no cell. No engine, event or control field changes. -/
def Obligations.StWriteRegWritesItsCell : Prop :=
  ∀ (s : State) (addr value : Half), storeOk s = true →
    NextWith (exec (.stWriteReg addr value) s) fun t =>
      SameControl s t ∧ t.engines = s.engines ∧ t.co = s.co ∧ t.simReset = s.simReset ∧
      t.freeCount = s.freeCount ∧
      (addr.toNat < s.cfg.hrSize → t.outputs = s.outputs ++ [.ok] ∧ t.readReg addr.toNat = value ∧
        ∀ a, a ≠ addr.toNat → t.readReg a = s.readReg a) ∧
      (s.cfg.hrSize ≤ addr.toNat → t.outputs = s.outputs ++ [.outOfRange] ∧ t.hr = s.hr)

/-- R224: ST_READ_COILS completes for every operand: it puts out the coils in order where the whole
range exists (none for count 0), else OutOfRange; nothing else changes. -/
def Obligations.StReadCoilsReturnsTheCoils : Prop :=
  ∀ (s : State) (start count : Half), exec (.stReadCoils start count) s = .next (s.emit
    (if s.cfg.coilSize < start.toNat + count.toNat then .outOfRange
     else .coils ((List.range count.toNat).map fun k => s.readCoil (start.toNat + k))))

/-- R225: ST_WRITE_COIL completes for every operand: an existing coil, 0 to 2 and 10 among them,
takes the value with no side effect, every other coil and all registers keep theirs and ok is put
out; an address past the table answers OutOfRange and touches no cell. No engine, event or control
field changes. -/
def Obligations.StWriteCoilWritesItsCell : Prop :=
  ∀ (s : State) (addr : Half) (value : Bool), storeOk s = true →
    NextWith (exec (.stWriteCoil addr value) s) fun t =>
      SameControl s t ∧ t.engines = s.engines ∧ t.hr = s.hr ∧ t.simReset = s.simReset ∧
      t.freeCount = s.freeCount ∧
      (addr.toNat < s.cfg.coilSize → t.outputs = s.outputs ++ [.ok] ∧
        t.readCoil addr.toNat = value ∧ ∀ a, a ≠ addr.toNat → t.readCoil a = s.readCoil a) ∧
      (s.cfg.coilSize ≤ addr.toNat → t.outputs = s.outputs ++ [.outOfRange] ∧ t.co = s.co)

/-- R226: ST_BATCH completes for every list: where every cell it names exists, each cell holds the
value of its last write in the list, cells it does not name keep theirs and ok is put out; where one
does not exist, OutOfRange is put out and no cell changes. No engine, event or control field
changes. -/
def Obligations.StBatchIsAllOrNothing : Prop :=
  ∀ (s : State) (ws : List StoreWrite), storeOk s = true →
    NextWith (exec (.stBatch ws) s) fun t =>
      SameControl s t ∧ t.engines = s.engines ∧ t.simReset = s.simReset ∧ t.freeCount = s.freeCount ∧
      if (∀ a v, StoreWrite.reg a v ∈ ws → a.toNat < s.cfg.hrSize) ∧
          (∀ a b, StoreWrite.coil a b ∈ ws → a.toNat < s.cfg.coilSize) then
        t.outputs = s.outputs ++ [.ok] ∧
        (∀ a : Half, (∀ v, StoreWrite.reg a v ∉ ws) → t.readReg a.toNat = s.readReg a.toNat) ∧
        (∀ a : Half, (∀ b, StoreWrite.coil a b ∉ ws) → t.readCoil a.toNat = s.readCoil a.toNat) ∧
        (∀ ws₁ a v ws₂, ws = ws₁ ++ StoreWrite.reg a v :: ws₂ → (∀ w, StoreWrite.reg a w ∉ ws₂) →
          t.readReg a.toNat = v) ∧
        (∀ ws₁ a b ws₂, ws = ws₁ ++ StoreWrite.coil a b :: ws₂ → (∀ c, StoreWrite.coil a c ∉ ws₂) →
          t.readCoil a.toNat = b)
      else t.outputs = s.outputs ++ [.outOfRange] ∧ t.hr = s.hr ∧ t.co = s.co

/-- R81, which the spec derives itself, for both register read codes and every range that covers
both words of a pair: an ST_BATCH writes the pair, among any other cells; Execute of the read before
it latches the two words of the old value, after it the two words of the new value. By R228 (b),
where every move to come keeps the simulation's duties, a step that changes a word of the pair at
base 0 or 2 is an ST_BATCH that names both words, or the reset of registers 0 and 1, which are then
both zero. How a store-port command is judged against the duties is the model's reading (log entry
18). -/
def Obligations.TicksAreNeverTorn : Prop :=
  (∀ (s : State) (i : Nat) (e : Engine) (b : Half) (v : Double) (ws₁ ws₂ : List StoreWrite) (tid : Half)
    (unit : Byte) (args : PduArgs) (ins : Instr), storeOk s = true → s.engine? i = some e →
    e.phase = .validated → e.exc = none → e.kind = .read →
    (e.fc = 0x03 ∧ ins = .readHoldingRegisters i tid unit args ∨
      e.fc = 0x04 ∧ ins = .readInputRegisters i tid unit args) →
    e.a.toNat ≤ b.toNat → b.toNat + 2 ≤ e.a.toNat + e.q.toNat →
    e.a.toNat + e.q.toNat ≤ s.cfg.hrSize → b.toNat + 1 < 65536 →
    (ws₁ ++ pairWrites b v ++ ws₂).all (StoreWrite.inStore s.cfg) = true →
    (∀ w, StoreWrite.reg b w ∉ ws₂ ∧ StoreWrite.reg (b + 1) w ∉ ws₂) →
    ∃ t, exec (.stBatch (ws₁ ++ pairWrites b v ++ ws₂)) s = .next t ∧
      (∃ vs lo hi, exec ins s =
        .next (s.setEngine i { e with res := .regs vs, phase := .executed }) ∧
        vs[b.toNat - e.a.toNat]? = some lo ∧ vs[b.toNat - e.a.toNat + 1]? = some hi ∧
        composeWords lo hi = s.readDouble b.toNat) ∧
      (∃ vs lo hi, exec ins t =
        .next (t.setEngine i { e with res := .regs vs, phase := .executed }) ∧
        vs[b.toNat - e.a.toNat]? = some lo ∧ vs[b.toNat - e.a.toNat + 1]? = some hi ∧
        composeWords lo hi = v)) ∧
  ∀ (s t : State) (b : Half), storeOk s = true → s.keepsDuties = true → (b = 0 ∨ b = 2) →
    step s = .next t →
    (t.readReg b.toNat ≠ s.readReg b.toNat ∨ t.readReg (b.toNat + 1) ≠ s.readReg (b.toNat + 1)) →
    (∃ ws, fetch s = .instr (.stBatch ws) ∧ (∃ w, StoreWrite.reg b w ∈ ws) ∧
      ∃ w, StoreWrite.reg (b + 1) w ∈ ws) ∨
    (b = 0 ∧ t.readReg 0 = 0x0000 ∧ t.readReg 1 = 0x0000)

/-- R82 for the simulation port: ST_READ_REGS and ST_READ_COILS only put out a result, and the same
operation in the state after puts out the same result again. -/
def Obligations.StoreReadsRepeat : Prop :=
  ∀ (s : State) (start count : Half),
    (∃ o t, exec (.stReadRegs start count) s = .next t ∧ t.outputs = s.outputs ++ [o] ∧
      OnlyOutputs s t ∧ ∃ u, exec (.stReadRegs start count) t = .next u ∧
        u.outputs = s.outputs ++ [o, o]) ∧
    (∃ o t, exec (.stReadCoils start count) s = .next t ∧ t.outputs = s.outputs ++ [o] ∧
      OnlyOutputs s t ∧ ∃ u, exec (.stReadCoils start count) t = .next u ∧
        u.outputs = s.outputs ++ [o, o])

/-! ### The machine -/

/-- R280: block reset in a configuration c gives every register and coil its INIT value, coil 10
false where c is within its bounds, every engine phase Closed with why and exc none, the lock free
and the sim_reset history empty. -/
def Obligations.ResetGivesTheStatedValues : Prop :=
  ∀ c : Config,
    (∀ a, (State.boot c).readReg a = Memory.read 0x0000 c.initHr a) ∧
    (∀ a, (State.boot c).readCoil a = Memory.read false c.initCo a) ∧
    (configOk c = true → (State.boot c).readCoil 10 = false) ∧
    (∀ i, i < c.nConn → ∃ e, (State.boot c).engine? i = some e ∧ e.phase = .closed ∧ e.why = none ∧
      e.exc = none) ∧
    (State.boot c).lock = .free ∧ (State.boot c).simReset = []

/-- The state after block reset in any configuration within the bounds of R283 meets the invariant,
and so does State.reset, the reference configuration's. With any agenda whose moves keep the
simulation's duties (R228) it is a state of the runs R228 admits. The agenda and the form of the
duties are the model's (log entries 4 and 18). -/
def Obligations.ResetIsLegal : Prop :=
  stateOk State.reset = true ∧ (∀ c : Config, configOk c = true → stateOk (State.boot c) = true) ∧
  ∀ (c : Config) (ms : List Move), configOk c = true → ms.all Move.keepsDuties = true →
    stateDutiful { State.boot c with agenda := ms } = true

/-- From every state that meets the invariant, if step answers a next state, that state meets it:
configuration within bounds, both tables canonical and naming existing cells only (R60), N_CONN
engines whose latches are what the exchange so far has written for their phase (R180, R182, R185,
R196), the lock free (R45). How the tables are kept as lists is the model's choice (log entry 3). -/
def Obligations.EveryStepKeepsLegalStates : Prop :=
  ∀ s t : State, stateOk s = true → step s = .next t → stateOk t = true

/-- From every state that meets the invariant, step does not answer a fault: Execute never reaches a
cell that does not exist (R66, R182) and the case distinctions of Execute and Respond always have an
arm (R182, R196). The two faults are the model's choice (log entry 13). -/
def Obligations.LegalStatesNeverFault : Prop :=
  ∀ s : State, stateOk s = true → ∀ r, step s ≠ .fault r

/-- Where the next move is a command, a response frame or the step of an engine that has received a
frame, and it decodes to an instruction, step is exec of that instruction in the state with that
move taken off the agenda. In the phases Validated and Executed the step of an engine is exec of the
instruction of its latched request: the latched transaction id, unit and function code, and as data
the latched a and q, or for the kinds Unknown and Malformed what stands in rx after the function
code. The agenda is the model's choice (log entry 4); that instruction's data is not read in these
phases (log entry 20). -/
def Obligations.StepRunsTheDecodedInstruction : Prop :=
  ∀ (s : State) (rest : List Move), configOk s.cfg = true →
    (∀ op args ins, s.agenda = .command op args :: rest → decode (.command op args) = .ok ins →
      step s = exec ins { s with agenda := rest }) ∧
    (∀ f ins, s.agenda = .response f :: rest → decode (.response f) = .ok ins →
      step s = exec ins { s with agenda := rest }) ∧
    ∀ i e, s.agenda = .advance i :: rest → s.engine? i = some e →
      (∀ ins, e.phase = .received → decode (.request i e.rx) = .ok ins →
        step s = exec ins { s with agenda := rest }) ∧
      (∀ data, (e.phase = .validated ∨ e.phase = .executed) →
        ((e.kind = .read ∨ e.kind = .writeCoil) ∧ data = u16be e.a ++ u16be e.q ∨
          (e.kind = .unknown ∨ e.kind = .malformed) ∧ data = e.rx.drop 8) →
        step s = exec (requestInstr i ⟨e.tid, e.unit, e.fc, data⟩) { s with agenda := rest })

/-- R281: with an empty agenda step answers the same state; the step of an engine that is Closed,
Idle or Responded only takes its move off the agenda. That these are next states is the model's
choice (log entry 14). -/
def Obligations.WaitingBlockDoesNothing : Prop :=
  ∀ (s : State), configOk s.cfg = true →
    (s.agenda = [] → step s = .next s) ∧
    (∀ i e rest, s.agenda = .advance i :: rest → s.engine? i = some e →
      (e.phase = .closed ∨ e.phase = .idle ∨ e.phase = .responded) →
      step s = .next { s with agenda := rest })

/-- R283: with HR_SIZE outside 102 to 65536, COIL_SIZE outside 11 to 65536 or N_CONN of 0, every
step is refused. -/
def Obligations.BadConfigurationsAreRefused : Prop :=
  ∀ s : State,
    (s.cfg.hrSize < 102 ∨ 65536 < s.cfg.hrSize ∨ s.cfg.coilSize < 11 ∨ 65536 < s.cfg.coilSize ∨
      s.cfg.nConn < 1) → step s = .refused .badConfig

/-- R44 and R45: in every state, a step that answers a next state leaves the configuration and the
store lock as they were. -/
def Obligations.ConfigurationIsFixed : Prop :=
  ∀ s t : State, step s = .next t → t.cfg = s.cfg ∧ t.lock = s.lock

/-- R35: in every state, where a step changes a register or a coil, the simulation port wrote it
(ST_WRITE_REG, ST_WRITE_COIL, ST_BATCH), or an engine executed a coil write of address a and value
q, in a step of its own or inside SERVE: then among the coils only coil a changes, and registers
change only for a = 10 and q = 0xFF00 and only registers 0 and 1. -/
def Obligations.StoreChangesHaveTheirWriter : Prop :=
  ∀ s t : State, step s = .next t →
    (∀ c, t.readReg c = s.readReg c) ∧ (∀ c, t.readCoil c = s.readCoil c) ∨
    (∃ a v, fetch s = .instr (.stWriteReg a v)) ∨ (∃ a b, fetch s = .instr (.stWriteCoil a b)) ∨
    (∃ ws, fetch s = .instr (.stBatch ws)) ∨
    ∃ a q : Half,
      ((∃ i e rest, s.agenda = .advance i :: rest ∧ s.engine? i = some e ∧ e.phase = .validated ∧
          e.exc = none ∧ e.kind = .writeCoil ∧ e.fc = 0x05 ∧ e.a = a ∧ e.q = q) ∨
        (∃ i f tid unit, fetch s = .instr (.serve i (.frame f)) ∧
          decodeRequest f = .ok ⟨tid, unit, 0x05, .writeCoil a q⟩ ∧
          validateRequest s.cfg ⟨tid, unit, 0x05, .writeCoil a q⟩ = none)) ∧
      (∀ c, c ≠ a.toNat → t.readCoil c = s.readCoil c) ∧
      (∀ c, c ≠ 0 → c ≠ 1 → t.readReg c = s.readReg c) ∧
      ((∃ c, t.readReg c ≠ s.readReg c) → a = 10 ∧ q = 0xFF00)

/-- R36, its sentence that only a simulation-port write can make the reset coil true: from a legal
state, where a step makes coil 10 true it is ST_WRITE_COIL of true to coil 10, or a batch with that
write in it. R228: in a state of the runs it admits (legal, every move to come keeps the duties,
coil 10 false) the instruction fetched keeps the duties, and every step leads to such a state again,
with coil 10 false. How a move is judged against the duties is the model's reading (log entry 18).
-/
def Obligations.OnlyTheSimulationSetsTheResetCoil : Prop :=
  (∀ s t : State, stateOk s = true → step s = .next t → s.readCoil 10 = false → t.readCoil 10 = true →
    fetch s = .instr (.stWriteCoil 10 true) ∨
    ∃ ws, fetch s = .instr (.stBatch ws) ∧ StoreWrite.coil 10 true ∈ ws) ∧
  ∀ s : State, stateDutiful s = true →
    (∀ ins, fetch s = .instr ins → Instr.keepsDuties ins = true) ∧
    ∀ t, step s = .next t → stateDutiful t = true ∧ t.readCoil 10 = false

/-- R192 and R83: from a legal state a step leaves the event history as it is or appends exactly one
event, of an existing engine, and then registers 0 and 1 are zero and coil 10 is false in the state
after it. That no step removes an event from the history, although R47 says that the simulation
agent consumes events, is the model's reading (log entry 22). -/
def Obligations.ResetEventsClearTheEnergy : Prop :=
  ∀ s t : State, stateOk s = true → step s = .next t →
    t.simReset = s.simReset ∨
    ∃ i, i < s.cfg.nConn ∧ t.simReset = s.simReset ++ [i] ∧ t.readReg 0 = 0x0000 ∧
      t.readReg 1 = 0x0000 ∧ t.readCoil 10 = false

/-- R40 and R259: a step that is engine i's own step, the host's offer to it or the host taking its
response leaves engine j as it was, and with any other contents of engine j it does the same to
everything else. -/
def Obligations.EnginesDoNotInterfere : Prop :=
  ∀ (s t : State) (i j : Nat) (e' : Engine) (m : Move) (rest : List Move), i ≠ j →
    (m = .advance i ∨ m = .take i ∨ ∃ x, m = .offer i x) → s.agenda = m :: rest → step s = .next t →
    t.engine? j = s.engine? j ∧ step (s.setEngine j e') = .next (t.setEngine j e')

/-- R185, its last paragraph: Validate of any request completes, leaves both tables, and with any
other store contents does the same. -/
def Obligations.ValidationReadsNoStore : Prop :=
  ∀ (s : State) (i : Nat) (e : Engine) (h : Header) (hr : Memory Half) (co : Memory Bool),
    s.engine? i = some e → e.phase = .received →
    ∃ t, exec (requestInstr i h) s = .next t ∧ t.hr = s.hr ∧ t.co = s.co ∧
      exec (requestInstr i h) { s with hr := hr, co := co } = .next { t with hr := hr, co := co }
end

