-- ==== Sys2Proof/Laws/Codec.lean ====
section
/-! SUPPORT. The codec: byte order, frames, packing, and what the decoders make of encoded frames. -/

namespace Sys2Proof

/-! ### Byte order -/

theorem be16_u16be (v : Half) : be16 (v.extractLsb' 8 8) (v.extractLsb' 0 8) = v := by
  apply BitVec.eq_of_getLsbD_eq
  intro i hi
  simp only [be16, BitVec.getLsbD_or, BitVec.getLsbD_shiftLeft, BitVec.getLsbD_setWidth,
    BitVec.getLsbD_extractLsb']
  by_cases h : i < 8
  · simp [h, hi]
  · have h8 : i - 8 < 8 := by omega
    have : 8 + (i - 8) = i := by omega
    simp [h, hi, h8, this]
    intro h16
    omega

theorem u16be_be16 (hi lo : Byte) : u16be (be16 hi lo) = [hi, lo] := by
  have h1 : (be16 hi lo).extractLsb' 8 8 = hi := by
    apply BitVec.eq_of_getLsbD_eq
    intro i h
    have h16 : 8 + i < 16 := by omega
    simp [be16, h16, h]
  have h0 : (be16 hi lo).extractLsb' 0 8 = lo := by
    apply BitVec.eq_of_getLsbD_eq
    intro i h
    simp [be16, h]
    intro _
    omega
  simp [u16be, h1, h0]

/-- The value of a big-endian field: the high byte counts 256 (20_memory.md R68). -/
theorem be16_toNat (hi lo : Byte) : (be16 hi lo).toNat = 256 * hi.toNat + lo.toNat := by
  have h : hi.toNat < 256 := hi.isLt
  have l : lo.toNat < 256 := lo.isLt
  rw [be16, ← BitVec.add_eq_or_of_and_eq_zero]
  · simp only [BitVec.toNat_add, BitVec.toNat_shiftLeft, BitVec.toNat_setWidth, Nat.shiftLeft_eq]
    omega
  · apply BitVec.eq_of_getLsbD_eq
    intro i hi16
    simp only [BitVec.getLsbD_and, BitVec.getLsbD_shiftLeft, BitVec.getLsbD_setWidth, BitVec.getLsbD_zero]
    by_cases h8 : i < 8
    · simp [h8]
    · simp [BitVec.getLsbD_of_ge lo i (by omega)]

@[simp] theorem u16be_length (v : Half) : (u16be v).length = 2 := rfl

@[simp] theorem adu_length (tid : Half) (unit : Byte) (pdu : List Byte) :
    (adu tid unit pdu).length = 7 + pdu.length := by
  simp [adu]; omega

/-! ### The header check -/

/-- A frame built around a PDU passes the header check, which returns its fields. -/
theorem checkHeader_adu (tid : Half) (unit fc : Byte) (data : List Byte) (h : data.length + 2 < 65536) :
    checkHeader (adu tid unit (fc :: data)) = .ok ⟨tid, unit, fc, data⟩ := by
  have hl : (BitVec.ofNat 16 (data.length + 1 + 1)).toNat = data.length + 2 := by
    simp only [BitVec.toNat_ofNat]
    omega
  simp only [adu, u16be, List.length_cons, List.cons_append, List.nil_append, checkHeader, be16_u16be, hl]
  rw [if_neg (by decide), if_neg (by omega), if_neg (by omega)]

/-- Only a frame built around a PDU passes the header check. -/
theorem eq_adu_of_checkHeader {f : Frame} {h : Header} (hf : checkHeader f = .ok h) :
    f = adu h.tid h.unit (h.fc :: h.data) ∧ h.data.length + 2 < 65536 := by
  unfold checkHeader at hf
  split at hf
  · rename_i t1 t0 p1 p0 l1 l0 unit fc data
    split at hf
    · cases hf
    · rename_i hp
      split at hf
      · cases hf
      · split at hf
        · cases hf
        · obtain rfl : _ = h := by simpa using hf
          have hlt := (be16 l1 l0).isLt
          have hlen : (be16 l1 l0).toNat = data.length + 2 := by omega
          refine ⟨?_, by simp only; omega⟩
          have hL : be16 l1 l0 = BitVec.ofNat 16 (data.length + 1 + 1) := by
            apply BitVec.eq_of_toNat_eq
            rw [hlen, BitVec.toNat_ofNat]
            omega
          have hP : [p1, p0] = [0x00#8, 0x00#8] := by
            rw [← u16be_be16 p1 p0, show be16 p1 p0 = 0x0000#16 from not_not.mp hp]
            decide
          obtain ⟨rfl, rfl⟩ : p1 = 0x00#8 ∧ p0 = 0x00#8 := by simpa using hP
          simp only [adu, List.length_cons, u16be_be16, ← hL, List.cons_append, List.nil_append]
          rfl
  · cases hf

/-! ### Request data -/

theorem pduArgs_fields (a q : Half) : pduArgs (u16be a ++ u16be q) = .fields a q := by
  simp only [u16be, List.cons_append, List.nil_append, pduArgs, be16_u16be]

theorem pduArgs_of_length_ne {data : List Byte} (h : data.length ≠ 4) : pduArgs data = .malformed data := by
  unfold pduArgs
  split
  · simp at h
  · rfl

theorem pduArgs_bytes {args : PduArgs} (h : args.wellFormed = true) : pduArgs args.bytes = args := by
  cases args with
  | fields a q => exact pduArgs_fields a q
  | malformed data =>
    simp only [PduArgs.wellFormed, Bool.and_eq_true, bne_iff_ne] at h
    exact pduArgs_of_length_ne h.1

theorem bytes_pduArgs (data : List Byte) : (pduArgs data).bytes = data := by
  unfold pduArgs
  split
  · simp [PduArgs.bytes, u16be_be16]
  · rfl

theorem PduArgs.bytes_fit {args : PduArgs} (h : args.wellFormed = true) :
    args.bytes.length + 2 < 65536 := by
  cases args with
  | fields a q => simp [PduArgs.bytes]
  | malformed data =>
    simp only [PduArgs.wellFormed, Bool.and_eq_true, fitsLength, decide_eq_true_eq] at h
    exact h.2

namespace Machine

/-! ### Register values -/

theorem regValues_regBytes (vs : List Half) : regValues (regBytes vs) = vs := by
  induction vs with
  | nil => rfl
  | cons v vs ih =>
    simp only [regBytes, List.flatMap_cons, u16be, List.cons_append, List.nil_append, regValues,
      be16_u16be]
    exact congrArg _ ih

@[simp] theorem regBytes_length (vs : List Half) : (regBytes vs).length = 2 * vs.length := by
  induction vs with
  | nil => rfl
  | cons v vs ih =>
    simp only [regBytes, List.flatMap_cons, List.length_append, u16be_length, List.length_cons] at ih ⊢
    omega

theorem composeWords_split (v : Double) : composeWords (lowWord v) (highWord v) = v := by
  apply BitVec.eq_of_getLsbD_eq
  intro i hi
  simp only [composeWords, lowWord, highWord, BitVec.getLsbD_or, BitVec.getLsbD_shiftLeft,
    BitVec.getLsbD_setWidth, BitVec.getLsbD_extractLsb']
  by_cases h : i < 16
  · simp [h, hi]
  · have h16 : i - 16 < 16 := by omega
    have : 16 + (i - 16) = i := by omega
    simp [h, hi, h16, this]
    intro h32
    omega

/-! ### Coil packing -/

@[simp] theorem packCoils_length (bs : List Bool) : (packCoils bs).length = byteCount bs.length := by
  simp [packCoils]

@[simp] theorem unpackByte_length (b : Byte) : (unpackByte b).length = 8 := rfl

@[simp] theorem unpackCoils_length (d : List Byte) : (unpackCoils d).length = 8 * d.length := by
  induction d with
  | nil => rfl
  | cons b d ih =>
    simp only [unpackCoils, List.flatMap_cons, List.length_append, unpackByte_length,
      List.length_cons] at ih ⊢
    omega

/-- Bit `i` of a packed byte is element `i` of the list (30_encoding.md R114). -/
theorem packByte_getLsbD (bs : List Bool) (i : Nat) (h : i < 8) :
    (packByte bs).getLsbD i = bs.getD i false := by
  have e : packByte bs = packByte ((List.range 8).map fun k => bs.getD k false) := by
    simp [packByte, List.range_succ]
  rw [e]
  have g : bs.getD i false = ((List.range 8).map fun k => bs.getD k false).getD i false := by
    simp [List.getD, h]
  rw [g]
  simp only [List.range_succ, List.range_zero, List.nil_append, List.map_cons,
    List.map_nil, List.cons_append]
  generalize bs.getD 0 false = b0
  generalize bs.getD 1 false = b1
  generalize bs.getD 2 false = b2
  generalize bs.getD 3 false = b3
  generalize bs.getD 4 false = b4
  generalize bs.getD 5 false = b5
  generalize bs.getD 6 false = b6
  generalize bs.getD 7 false = b7
  revert b0 b1 b2 b3 b4 b5 b6 b7
  interval_cases i <;> decide

end Machine

end Sys2Proof
end

