-- ==== Sys2Proof/Laws/State.lean ====
section
/-! SUPPORT. One lemma per field per update of the state. -/

namespace Sys2Proof.Machine

/-! ### `State.writeReg` -/

@[simp] theorem State.writeReg_cfg (s : State) (a : Nat) (v : Half) : (s.writeReg a v).cfg = s.cfg := rfl
@[simp] theorem State.writeReg_hr (s : State) (a : Nat) (v : Half) : (s.writeReg a v).hr = Memory.write blankReg s.hr a v := rfl
@[simp] theorem State.writeReg_co (s : State) (a : Nat) (v : Half) : (s.writeReg a v).co = s.co := rfl
@[simp] theorem State.writeReg_engines (s : State) (a : Nat) (v : Half) : (s.writeReg a v).engines = s.engines := rfl
@[simp] theorem State.writeReg_lock (s : State) (a : Nat) (v : Half) : (s.writeReg a v).lock = s.lock := rfl
@[simp] theorem State.writeReg_simReset (s : State) (a : Nat) (v : Half) : (s.writeReg a v).simReset = s.simReset := rfl
@[simp] theorem State.writeReg_agenda (s : State) (a : Nat) (v : Half) : (s.writeReg a v).agenda = s.agenda := rfl
@[simp] theorem State.writeReg_outputs (s : State) (a : Nat) (v : Half) : (s.writeReg a v).outputs = s.outputs := rfl
@[simp] theorem State.writeReg_freeCount (s : State) (a : Nat) (v : Half) : (s.writeReg a v).freeCount = s.freeCount := rfl

/-! ### `State.writeCoil` -/

@[simp] theorem State.writeCoil_cfg (s : State) (a : Nat) (b : Bool) : (s.writeCoil a b).cfg = s.cfg := rfl
@[simp] theorem State.writeCoil_hr (s : State) (a : Nat) (b : Bool) : (s.writeCoil a b).hr = s.hr := rfl
@[simp] theorem State.writeCoil_co (s : State) (a : Nat) (b : Bool) : (s.writeCoil a b).co = Memory.write blankCoil s.co a b := rfl
@[simp] theorem State.writeCoil_engines (s : State) (a : Nat) (b : Bool) : (s.writeCoil a b).engines = s.engines := rfl
@[simp] theorem State.writeCoil_lock (s : State) (a : Nat) (b : Bool) : (s.writeCoil a b).lock = s.lock := rfl
@[simp] theorem State.writeCoil_simReset (s : State) (a : Nat) (b : Bool) : (s.writeCoil a b).simReset = s.simReset := rfl
@[simp] theorem State.writeCoil_agenda (s : State) (a : Nat) (b : Bool) : (s.writeCoil a b).agenda = s.agenda := rfl
@[simp] theorem State.writeCoil_outputs (s : State) (a : Nat) (b : Bool) : (s.writeCoil a b).outputs = s.outputs := rfl
@[simp] theorem State.writeCoil_freeCount (s : State) (a : Nat) (b : Bool) : (s.writeCoil a b).freeCount = s.freeCount := rfl

/-! ### `State.emit` -/

@[simp] theorem State.emit_cfg (s : State) (o : Output) : (s.emit o).cfg = s.cfg := rfl
@[simp] theorem State.emit_hr (s : State) (o : Output) : (s.emit o).hr = s.hr := rfl
@[simp] theorem State.emit_co (s : State) (o : Output) : (s.emit o).co = s.co := rfl
@[simp] theorem State.emit_engines (s : State) (o : Output) : (s.emit o).engines = s.engines := rfl
@[simp] theorem State.emit_lock (s : State) (o : Output) : (s.emit o).lock = s.lock := rfl
@[simp] theorem State.emit_simReset (s : State) (o : Output) : (s.emit o).simReset = s.simReset := rfl
@[simp] theorem State.emit_agenda (s : State) (o : Output) : (s.emit o).agenda = s.agenda := rfl
@[simp] theorem State.emit_outputs (s : State) (o : Output) : (s.emit o).outputs = s.outputs ++ [o] := rfl
@[simp] theorem State.emit_freeCount (s : State) (o : Output) : (s.emit o).freeCount = s.freeCount := rfl

/-! ### `State.emitReset` -/

@[simp] theorem State.emitReset_cfg (s : State) (i : Nat) : (s.emitReset i).cfg = s.cfg := rfl
@[simp] theorem State.emitReset_hr (s : State) (i : Nat) : (s.emitReset i).hr = s.hr := rfl
@[simp] theorem State.emitReset_co (s : State) (i : Nat) : (s.emitReset i).co = s.co := rfl
@[simp] theorem State.emitReset_engines (s : State) (i : Nat) : (s.emitReset i).engines = s.engines := rfl
@[simp] theorem State.emitReset_lock (s : State) (i : Nat) : (s.emitReset i).lock = s.lock := rfl
@[simp] theorem State.emitReset_simReset (s : State) (i : Nat) : (s.emitReset i).simReset = s.simReset ++ [i] := rfl
@[simp] theorem State.emitReset_agenda (s : State) (i : Nat) : (s.emitReset i).agenda = s.agenda := rfl
@[simp] theorem State.emitReset_outputs (s : State) (i : Nat) : (s.emitReset i).outputs = s.outputs := rfl
@[simp] theorem State.emitReset_freeCount (s : State) (i : Nat) : (s.emitReset i).freeCount = s.freeCount := rfl

/-! ### `State.popMove` -/

@[simp] theorem State.popMove_cfg (s : State) : (s.popMove).cfg = s.cfg := rfl
@[simp] theorem State.popMove_hr (s : State) : (s.popMove).hr = s.hr := rfl
@[simp] theorem State.popMove_co (s : State) : (s.popMove).co = s.co := rfl
@[simp] theorem State.popMove_engines (s : State) : (s.popMove).engines = s.engines := rfl
@[simp] theorem State.popMove_lock (s : State) : (s.popMove).lock = s.lock := rfl
@[simp] theorem State.popMove_simReset (s : State) : (s.popMove).simReset = s.simReset := rfl
@[simp] theorem State.popMove_agenda (s : State) : (s.popMove).agenda = s.agenda.tail := rfl
@[simp] theorem State.popMove_outputs (s : State) : (s.popMove).outputs = s.outputs := rfl
@[simp] theorem State.popMove_freeCount (s : State) : (s.popMove).freeCount = s.freeCount := rfl

/-! ### `State.setEngine` -/

@[simp] theorem State.setEngine_cfg (s : State) (i : Nat) (e : Engine) : (s.setEngine i e).cfg = s.cfg := rfl
@[simp] theorem State.setEngine_hr (s : State) (i : Nat) (e : Engine) : (s.setEngine i e).hr = s.hr := rfl
@[simp] theorem State.setEngine_co (s : State) (i : Nat) (e : Engine) : (s.setEngine i e).co = s.co := rfl
@[simp] theorem State.setEngine_engines (s : State) (i : Nat) (e : Engine) : (s.setEngine i e).engines = s.engines.set i e := rfl
@[simp] theorem State.setEngine_lock (s : State) (i : Nat) (e : Engine) : (s.setEngine i e).lock = s.lock := rfl
@[simp] theorem State.setEngine_simReset (s : State) (i : Nat) (e : Engine) : (s.setEngine i e).simReset = s.simReset := rfl
@[simp] theorem State.setEngine_agenda (s : State) (i : Nat) (e : Engine) : (s.setEngine i e).agenda = s.agenda := rfl
@[simp] theorem State.setEngine_outputs (s : State) (i : Nat) (e : Engine) : (s.setEngine i e).outputs = s.outputs := rfl
@[simp] theorem State.setEngine_freeCount (s : State) (i : Nat) (e : Engine) : (s.setEngine i e).freeCount = s.freeCount := rfl

/-! ### `State.useFree` -/

@[simp] theorem State.useFree_cfg (s : State) : (s.useFree).cfg = s.cfg := rfl
@[simp] theorem State.useFree_hr (s : State) : (s.useFree).hr = s.hr := rfl
@[simp] theorem State.useFree_co (s : State) : (s.useFree).co = s.co := rfl
@[simp] theorem State.useFree_engines (s : State) : (s.useFree).engines = s.engines := rfl
@[simp] theorem State.useFree_lock (s : State) : (s.useFree).lock = s.lock := rfl
@[simp] theorem State.useFree_simReset (s : State) : (s.useFree).simReset = s.simReset := rfl
@[simp] theorem State.useFree_agenda (s : State) : (s.useFree).agenda = s.agenda := rfl
@[simp] theorem State.useFree_outputs (s : State) : (s.useFree).outputs = s.outputs := rfl
@[simp] theorem State.useFree_freeCount (s : State) : (s.useFree).freeCount = s.freeCount + 2 := rfl

/-! ### Reading an engine -/

theorem State.engine?_setEngine_same (s : State) (i : Nat) (e : Engine) (h : i < s.engines.length) :
    (s.setEngine i e).engine? i = some e := by
  simp [State.engine?, h]

@[simp] theorem State.engine?_setEngine_other (s : State) (i j : Nat) (e : Engine) (h : j ≠ i) :
    (s.setEngine i e).engine? j = s.engine? j := by
  simp [State.engine?, Ne.symm h]

theorem State.engine?_eq_some_lt {s : State} {i : Nat} {e : Engine} (h : s.engine? i = some e) :
    i < s.engines.length := by
  have := List.getElem?_eq_some_iff.mp h
  exact this.1

theorem State.engine?_setEngine_of_some {s : State} {i : Nat} {e : Engine} (h : s.engine? i = some e)
    (e' : Engine) : (s.setEngine i e').engine? i = some e' :=
  s.engine?_setEngine_same i e' (State.engine?_eq_some_lt h)

/-! ### Reading the store after an update that does not write it -/

theorem State.readReg_congr {s t : State} (h : t.hr = s.hr) (a : Nat) : t.readReg a = s.readReg a := by
  simp [State.readReg, h]

theorem State.readCoil_congr {s t : State} (h : t.co = s.co) (a : Nat) : t.readCoil a = s.readCoil a := by
  simp [State.readCoil, h]

theorem State.readRegs_congr {s t : State} (h : t.hr = s.hr) (a n : Nat) :
    t.readRegs a n = s.readRegs a n := by
  simp [State.readRegs, State.readReg, h]

theorem State.readCoils_congr {s t : State} (h : t.co = s.co) (a n : Nat) :
    t.readCoils a n = s.readCoils a n := by
  simp [State.readCoils, State.readCoil, h]

@[simp] theorem State.readRegs_length (s : State) (a n : Nat) : (s.readRegs a n).length = n := by
  simp [State.readRegs]

@[simp] theorem State.readCoils_length (s : State) (a n : Nat) : (s.readCoils a n).length = n := by
  simp [State.readCoils]

end Sys2Proof.Machine
end

