-- ==== Sys2Proof/Laws/Memory.lean ====
section
/-! SUPPORT. The tables of cells: reading after a write, and every write keeps the canonical form and
the bound on addresses. -/

namespace Sys2Proof.Machine

section Tables

variable {α : Type} (blank : α)

theorem Memory.risingFrom_mono {low low' : Nat} (h : low' ≤ low) :
    ∀ m : Memory α, Memory.risingFrom low m = true → Memory.risingFrom low' m = true
  | [], _ => rfl
  | (k, _) :: m, hm => by
    simp only [Memory.risingFrom, Bool.and_eq_true, decide_eq_true_eq] at hm ⊢
    exact ⟨h.trans hm.1, hm.2⟩

/-- Below every listed address a table reads blank. -/
theorem Memory.read_of_lt : ∀ (m : Memory α) (low a : Nat), Memory.risingFrom low m = true → a < low →
    Memory.read blank m a = blank
  | [], _, _, _, _ => rfl
  | (k, v) :: m, low, a, hm, ha => by
    simp only [Memory.risingFrom, Bool.and_eq_true, decide_eq_true_eq] at hm
    have hk : k ≠ a := by omega
    simp only [Memory.read, hk, if_false]
    exact Memory.read_of_lt m (k + 1) a hm.2 (by omega)

theorem Memory.read_insert_same : ∀ (m : Memory α) (a : Nat) (v : α),
    Memory.read blank (Memory.insert m a v) a = v
  | [], a, v => by simp [Memory.insert, Memory.read]
  | (k, w) :: m, a, v => by
    unfold Memory.insert
    split
    · simp [Memory.read]
    · split
      · simp [Memory.read]
      · simp [Memory.read, *, Memory.read_insert_same m a v]

theorem Memory.read_insert_other : ∀ (m : Memory α) (a b : Nat) (v : α), b ≠ a →
    Memory.read blank (Memory.insert m a v) b = Memory.read blank m b
  | [], a, b, v, h => by simp [Memory.insert, Memory.read, Ne.symm h]
  | (k, w) :: m, a, b, v, h => by
    unfold Memory.insert
    split
    · simp [Memory.read, Ne.symm h]
    · split
      · rename_i hk
        simp [Memory.read, Ne.symm h, hk]
      · simp only [Memory.read, Memory.read_insert_other m a b v h]

theorem Memory.read_erase_same : ∀ (m : Memory α) (low a : Nat), Memory.risingFrom low m = true →
    Memory.read blank (Memory.erase m a) a = blank
  | [], _, _, _ => rfl
  | (k, v) :: m, low, a, hm => by
    simp only [Memory.risingFrom, Bool.and_eq_true, decide_eq_true_eq] at hm
    unfold Memory.erase
    split
    · exact Memory.read_of_lt blank m (k + 1) a hm.2 (by omega)
    · rename_i hk
      simp only [Memory.read, hk, if_false]
      exact Memory.read_erase_same m (k + 1) a hm.2

theorem Memory.read_erase_other : ∀ (m : Memory α) (a b : Nat), b ≠ a →
    Memory.read blank (Memory.erase m a) b = Memory.read blank m b
  | [], _, _, _ => rfl
  | (k, v) :: m, a, b, h => by
    unfold Memory.erase
    split
    · rename_i hk
      simp [Memory.read, hk, Ne.symm h]
    · simp only [Memory.read, Memory.read_erase_other m a b h]

theorem Memory.risingFrom_insert : ∀ (m : Memory α) (low a : Nat) (v : α),
    Memory.risingFrom low m = true → low ≤ a → Memory.risingFrom low (Memory.insert m a v) = true
  | [], low, a, v, _, ha => by simp [Memory.insert, Memory.risingFrom, ha]
  | (k, w) :: m, low, a, v, hm, ha => by
    simp only [Memory.risingFrom, Bool.and_eq_true, decide_eq_true_eq] at hm
    unfold Memory.insert
    split
    · simp only [Memory.risingFrom, Bool.and_eq_true, decide_eq_true_eq]
      exact ⟨ha, by omega, hm.2⟩
    · split
      · rename_i hk
        subst hk
        simpa [Memory.risingFrom] using hm
      · simp only [Memory.risingFrom, Bool.and_eq_true, decide_eq_true_eq]
        exact ⟨hm.1, Memory.risingFrom_insert m (k + 1) a v hm.2 (by omega)⟩

theorem Memory.risingFrom_erase : ∀ (m : Memory α) (low a : Nat),
    Memory.risingFrom low m = true → Memory.risingFrom low (Memory.erase m a) = true
  | [], _, _, _ => rfl
  | (k, v) :: m, low, a, hm => by
    simp only [Memory.risingFrom, Bool.and_eq_true, decide_eq_true_eq] at hm
    unfold Memory.erase
    split
    · exact Memory.risingFrom_mono (by omega) m hm.2
    · simp only [Memory.risingFrom, Bool.and_eq_true, decide_eq_true_eq]
      exact ⟨hm.1, Memory.risingFrom_erase m (k + 1) a hm.2⟩

theorem Memory.mem_insert {c : Nat × α} : ∀ (m : Memory α) (a : Nat) (v : α),
    c ∈ Memory.insert m a v → c = (a, v) ∨ c ∈ m
  | [], a, v, h => by
    rw [Memory.insert, List.mem_singleton] at h
    exact .inl h
  | (k, w) :: m, a, v, h => by
    unfold Memory.insert at h
    split at h
    · exact (List.mem_cons.mp h)
    · split at h
      · rcases List.mem_cons.mp h with h | h
        · exact .inl h
        · exact .inr (List.mem_cons_of_mem _ h)
      · rcases List.mem_cons.mp h with h | h
        · exact .inr (h ▸ List.mem_cons_self)
        · rcases Memory.mem_insert m a v h with h | h
          · exact .inl h
          · exact .inr (List.mem_cons_of_mem _ h)

theorem Memory.mem_erase {c : Nat × α} : ∀ (m : Memory α) (a : Nat), c ∈ Memory.erase m a → c ∈ m
  | [], _, h => h
  | (k, w) :: m, a, h => by
    unfold Memory.erase at h
    split at h
    · exact List.mem_cons_of_mem _ h
    · rcases List.mem_cons.mp h with h | h
      · exact h ▸ List.mem_cons_self
      · exact List.mem_cons_of_mem _ (Memory.mem_erase m a h)

variable [DecidableEq α]

theorem Memory.wf_iff (m : Memory α) :
    Memory.wf blank m = true ↔ Memory.risingFrom 0 m = true ∧ ∀ c ∈ m, c.2 ≠ blank := by
  simp only [Memory.wf, Bool.and_eq_true, List.all_eq_true, decide_eq_true_eq]

omit [DecidableEq α] in
theorem Memory.within_iff (size : Nat) (m : Memory α) :
    Memory.within size m = true ↔ ∀ c ∈ m, c.1 < size := by
  simp only [Memory.within, List.all_eq_true, decide_eq_true_eq]

/-- A read after a write to the same cell gives the value written. -/
theorem Memory.read_write_same {m : Memory α} (hm : Memory.wf blank m = true) (a : Nat) (v : α) :
    Memory.read blank (Memory.write blank m a v) a = v := by
  unfold Memory.write
  split
  · rename_i h
    rw [h, Memory.read_erase_same blank m 0 a ((Memory.wf_iff blank m).mp hm).1]
  · exact Memory.read_insert_same blank m a v

/-- A write leaves every other cell alone. -/
theorem Memory.read_write_other (m : Memory α) (a b : Nat) (v : α) (h : b ≠ a) :
    Memory.read blank (Memory.write blank m a v) b = Memory.read blank m b := by
  unfold Memory.write
  split
  · exact Memory.read_erase_other blank m a b h
  · exact Memory.read_insert_other blank m a b v h

/-- Every write keeps the canonical form. -/
theorem Memory.wf_write {m : Memory α} (hm : Memory.wf blank m = true) (a : Nat) (v : α) :
    Memory.wf blank (Memory.write blank m a v) = true := by
  rw [Memory.wf_iff] at hm ⊢
  unfold Memory.write
  split
  · exact ⟨Memory.risingFrom_erase m 0 a hm.1, fun c hc => hm.2 c (Memory.mem_erase m a hc)⟩
  · rename_i hv
    refine ⟨Memory.risingFrom_insert m 0 a v hm.1 (Nat.zero_le a), fun c hc => ?_⟩
    rcases Memory.mem_insert m a v hc with rfl | hc
    · exact hv
    · exact hm.2 c hc

/-- A write to an existing cell lists existing cells only. -/
theorem Memory.within_write {size : Nat} {m : Memory α} (hm : Memory.within size m = true) {a : Nat}
    (ha : a < size) (v : α) : Memory.within size (Memory.write blank m a v) = true := by
  rw [Memory.within_iff] at hm ⊢
  unfold Memory.write
  split
  · exact fun c hc => hm c (Memory.mem_erase m a hc)
  · intro c hc
    rcases Memory.mem_insert m a v hc with rfl | hc
    · exact ha
    · exact hm c hc

end Tables

/-! ### The store's cells -/

theorem State.readReg_writeReg_same {s : State} (h : Memory.wf blankReg s.hr = true) (a : Nat) (v : Half) :
    (s.writeReg a v).readReg a = v :=
  Memory.read_write_same blankReg h a v

theorem State.readReg_writeReg_other (s : State) (a b : Nat) (v : Half) (h : b ≠ a) :
    (s.writeReg a v).readReg b = s.readReg b :=
  Memory.read_write_other blankReg s.hr a b v h

theorem State.readCoil_writeCoil_same {s : State} (h : Memory.wf blankCoil s.co = true) (a : Nat)
    (b : Bool) : (s.writeCoil a b).readCoil a = b :=
  Memory.read_write_same blankCoil h a b

theorem State.readCoil_writeCoil_other (s : State) (a c : Nat) (b : Bool) (h : c ≠ a) :
    (s.writeCoil a b).readCoil c = s.readCoil c :=
  Memory.read_write_other blankCoil s.co a c b h

end Sys2Proof.Machine
end

