-- ==== Sys2Proof/Laws/Ops.lean ====
section
/-! SUPPORT. What each shared operation can do, said once: the fields an operation leaves, and the states
it answers. -/

namespace Sys2Proof.Machine

/-! ### Fields the store operations leave -/

section Store

variable (s : State)

@[simp] theorem resetSideEffect_cfg (i : Nat) : (resetSideEffect i s).cfg = s.cfg := rfl
@[simp] theorem resetSideEffect_co (i : Nat) : (resetSideEffect i s).co = s.co := rfl
@[simp] theorem resetSideEffect_engines (i : Nat) : (resetSideEffect i s).engines = s.engines := rfl
@[simp] theorem resetSideEffect_lock (i : Nat) : (resetSideEffect i s).lock = s.lock := rfl
@[simp] theorem resetSideEffect_agenda (i : Nat) : (resetSideEffect i s).agenda = s.agenda := rfl
@[simp] theorem resetSideEffect_outputs (i : Nat) : (resetSideEffect i s).outputs = s.outputs := rfl
@[simp] theorem resetSideEffect_freeCount (i : Nat) : (resetSideEffect i s).freeCount = s.freeCount := rfl
@[simp] theorem resetSideEffect_simReset (i : Nat) :
    (resetSideEffect i s).simReset = s.simReset ++ [i] := rfl
theorem resetSideEffect_hr (i : Nat) : (resetSideEffect i s).hr =
    Memory.write blankReg (Memory.write blankReg s.hr 0 0x0000) 1 0x0000 := rfl

/-- What a coil write does to the store (41_dispatch.md R190, R192): the three cases. -/
theorem writeCoilStore_cases (i a : Nat) (b : Bool) :
    (a = resetCoil ∧ b = true ∧ writeCoilStore i a b s = (resetSideEffect i s).writeCoil resetCoil false) ∨
    (a = resetCoil ∧ b = false ∧ writeCoilStore i a b s = s.writeCoil resetCoil false) ∨
    (a ≠ resetCoil ∧ writeCoilStore i a b s = s.writeCoil a b) := by
  by_cases h : a = resetCoil
  · cases b <;> simp [writeCoilStore, h]
  · simp [writeCoilStore, h]

@[simp] theorem writeCoilStore_cfg (i a : Nat) (b : Bool) : (writeCoilStore i a b s).cfg = s.cfg := by
  rcases writeCoilStore_cases s i a b with ⟨-, -, h⟩ | ⟨-, -, h⟩ | ⟨-, h⟩ <;> simp [h]
@[simp] theorem writeCoilStore_engines (i a : Nat) (b : Bool) :
    (writeCoilStore i a b s).engines = s.engines := by
  rcases writeCoilStore_cases s i a b with ⟨-, -, h⟩ | ⟨-, -, h⟩ | ⟨-, h⟩ <;> simp [h]
@[simp] theorem writeCoilStore_lock (i a : Nat) (b : Bool) : (writeCoilStore i a b s).lock = s.lock := by
  rcases writeCoilStore_cases s i a b with ⟨-, -, h⟩ | ⟨-, -, h⟩ | ⟨-, h⟩ <;> simp [h]
@[simp] theorem writeCoilStore_agenda (i a : Nat) (b : Bool) :
    (writeCoilStore i a b s).agenda = s.agenda := by
  rcases writeCoilStore_cases s i a b with ⟨-, -, h⟩ | ⟨-, -, h⟩ | ⟨-, h⟩ <;> simp [h]
@[simp] theorem writeCoilStore_outputs (i a : Nat) (b : Bool) :
    (writeCoilStore i a b s).outputs = s.outputs := by
  rcases writeCoilStore_cases s i a b with ⟨-, -, h⟩ | ⟨-, -, h⟩ | ⟨-, h⟩ <;> simp [h]
@[simp] theorem writeCoilStore_freeCount (i a : Nat) (b : Bool) :
    (writeCoilStore i a b s).freeCount = s.freeCount := by
  rcases writeCoilStore_cases s i a b with ⟨-, -, h⟩ | ⟨-, -, h⟩ | ⟨-, h⟩ <;> simp [h]

/-- One cell write of a batch changes the two tables only. -/
theorem applyWrite_frame (w : StoreWrite) : (s.applyWrite w).cfg = s.cfg ∧
    (s.applyWrite w).engines = s.engines ∧ (s.applyWrite w).lock = s.lock ∧
    (s.applyWrite w).simReset = s.simReset ∧ (s.applyWrite w).agenda = s.agenda ∧
    (s.applyWrite w).outputs = s.outputs ∧ (s.applyWrite w).freeCount = s.freeCount := by
  cases w <;> simp [State.applyWrite]

/-- A batch changes the two tables only. -/
theorem applyWrites_frame (ws : List StoreWrite) : (s.applyWrites ws).cfg = s.cfg ∧
    (s.applyWrites ws).engines = s.engines ∧ (s.applyWrites ws).lock = s.lock ∧
    (s.applyWrites ws).simReset = s.simReset ∧ (s.applyWrites ws).agenda = s.agenda ∧
    (s.applyWrites ws).outputs = s.outputs ∧ (s.applyWrites ws).freeCount = s.freeCount := by
  induction ws generalizing s with
  | nil => simp [State.applyWrites]
  | cons w ws ih =>
    have h := ih (s.applyWrite w)
    have g := applyWrite_frame s w
    simp only [State.applyWrites, List.foldl_cons] at h ⊢
    simpa only [g] using h

/-- A batch whose cells all exist keeps both tables canonical and within their bounds. -/
theorem storeOk_applyWrites {s : State} (ws : List StoreWrite)
    (h : ws.all (StoreWrite.inStore s.cfg) = true) (hs : storeOk s = true) :
    storeOk (s.applyWrites ws) = true := by
  induction ws generalizing s with
  | nil => exact hs
  | cons w ws ih =>
    simp only [List.all_cons, Bool.and_eq_true] at h
    have g := applyWrite_frame s w
    refine ih (s := s.applyWrite w) (by rw [g.1]; exact h.2) ?_
    simp only [storeOk, Bool.and_eq_true] at hs ⊢
    obtain ⟨⟨⟨h1, h2⟩, h3⟩, h4⟩ := hs
    cases w with
    | reg a v =>
      have ha : a.toNat < s.cfg.hrSize := by simpa [StoreWrite.inStore, inRange] using h.1
      exact ⟨⟨⟨Memory.wf_write _ h1 _ _, Memory.within_write _ h2 ha _⟩, h3⟩, h4⟩
    | coil a b =>
      have ha : a.toNat < s.cfg.coilSize := by simpa [StoreWrite.inStore, inRange] using h.1
      exact ⟨⟨⟨h1, h2⟩, Memory.wf_write _ h3 _ _⟩, Memory.within_write _ h4 ha _⟩

end Store

/-! ### Latching a request -/

/-- Latching leaves `phase`, `rx`, `exc`, `tx` and `why` (41_dispatch.md R185). -/
theorem latch_frame (e : Engine) (r : DecodedRequest) (n : Nat) :
    (e.latch r n).phase = e.phase ∧ (e.latch r n).rx = e.rx ∧ (e.latch r n).exc = e.exc ∧
    (e.latch r n).tx = e.tx ∧ (e.latch r n).why = e.why := by
  unfold Engine.latch
  split <;> simp

/-- What latching writes for every kind. -/
theorem latch_header (e : Engine) (r : DecodedRequest) (n : Nat) :
    (e.latch r n).tid = r.tid ∧ (e.latch r n).unit = r.unit ∧ (e.latch r n).fc = r.fc := by
  unfold Engine.latch
  split <;> simp

/-- The latched request is the request. -/
theorem latchedRequest_latch (e : Engine) (r : DecodedRequest) (n : Nat) :
    latchedRequest (e.latch r n) = r := by
  obtain ⟨tid, unit, fc, body⟩ := r
  cases body <;> rfl

/-- Using up free values changes their counter only. -/
theorem afterLatch_frame (s : State) (r : DecodedRequest) :
    (s.afterLatch r).cfg = s.cfg ∧ (s.afterLatch r).hr = s.hr ∧ (s.afterLatch r).co = s.co ∧
    (s.afterLatch r).engines = s.engines ∧ (s.afterLatch r).lock = s.lock ∧
    (s.afterLatch r).simReset = s.simReset ∧ (s.afterLatch r).agenda = s.agenda ∧
    (s.afterLatch r).outputs = s.outputs := by
  unfold State.afterLatch
  split <;> simp

/-! ### The steps of an exchange -/

/-- Receive answers one of two next states (R181). -/
theorem receive_next {i : Nat} {x : PortInput} {s t : State} (h : receive i x s = .next t) :
    ∃ e, s.engine? i = some e ∧ e.phase = .idle ∧
      ((∃ f, x = .frame f ∧ t = s.setEngine i { e with rx := f, phase := .received }) ∨
        (x = .eof ∧ t = closeEngine i e .connectionClosed s)) := by
  unfold receive at h
  split at h
  · cases h
  · rename_i e he
    split at h
    · rename_i hp
      split at h <;> injection h with h <;> subst h
      · exact ⟨e, he, hp, .inl ⟨_, rfl, rfl⟩⟩
      · exact ⟨e, he, hp, .inr ⟨rfl, rfl⟩⟩
    · cases h

/-- Validate ends in one of three ways (R185): a drop, an exception taken, or ready to execute. -/
theorem validate_cases (i : Nat) (e : Engine) (r : DecodedRequest) (s : State) :
    (unitAccepted s.cfg r.unit = false ∧ validate i e r s =
        ((s.afterLatch r).setEngine i { e.latch r s.freeCount with phase := .idle }).emit (.dropped i)) ∨
    (unitAccepted s.cfg r.unit = true ∧ ∃ code, validateRequest s.cfg r = some code ∧
        validate i e r s = takeException i (e.latch r s.freeCount) code (s.afterLatch r)) ∨
    (unitAccepted s.cfg r.unit = true ∧ validateRequest s.cfg r = none ∧ validate i e r s =
        (s.afterLatch r).setEngine i { e.latch r s.freeCount with exc := none, phase := .validated }) := by
  unfold validate
  by_cases hu : unitAccepted s.cfg r.unit = true
  · cases hv : validateRequest s.cfg r with
    | none => exact .inr (.inr ⟨hu, rfl, by simp [hu]⟩)
    | some c => exact .inr (.inl ⟨hu, c, rfl, by simp [hu]⟩)
  · simp only [Bool.not_eq_true] at hu
    exact .inl ⟨hu, by simp [hu]⟩

/-- Respond answers a next state only with an encoded response (R196). -/
theorem respond_next {i : Nat} {e : Engine} {s t : State} (h : respond i e s = .next t) :
    ∃ r f, engineResponse e = some r ∧ encodeResponse r = some f ∧
      t = s.setEngine i { e with tx := f, phase := .responded } := by
  unfold respond at h
  split at h
  · cases h
  · rename_i r hr
    split at h
    · cases h
    · rename_i f hf
      injection h with h
      exact ⟨r, f, hr, hf, h.symm⟩

/-- Deliver answers a next state only from phase Responded (R197). -/
theorem deliver_next {i : Nat} {s t : State} (h : deliver i s = .next t) :
    ∃ e, s.engine? i = some e ∧ e.phase = .responded ∧ t = returnToIdle i e s := by
  unfold deliver at h
  split at h
  · cases h
  · rename_i e he
    split at h
    · rename_i hp
      injection h with h
      exact ⟨e, he, hp, h.symm⟩
    · cases h

/-- Execute of a coil read (R182). -/
theorem executeCoilRead_next {i : Nat} {e : Engine} {s t : State} (h : executeCoilRead i e s = .next t) :
    e.a.toNat + e.q.toNat ≤ s.cfg.coilSize ∧
      t = s.setEngine i { e with res := .coils (s.readCoils e.a.toNat e.q.toNat), phase := .executed } := by
  unfold executeCoilRead at h
  split at h
  · rename_i hr
    injection h with h
    exact ⟨by simpa [inRange] using hr, h.symm⟩
  · cases h

/-- Execute of a register read (R182). -/
theorem executeRegRead_next {i : Nat} {e : Engine} {s t : State} (h : executeRegRead i e s = .next t) :
    e.a.toNat + e.q.toNat ≤ s.cfg.hrSize ∧
      t = s.setEngine i { e with res := .regs (s.readRegs e.a.toNat e.q.toNat), phase := .executed } := by
  unfold executeRegRead at h
  split at h
  · rename_i hr
    injection h with h
    exact ⟨by simpa [inRange] using hr, h.symm⟩
  · cases h

/-- Execute of a coil write (R182, R190). -/
theorem executeCoilWrite_next {i : Nat} {e : Engine} {s t : State} (h : executeCoilWrite i e s = .next t) :
    e.a.toNat < s.cfg.coilSize ∧
      t = (writeCoilStore i e.a.toNat (coilBool e.q) s).setEngine i
        { e with res := .ack, phase := .executed } := by
  unfold executeCoilWrite at h
  split at h
  · rename_i hr
    injection h with h
    exact ⟨by simpa [inRange] using hr, h.symm⟩
  · cases h

/-- A function-code rule executes only on latches of its case (R182). -/
theorem executeFor_next {kind : ReqKind} {fc : Byte} {rule : Nat → Engine → State → Result} {i : Nat}
    {e : Engine} {s t : State} (h : executeFor kind fc rule i e s = .next t) :
    e.kind = kind ∧ e.fc = fc ∧ rule i e s = .next t := by
  unfold executeFor at h
  split at h
  · rename_i hk
    exact ⟨hk.1, hk.2, h⟩
  · cases h

/-- One step of a request is Validate, Execute or Respond, as the phase says (R180). -/
theorem requestStep_next {i : Nat} {r : DecodedRequest} {execute : Nat → Engine → State → Result}
    {s t : State} (h : requestStep i r execute s = .next t) :
    ∃ e, s.engine? i = some e ∧
      ((e.phase = .received ∧ t = validate i e r s) ∨
       (e.phase = .validated ∧ e.exc = none ∧ execute i e s = .next t) ∨
       (e.phase = .validated ∧ e.exc ≠ none ∧ respond i e s = .next t) ∨
       (e.phase = .executed ∧ respond i e s = .next t)) := by
  unfold requestStep at h
  split at h
  · cases h
  · rename_i e he
    refine ⟨e, he, ?_⟩
    split at h
    · rename_i hp
      injection h with h
      exact .inl ⟨hp, h.symm⟩
    · rename_i hp
      split at h
      · rename_i hx
        exact .inr (.inl ⟨hp, hx, h⟩)
      · rename_i c hx
        exact .inr (.inr (.inl ⟨hp, by simp [hx], h⟩))
    · rename_i hp
      exact .inr (.inr (.inr ⟨hp, h⟩))
    all_goals cases h

/-- The request-side map runs the instruction the decoder gives (30_encoding.md R110). -/
theorem runRequest_eq_exec (i : Nat) (h : Header) (s : State) :
    runRequest i h s = exec (requestInstr i h) s := by
  unfold runRequest requestInstr
  generalize h.fc.toNat = n
  rcases n with _ | _ | _ | _ | _ | _ | n <;> rfl

/-- A step after a step answers a next state only through the first one's. -/
theorem andThen_next {r : Result} {f : State → Result} {t : State} (h : andThen r f = .next t) :
    ∃ s, r = .next s ∧ f s = .next t := by
  unfold andThen at h
  split at h
  · exact ⟨_, rfl, h⟩
  · cases h
  · cases h

/-- The Execute rule of each request-side function code (30_encoding.md R110, 41_dispatch.md R182). -/
def executeRule (fc : Byte) : Nat → Engine → State → Result :=
  match fc.toNat with
  | 1 => executeFor .read 0x01 executeCoilRead
  | 2 => executeFor .read 0x02 executeCoilRead
  | 3 => executeFor .read 0x03 executeRegRead
  | 4 => executeFor .read 0x04 executeRegRead
  | 5 => executeFor .writeCoil 0x05 executeCoilWrite
  | _ => executeNothing

/-- A request is one shared step over the request as DEC_REQUEST gives it. -/
theorem runRequest_eq_requestStep (i : Nat) (h : Header) (s : State) :
    runRequest i h s = requestStep i (decodedRequest h) (executeRule h.fc) s := by
  obtain ⟨tid, unit, fc, data⟩ := h
  by_cases hs : supportedFc fc = true
  · have hn : fc.toNat = 1 ∨ fc.toNat = 2 ∨ fc.toNat = 3 ∨ fc.toNat = 4 ∨ fc.toNat = 5 := by
      simp only [supportedFc, Bool.and_eq_true, decide_eq_true_eq] at hs
      omega
    rcases hn with hn | hn | hn | hn | hn
    · obtain rfl : fc = 0x01#8 := BitVec.eq_of_toNat_eq hn
      rfl
    · obtain rfl : fc = 0x02#8 := BitVec.eq_of_toNat_eq hn
      rfl
    · obtain rfl : fc = 0x03#8 := BitVec.eq_of_toNat_eq hn
      rfl
    · obtain rfl : fc = 0x04#8 := BitVec.eq_of_toNat_eq hn
      rfl
    · obtain rfl : fc = 0x05#8 := BitVec.eq_of_toNat_eq hn
      rfl
  · have hd : decodedRequest ⟨tid, unit, fc, data⟩ = ⟨tid, unit, fc, .unknown⟩ := by
      simp [decodedRequest, hs]
    rw [hd]
    unfold runRequest executeRule
    simp only [supportedFc, Bool.and_eq_true, decide_eq_true_eq] at hs
    obtain ⟨n, hn⟩ : ∃ n, fc.toNat = n := ⟨_, rfl⟩
    simp only [hn] at hs ⊢
    rcases n with _ | _ | _ | _ | _ | _ | n <;> first | rfl | omega

/-- The engine's own step (R180): a step of its request, a close on a framing error, or nothing. -/
theorem advance_next {i : Nat} {s t : State} (h : advance i s = .next t) :
    ∃ e, s.engine? i = some e ∧
      ((∃ hd, pending e = .request hd ∧ runRequest i hd s = .next t) ∨
       (∃ k, pending e = .badFrame k ∧ t = closeEngine i e (frameCloseReason k) s) ∨
       (pending e = .waiting ∧ t = s)) := by
  unfold advance at h
  split at h
  · cases h
  · rename_i e he
    refine ⟨e, he, ?_⟩
    split at h
    · rename_i hd hp
      exact .inl ⟨hd, hp, h⟩
    · rename_i k hp
      injection h with h
      exact .inr (.inl ⟨k, hp, h.symm⟩)
    · rename_i hp
      injection h with h
      exact .inr (.inr ⟨hp, h.symm⟩)

/-- Where the agenda's first move is the engine's own step, one step of the machine is that step. -/
theorem step_advance {i : Nat} {s : State} {rest : List Move} (hc : configOk s.cfg = true)
    (ha : s.agenda = .advance i :: rest) : step s = advance i s.popMove := by
  have he : s.popMove.engine? i = s.engine? i := rfl
  simp only [step, hc, if_true, fetch, ha, fetchMove, advance, he]
  cases hi : s.engine? i with
  | none => rfl
  | some e =>
    simp only
    cases hp : pending e with
    | request h => simp only [runFetched, runRequest_eq_exec]
    | badFrame k => rfl
    | waiting => rfl

end Sys2Proof.Machine
end

