-- ==== Sys2Proof/Laws/PerInstr.lean ====
section
/-! SUPPORT. One law per instruction: the select field of what stands at the port for a well-formed
instruction is one that the instruction's rows of spec/opcode_table.json match. -/

namespace Sys2Proof

/-- The select field (30_encoding.md R110, R120): the function-code byte of a frame, or the OP value. -/
def Wire.select : Wire → Byte
  | .request _ f => f.getD 7 0
  | .response f => f.getD 7 0
  | .command op _ => op.setWidth 8

/-- The rows of spec/opcode_table.json of an instruction, each as (match, mask). -/
def Instr.tableRows : Instr → List (Byte × Byte)
  | .readCoils _ _ _ _ => [(0x01, 0xFF)]
  | .readDiscreteInputs _ _ _ _ => [(0x02, 0xFF)]
  | .readHoldingRegisters _ _ _ _ => [(0x03, 0xFF)]
  | .readInputRegisters _ _ _ _ => [(0x04, 0xFF)]
  | .writeSingleCoil _ _ _ _ => [(0x05, 0xFF)]
  | .illegalFunction _ _ _ _ _ => [(0x00, 0xFF), (0x06, 0xFE), (0x08, 0xF8), (0x10, 0xF0), (0x20, 0xE0),
      (0x40, 0xC0), (0x80, 0x80)]
  | .rspCoils _ _ _ _ => [(0x01, 0xFF), (0x02, 0xFF)]
  | .rspRegisters _ _ _ _ => [(0x03, 0xFF), (0x04, 0xFF)]
  | .rspWriteAck _ _ _ => [(0x05, 0xFF)]
  | .rspException _ _ _ _ => [(0x80, 0x80)]
  | .rspUnsupported _ _ _ _ => [(0x00, 0xFF), (0x06, 0xFE), (0x08, 0xF8), (0x10, 0xF0), (0x20, 0xE0),
      (0x40, 0xC0)]
  | .encReadReq _ _ _ _ _ => [(0x00, 0x0F)]
  | .encWriteCoilReq _ _ _ _ => [(0x01, 0x0F)]
  | .decResponse _ => [(0x02, 0x0F)]
  | .decRequest _ => [(0x03, 0x0F)]
  | .encResponse _ => [(0x04, 0x0F)]
  | .serve _ _ => [(0x05, 0x0F)]
  | .stReadRegs _ _ => [(0x06, 0x0F)]
  | .stWriteReg _ _ => [(0x07, 0x0F)]
  | .stReadCoils _ _ => [(0x08, 0x0F)]
  | .stWriteCoil _ _ => [(0x09, 0x0F)]
  | .stBatch _ => [(0x0A, 0x0F)]
  | .connect _ => [(0x0B, 0x0F)]
  | .reservedOp _ => [(0x0C, 0x0C)]

end Sys2Proof

namespace Sys2Proof.Laws.SelectField

/-- The law of one instruction. -/
def Statement (i : Instr) : Prop :=
  i.wellFormed = true → i.tableRows.any (fun r => (encode i).select &&& r.2 == r.1) = true

/-- The function-code byte of a frame is the first byte of its PDU (30_encoding.md R101). -/
theorem adu_getD_seven (tid : Half) (unit fc : Byte) (data : List Byte) :
    (adu tid unit (fc :: data)).getD 7 0 = fc := by
  simp [adu, u16be]

theorem readCoils (i : Nat) (tid : Half) (unit : Byte) (args : PduArgs) :
    Statement (.readCoils i tid unit args) := by
  intro _
  simp only [encode, Wire.select, adu_getD_seven]
  simp [Instr.tableRows]

theorem readDiscreteInputs (i : Nat) (tid : Half) (unit : Byte) (args : PduArgs) :
    Statement (.readDiscreteInputs i tid unit args) := by
  intro _
  simp only [encode, Wire.select, adu_getD_seven]
  simp [Instr.tableRows]

theorem readHoldingRegisters (i : Nat) (tid : Half) (unit : Byte) (args : PduArgs) :
    Statement (.readHoldingRegisters i tid unit args) := by
  intro _
  simp only [encode, Wire.select, adu_getD_seven]
  simp [Instr.tableRows]

theorem readInputRegisters (i : Nat) (tid : Half) (unit : Byte) (args : PduArgs) :
    Statement (.readInputRegisters i tid unit args) := by
  intro _
  simp only [encode, Wire.select, adu_getD_seven]
  simp [Instr.tableRows]

theorem writeSingleCoil (i : Nat) (tid : Half) (unit : Byte) (args : PduArgs) :
    Statement (.writeSingleCoil i tid unit args) := by
  intro _
  simp only [encode, Wire.select, adu_getD_seven]
  simp [Instr.tableRows]

theorem illegalFunction (i : Nat) (tid : Half) (unit : Byte) (fc : Byte) (data : List Byte) :
    Statement (.illegalFunction i tid unit fc data) := by
  intro h
  simp only [encode, Wire.select, adu_getD_seven]
  simp only [Instr.wellFormed, Bool.and_eq_true] at h
  replace h := h.1
  revert h
  revert fc
  simp only [Instr.tableRows]
  decide

theorem rspCoils (tid : Half) (unit : Byte) (fc : Byte) (data : List Byte) :
    Statement (.rspCoils tid unit fc data) := by
  intro h
  simp only [encode, Wire.select, adu_getD_seven]
  simp only [Instr.wellFormed, Bool.and_eq_true] at h
  replace h := h.1
  revert h
  revert fc
  simp only [Instr.tableRows]
  decide

theorem rspRegisters (tid : Half) (unit : Byte) (fc : Byte) (data : List Byte) :
    Statement (.rspRegisters tid unit fc data) := by
  intro h
  simp only [encode, Wire.select, adu_getD_seven]
  simp only [Instr.wellFormed, Bool.and_eq_true] at h
  replace h := h.1
  revert h
  revert fc
  simp only [Instr.tableRows]
  decide

theorem rspWriteAck (tid : Half) (unit : Byte) (data : List Byte) :
    Statement (.rspWriteAck tid unit data) := by
  intro _
  simp only [encode, Wire.select, adu_getD_seven]
  simp [Instr.tableRows]

theorem rspException (tid : Half) (unit : Byte) (fc : Byte) (data : List Byte) :
    Statement (.rspException tid unit fc data) := by
  intro h
  simp only [encode, Wire.select, adu_getD_seven]
  simp only [Instr.wellFormed, Bool.and_eq_true] at h
  replace h := h.1
  revert h
  revert fc
  simp only [Instr.tableRows]
  decide

theorem rspUnsupported (tid : Half) (unit : Byte) (fc : Byte) (data : List Byte) :
    Statement (.rspUnsupported tid unit fc data) := by
  intro h
  simp only [encode, Wire.select, adu_getD_seven]
  simp only [Instr.wellFormed, Bool.and_eq_true] at h
  replace h := h.1
  revert h
  revert fc
  simp only [Instr.tableRows]
  decide

theorem encReadReq (tid : Half) (unit : Byte) (fc : Byte) (start : Half) (count : Half) :
    Statement (.encReadReq tid unit fc start count) := by
  intro _
  simp [encode, Wire.select, Instr.tableRows]

theorem encWriteCoilReq (tid : Half) (unit : Byte) (addr : Half) (value : Bool) :
    Statement (.encWriteCoilReq tid unit addr value) := by
  intro _
  simp [encode, Wire.select, Instr.tableRows]

theorem decResponse (f : Frame) :
    Statement (.decResponse f) := by
  intro _
  simp [encode, Wire.select, Instr.tableRows]

theorem decRequest (f : Frame) :
    Statement (.decRequest f) := by
  intro _
  simp [encode, Wire.select, Instr.tableRows]

theorem encResponse (r : Response) :
    Statement (.encResponse r) := by
  intro _
  simp [encode, Wire.select, Instr.tableRows]

theorem serve (i : Nat) (x : PortInput) :
    Statement (.serve i x) := by
  intro _
  cases x <;> simp [encode, Wire.select, Instr.tableRows]

theorem stReadRegs (start : Half) (count : Half) :
    Statement (.stReadRegs start count) := by
  intro _
  simp [encode, Wire.select, Instr.tableRows]

theorem stWriteReg (addr : Half) (value : Half) :
    Statement (.stWriteReg addr value) := by
  intro _
  simp [encode, Wire.select, Instr.tableRows]

theorem stReadCoils (start : Half) (count : Half) :
    Statement (.stReadCoils start count) := by
  intro _
  simp [encode, Wire.select, Instr.tableRows]

theorem stWriteCoil (addr : Half) (value : Bool) :
    Statement (.stWriteCoil addr value) := by
  intro _
  simp [encode, Wire.select, Instr.tableRows]

theorem stBatch (ws : List StoreWrite) :
    Statement (.stBatch ws) := by
  intro _
  simp [encode, Wire.select, Instr.tableRows]

theorem connect (i : Nat) :
    Statement (.connect i) := by
  intro _
  simp [encode, Wire.select, Instr.tableRows]

theorem reservedOp (op : BitVec 4) :
    Statement (.reservedOp op) := by
  intro h
  simp only [Instr.wellFormed] at h
  revert h
  revert op
  simp only [encode, Wire.select, Instr.tableRows]
  decide

end Sys2Proof.Laws.SelectField
end

