-- ==== Sys2Proof/Machine/Notation.lean ====
section
/-! DEFINITION. The spec's notation for client requests (30_encoding.md R122, R123): the frame each line
denotes and the move it is as a line of a program on engine `i`. -/

namespace Sys2Proof.Machine

/-- A line of the notation. The last three client lines are the pseudo-instructions of R123; `sim` is a
store-port operation (`SIM <op> <operands>`). -/
inductive Line where
  | rdco (tid : Half) (unit : Byte) (start count : Half)
  | rddi (tid : Half) (unit : Byte) (start count : Half)
  | rdhr (tid : Half) (unit : Byte) (start count : Half)
  | rdir (tid : Half) (unit : Byte) (start count : Half)
  | wrco (tid : Half) (unit : Byte) (addr : Half) (on : Bool)
  | raw (f : Frame)
  | rd32 (tid : Half) (unit : Byte) (base : Half)
  | reset (tid : Half) (unit : Byte)
  | wrcoRaw (tid : Half) (unit : Byte) (addr value : Half)
  | sim (op : BitVec 4) (args : List Operand)
deriving DecidableEq, Repr

/-- The frame a client line denotes (R122, R123); a `sim` line denotes none. -/
def Line.frame : Line → Option Frame
  | .rdco tid unit start count => some (encodeReadRequest tid unit 0x01 start count)
  | .rddi tid unit start count => some (encodeReadRequest tid unit 0x02 start count)
  | .rdhr tid unit start count => some (encodeReadRequest tid unit 0x03 start count)
  | .rdir tid unit start count => some (encodeReadRequest tid unit 0x04 start count)
  | .wrco tid unit addr on => some (encodeWriteCoilRequest tid unit addr on)
  | .raw f => some f
  | .rd32 tid unit base => some (encodeReadRequest tid unit 0x03 base 2)
  | .reset tid unit => some (encodeWriteCoilRequest tid unit (BitVec.ofNat 16 resetCoil) true)
  | .wrcoRaw tid unit addr value => some (adu tid unit (0x05 :: (u16be addr ++ u16be value)))
  | .sim _ _ => none

/-- The move of a line in a program on engine `i`: SERVE of its frame, or the store-port operation. -/
def Line.move (i : Nat) (l : Line) : Move :=
  match l, l.frame with
  | .sim op args, _ => .command op args
  | _, some f => .command 0x5 [.engine i, .frame f]
  | _, none => .command 0x5 [.engine i, .eof]

/-- A program: its lines in order, each after the response to the one before (R122). -/
def programMoves (i : Nat) (p : List Line) : List Move := p.map (Line.move i)

/-- What a client keeps of a decoded coil response: the first `count` it asked for
(70_reset_and_hazards.md R286). -/
def sliceCoils (count : Nat) (bs : List Bool) : List Bool := bs.take count

end Sys2Proof.Machine
end

