-- ==== Sys2Proof/Tests/Slice0.lean ====
section
/-! SUPPORT. Checks of the model: ill-formed terms, words written out from the spec's encodings, one-step
vectors of 95_test_vectors.md (named by their ids there), and for every obligation with hypotheses a
concrete input that meets them. -/

namespace Sys2Proof.Tests

open Sys2Proof.Machine

/-! ### Helpers -/

/-- The next state of an outcome, where there is one. -/
def after : Result → Option State
  | .next t => some t
  | .fault _ => none
  | .refused _ => none

/-- What a step puts out, from a state whose outputs are empty. -/
def puts (r : Result) : Option (List Output) := (after r).map State.outputs

/-- The refusal of an outcome, where there is one. -/
def refusal : Result → Option Refusal
  | .next _ => none
  | .fault _ => none
  | .refused r => some r

/-- The start store of VD1 (95_test_vectors.md L2.4) with the one engine `e`. -/
def stock (e : Engine) : State :=
  { State.reset with
    hr := [(0, 0xE240), (1, 0x0001), (100, 0x0001), (101, 0x0003)],
    co := [(0, true), (1, true), (2, true)],
    engines := [e] }

/-- An engine in phase `p`, its latches as reset leaves them. -/
def inPhase (p : Phase) : Engine := { Engine.reset with phase := p }

/-- An engine that has validated a request of unit 1. -/
def validated (fc : Byte) (kind : ReqKind) (a q : Half) (exc : Option Byte) : Engine :=
  { Engine.reset with
    phase := .validated, tid := 0x0010, unit := 0x01, fc := fc, kind := kind, a := a, q := q, exc := exc }

/-- An engine that has executed a request of unit 1. -/
def executed (fc : Byte) (kind : ReqKind) (a q : Half) (res : ExecResult) : Engine :=
  { validated fc kind a q none with phase := .executed, res := res }

/-- An engine that has received the frame `f`. -/
def received (f : Frame) : Engine := { Engine.reset with phase := .received, rx := f }

/-- An Idle engine over the stocked store. -/
def idle : State := stock (inPhase .idle)

/-- The same state where only unit `u` is accepted (10_state.md R44, 00_scope.md R14). -/
def onlyUnit (u : Byte) (s : State) : State := { s with cfg := { s.cfg with acceptUnit := some u } }

/-- The same state with the moves `ms` to come. -/
def withMoves (ms : List Move) (s : State) : State := { s with agenda := ms }

/-- What SERVE of a frame puts out. -/
def answer (f : Frame) (s : State) : Option (List Output) := puts (exec (.serve 0 (.frame f)) s)

/-! ### Ill-formed terms -/

theorem test_malformed_of_four_bytes_is_ill_formed :
    (Instr.readCoils 0 0 1 (.malformed [0, 0, 0, 1])).wellFormed = false ∧
    (Instr.readDiscreteInputs 0 0 1 (.malformed [0, 0, 0, 1])).wellFormed = false ∧
    (Instr.readHoldingRegisters 0 0 1 (.malformed [0, 0, 0, 1])).wellFormed = false ∧
    (Instr.readInputRegisters 0 0 1 (.malformed [0, 0, 0, 1])).wellFormed = false ∧
    (Instr.writeSingleCoil 0 0 1 (.malformed [0, 0, 0, 1])).wellFormed = false := by decide

theorem test_data_over_the_length_field_is_ill_formed (data : List Byte) (h : data.length = 65534) :
    (Instr.rspWriteAck 0 1 data).wellFormed = false ∧
    (Instr.rspException 0 1 0x83 data).wellFormed = false ∧
    (Instr.illegalFunction 0 0 1 0x10 data).wellFormed = false ∧
    (Instr.readCoils 0 0 1 (.malformed data)).wellFormed = false := by
  simp [Instr.wellFormed, PduArgs.wellFormed, fitsLength, h]

theorem test_supported_code_is_no_illegal_function :
    (Instr.illegalFunction 0 0 1 0x03 []).wellFormed = false := by decide

theorem test_response_codes_of_another_row_are_ill_formed :
    (Instr.rspCoils 0 1 0x03 []).wellFormed = false ∧
    (Instr.rspRegisters 0 1 0x01 []).wellFormed = false ∧
    (Instr.rspException 0 1 0x03 [0x02]).wellFormed = false ∧
    (Instr.rspUnsupported 0 1 0x83 []).wellFormed = false ∧
    (Instr.rspUnsupported 0 1 0x03 []).wellFormed = false := by decide

theorem test_defined_op_is_not_reserved : (Instr.reservedOp 0xB).wellFormed = false := by decide

/-! ### Words written out from the encodings (30_encoding.md R100 to R112, R120) -/

theorem test_decode_read_requests :
    decode (.request 0 [0x00, 0x1B, 0, 0, 0, 6, 0x01, 0x01, 0x00, 0x00, 0x00, 0x0B]) =
      .ok (.readCoils 0 0x001B 0x01 (.fields 0x0000 0x000B)) ∧
    decode (.request 2 [0x00, 0x1E, 0, 0, 0, 6, 0x01, 0x02, 0x00, 0x0A, 0x00, 0x01]) =
      .ok (.readDiscreteInputs 2 0x001E 0x01 (.fields 0x000A 0x0001)) ∧
    decode (.request 0 [0x12, 0x34, 0, 0, 0, 6, 0x11, 0x03, 0x01, 0x02, 0x03, 0x04]) =
      .ok (.readHoldingRegisters 0 0x1234 0x11 (.fields 0x0102 0x0304)) ∧
    decode (.request 0 [0x00, 0x2F, 0, 0, 0, 6, 0x01, 0x04, 0x00, 0x64, 0x00, 0x02]) =
      .ok (.readInputRegisters 0 0x002F 0x01 (.fields 0x0064 0x0002)) := by decide

theorem test_decode_other_requests :
    decode (.request 0 [0x00, 0x24, 0, 0, 0, 6, 0x01, 0x05, 0x00, 0x03, 0xFF, 0x00]) =
      .ok (.writeSingleCoil 0 0x0024 0x01 (.fields 0x0003 0xFF00)) ∧
    decode (.request 0 [0x00, 0x20, 0, 0, 0, 6, 0x01, 0x86, 0x00, 0x00, 0x00, 0x01]) =
      .ok (.illegalFunction 0 0x0020 0x01 0x86 [0x00, 0x00, 0x00, 0x01]) ∧
    decode (.request 0 [0x00, 0x22, 0, 0, 0, 7, 0x01, 0x05, 0x00, 0x05, 0xFF, 0x00, 0x00]) =
      .ok (.writeSingleCoil 0 0x0022 0x01 (.malformed [0x00, 0x05, 0xFF, 0x00, 0x00])) := by decide

theorem test_decode_responses :
    decode (.response [0x00, 0x06, 0, 0, 0, 4, 0x01, 0x01, 0x01, 0x05]) =
      .ok (.rspCoils 0x0006 0x01 0x01 [0x01, 0x05]) ∧
    decode (.response [0x00, 0x09, 0, 0, 0, 3, 0x01, 0x04, 0x00]) =
      .ok (.rspRegisters 0x0009 0x01 0x04 [0x00]) ∧
    decode (.response [0x00, 0x02, 0, 0, 0, 6, 0x01, 0x05, 0x00, 0x0A, 0xFF, 0x00]) =
      .ok (.rspWriteAck 0x0002 0x01 [0x00, 0x0A, 0xFF, 0x00]) ∧
    decode (.response [0x00, 0x05, 0, 0, 0, 3, 0x01, 0x80, 0x0B]) =
      .ok (.rspException 0x0005 0x01 0x80 [0x0B]) ∧
    decode (.response [0x00, 0x01, 0, 0, 0, 2, 0x01, 0x06]) =
      .ok (.rspUnsupported 0x0001 0x01 0x06 []) := by decide

theorem test_decode_codec_commands :
    decode (.command 0b0000 [.half 1, .byte 2, .byte 3, .half 4, .half 5]) =
      .ok (.encReadReq 1 2 3 4 5) ∧
    decode (.command 0b0001 [.half 1, .byte 2, .half 10, .bool true]) =
      .ok (.encWriteCoilReq 1 2 10 true) ∧
    decode (.command 0b0010 [.frame [0x01]]) = .ok (.decResponse [0x01]) ∧
    decode (.command 0b0011 [.frame [0x02]]) = .ok (.decRequest [0x02]) ∧
    decode (.command 0b0100 [.response (.exc 3 1 0x03 0x02)]) =
      .ok (.encResponse (.exc 3 1 0x03 0x02)) := by decide

theorem test_decode_engine_and_store_commands :
    decode (.command 0b0101 [.engine 1, .eof]) = .ok (.serve 1 .eof) ∧
    decode (.command 0b0101 [.engine 1, .frame [0x01]]) = .ok (.serve 1 (.frame [0x01])) ∧
    decode (.command 0b0110 [.half 100, .half 2]) = .ok (.stReadRegs 100 2) ∧
    decode (.command 0b0111 [.half 101, .half 3]) = .ok (.stWriteReg 101 3) ∧
    decode (.command 0b1000 [.half 0, .half 11]) = .ok (.stReadCoils 0 11) ∧
    decode (.command 0b1001 [.half 10, .bool true]) = .ok (.stWriteCoil 10 true) ∧
    decode (.command 0b1010 [.writes [.reg 0 1]]) = .ok (.stBatch [.reg 0 1]) ∧
    decode (.command 0b1011 [.engine 0]) = .ok (.connect 0) ∧
    decode (.command 0b1100 []) = .ok (.reservedOp 0xC) ∧
    decode (.command 0b1111 [.engine 0]) = .ok (.reservedOp 0xF) := by decide

theorem test_decode_rejects_by_name :
    decode (.command 0b1011 []) = .error .badOperands ∧
    decode (.request 0 [0x00, 0x2C, 0, 0, 0, 6, 0x01]) = .error (.frame .truncated) ∧
    decode (.response [0x00, 0x01, 0, 0, 0, 0, 0x01, 0x03]) = .error (.frame .lengthMismatch) := by
  decide

theorem test_table_words :
    decodeTableWord 8 0x03 = some (.readHoldingRegisters 0 0 0 (.fields 0 0)) ∧
    decodeTableWord 8 0x83 = some (.illegalFunction 0 0 0 0x83 [0, 0, 0, 0]) ∧
    decodeTableWord 8 0x07 = some (.stWriteReg 0 0) ∧
    decodeTableWord 4 0x0C = some (.reservedOp 0xC) := by decide

theorem test_fetch_word_is_the_next_instruction :
    fetch (State.reset.withFetchWord 8 0x03) =
      .instr (.readHoldingRegisters 0 0 0 (.fields 0 0)) ∧
    fetch (State.reset.withFetchWord 8 0x0B) = .instr (.connect 0) := by decide

/-! ### The codec port (95_test_vectors.md L2.1 to L2.3) -/

theorem test_encReadReq_VE2 :
    puts (exec (.encReadReq 0x1234 0x11 0x01 0x0064 0x0010) State.reset) =
      some [.frame [0x12, 0x34, 0, 0, 0, 6, 0x11, 0x01, 0x00, 0x64, 0x00, 0x10]] := by decide

theorem test_encWriteCoilReq_VE5_VE6 :
    puts (exec (.encWriteCoilReq 2 1 10 true) State.reset) =
      some [.frame [0x00, 0x02, 0, 0, 0, 6, 0x01, 0x05, 0x00, 0x0A, 0xFF, 0x00]] ∧
    puts (exec (.encWriteCoilReq 0 0 0 false) State.reset) =
      some [.frame [0, 0, 0, 0, 0, 6, 0, 0x05, 0, 0, 0, 0]] := by decide

theorem test_decResponse_VR2_VR7 :
    puts (exec (.decResponse [0x00, 0x01, 0, 0, 0, 6, 0x01]) State.reset) =
      some [.decodeError .truncated] ∧
    puts (exec (.decResponse [0x00, 0x01, 0, 0, 0, 7, 0x01, 0x03, 0x04, 0xE2, 0x40, 0x00, 0x01])
      State.reset) = some [.response ⟨1, 1, 0x03, .registers [0xE240, 0x0001]⟩] := by decide

theorem test_decResponse_VR6_VR12 :
    puts (exec (.decResponse [0x00, 0x01, 0, 0, 0, 0, 0x01, 0x03]) State.reset) =
      some [.decodeError .lengthMismatch] ∧
    puts (exec (.decResponse [0x00, 0x01, 0, 0, 0, 7, 0x01, 0x03, 0x04, 0, 1, 0, 2, 3]) State.reset) =
      some [.decodeError .lengthMismatch] := by decide

theorem test_rspRegisters_VR9_VR10 :
    puts (exec (.rspRegisters 1 1 0x03 [0x04, 0x00, 0x01]) State.reset) =
      some [.decodeError .truncated] ∧
    puts (exec (.rspRegisters 1 1 0x03 [0x01, 0xAA]) State.reset) =
      some [.decodeError .lengthMismatch] := by decide

theorem test_rspCoils_VR15 :
    puts (exec (.rspCoils 6 1 0x02 [0x02, 0xFF, 0x80]) State.reset) =
      some [.response ⟨6, 1, 0x02, .coils [true, true, true, true, true, true, true, true,
        false, false, false, false, false, false, false, true]⟩] := by decide

theorem test_rspWriteAck_VR19_VR20 :
    puts (exec (.rspWriteAck 2 1 [0x00, 0x0A, 0x12, 0x34]) State.reset) =
      some [.response ⟨2, 1, 0x05, .writeAck 0x000A 0x1234⟩] ∧
    puts (exec (.rspWriteAck 2 1 [0x00, 0x0A, 0xFF]) State.reset) =
      some [.decodeError .truncated] := by decide

theorem test_rspException_VR24_VR26 :
    puts (exec (.rspException 5 1 0xFF [0x04]) State.reset) =
      some [.response ⟨5, 1, 0xFF, .exception 0x04⟩] ∧
    puts (exec (.rspException 5 1 0x83 [0x02, 0x00]) State.reset) =
      some [.decodeError .lengthMismatch] := by decide

theorem test_rspUnsupported_VR28 :
    puts (exec (.rspUnsupported 3 1 0x00 []) State.reset) =
      some [.decodeError (.unsupportedFunction 0x00)] := by decide

theorem test_decRequest_VQ3_VQ4 :
    puts (exec (.decRequest [0x00, 0x03, 0, 0, 0, 6, 0x01, 0x05, 0x00, 0x0A, 0x12, 0x34]) State.reset) =
      some [.request ⟨3, 1, 0x05, .writeCoil 10 0x1234⟩] ∧
    puts (exec (.decRequest [0x00, 0x04, 0, 0, 0, 5, 0x01, 0x03, 0, 0, 0]) State.reset) =
      some [.request ⟨4, 1, 0x03, .malformed⟩] := by decide

theorem test_decRequest_VQ6_VQ7 :
    puts (exec (.decRequest [0x00, 0x06, 0, 0, 0, 6, 0x01, 0x83, 0, 0, 0, 1]) State.reset) =
      some [.request ⟨6, 1, 0x83, .unknown⟩] ∧
    puts (exec (.decRequest [0x00, 0x07, 0, 1, 0, 6, 0x01, 0x03, 0, 0, 0, 1]) State.reset) =
      some [.decodeError .badProtocolId] := by decide

theorem test_encResponse_VQ10_VQ12 :
    puts (exec (.encResponse (.regs 1 1 0x03 [0xE240, 0x0001])) State.reset) =
      some [.frame [0x00, 0x01, 0, 0, 0, 7, 0x01, 0x03, 0x04, 0xE2, 0x40, 0x00, 0x01]] ∧
    puts (exec (.encResponse
      (.coils 1 1 0x01 [true, false, false, false, false, false, false, false, true])) State.reset) =
      some [.frame [0x00, 0x01, 0, 0, 0, 5, 0x01, 0x01, 0x02, 0x01, 0x01]] := by decide

theorem test_encResponse_VQ15_VQ17 (vs : List Half) (h : vs.length = 128) :
    puts (exec (.encResponse (.exc 4 1 0x86 0x01)) State.reset) =
      some [.frame [0x00, 0x04, 0, 0, 0, 3, 0x01, 0x86, 0x01]] ∧
    refusal (exec (.encResponse (.regs 1 1 0x03 vs)) State.reset) = some .responseTooLong :=
  ⟨by decide, by simp [exec, execEncResponse, encodeResponse, regsPdu, refusal, h]⟩

/-! ### The dispatcher (95_test_vectors.md L2.4) -/

theorem test_readHoldingRegisters_VD1_VD3 :
    answer [0x00, 0x10, 0, 0, 0, 6, 0x01, 0x03, 0x00, 0x64, 0x00, 0x02] idle =
      some [.tx 0 [0x00, 0x10, 0, 0, 0, 7, 0x01, 0x03, 0x04, 0x00, 0x01, 0x00, 0x03]] ∧
    answer [0x00, 0x11, 0, 0, 0, 6, 0x01, 0x03, 0x00, 0x65, 0x00, 0x02] idle =
      some [.tx 0 [0x00, 0x11, 0, 0, 0, 3, 0x01, 0x83, 0x02]] := by decide

theorem test_readHoldingRegisters_VD7_VD9 :
    answer [0x00, 0x16, 0, 0, 0, 6, 0x01, 0x03, 0xFF, 0xFF, 0x00, 0x00] idle =
      some [.tx 0 [0x00, 0x16, 0, 0, 0, 3, 0x01, 0x83, 0x03]] ∧
    answer [0x00, 0x17, 0, 0, 0, 6, 0x01, 0x03, 0xFF, 0xFF, 0x00, 0x01] idle =
      some [.tx 0 [0x00, 0x17, 0, 0, 0, 3, 0x01, 0x83, 0x02]] := by decide

theorem test_readInputRegisters_VD2 :
    answer [0x00, 0x2F, 0, 0, 0, 6, 0x01, 0x04, 0x00, 0x64, 0x00, 0x02] idle =
      some [.tx 0 [0x00, 0x2F, 0, 0, 0, 7, 0x01, 0x04, 0x04, 0x00, 0x01, 0x00, 0x03]] := by decide

theorem test_readCoils_VD12_VD14 :
    answer [0x00, 0x1B, 0, 0, 0, 6, 0x01, 0x01, 0x00, 0x00, 0x00, 0x0B] idle =
      some [.tx 0 [0x00, 0x1B, 0, 0, 0, 5, 0x01, 0x01, 0x02, 0x07, 0x00]] ∧
    answer [0x00, 0x1C, 0, 0, 0, 6, 0x01, 0x01, 0x00, 0x00, 0x07, 0xD1] idle =
      some [.tx 0 [0x00, 0x1C, 0, 0, 0, 3, 0x01, 0x81, 0x03]] := by decide

theorem test_readCoils_VD13_VD20 :
    answer [0x00, 0x1D, 0, 0, 0, 6, 0x01, 0x01, 0x00, 0x00, 0x00, 0x0C] idle =
      some [.tx 0 [0x00, 0x1D, 0, 0, 0, 3, 0x01, 0x81, 0x02]] ∧
    answer [0x00, 0x23, 0, 0, 0, 2, 0x01, 0x01] idle =
      some [.tx 0 [0x00, 0x23, 0, 0, 0, 3, 0x01, 0x81, 0x03]] := by decide

theorem test_readDiscreteInputs_VD15 :
    answer [0x00, 0x1E, 0, 0, 0, 6, 0x01, 0x02, 0x00, 0x0A, 0x00, 0x01] idle =
      some [.tx 0 [0x00, 0x1E, 0, 0, 0, 4, 0x01, 0x02, 0x01, 0x00]] := by decide

theorem test_illegalFunction_VD17_VD18 :
    answer [0x00, 0x20, 0, 0, 0, 6, 0x01, 0x86, 0, 0, 0, 1] idle =
      some [.tx 0 [0x00, 0x20, 0, 0, 0, 3, 0x01, 0x86, 0x01]] ∧
    answer [0x00, 0x21, 0, 0, 0, 9, 0x01, 0x10, 0, 0, 0, 1, 2, 0, 5] idle =
      some [.tx 0 [0x00, 0x21, 0, 0, 0, 3, 0x01, 0x90, 0x01]] := by decide

theorem test_writeSingleCoil_VD22_VD25 :
    answer [0x00, 0x19, 0, 0, 0, 6, 0x01, 0x05, 0xFF, 0xFF, 0x12, 0x34] idle =
      some [.tx 0 [0x00, 0x19, 0, 0, 0, 3, 0x01, 0x85, 0x03]] ∧
    answer [0x00, 0x0E, 0, 0, 0, 6, 0x01, 0x05, 0x00, 0x00, 0x00, 0x00] idle =
      some [.tx 0 [0x00, 0x0E, 0, 0, 0, 3, 0x01, 0x85, 0x02]] := by decide

theorem test_writeSingleCoil_VD27_VD30 :
    ((after (exec (.serve 0 (.frame [0x00, 0x25, 0, 0, 0, 6, 0x01, 0x05, 0x00, 0x03, 0xFF, 0x00]))
      idle)).map fun t => (t.co, t.simReset)) =
      some ([(0, true), (1, true), (2, true), (3, true)], []) ∧
    ((after (exec (.serve 0 (.frame [0x00, 0x29, 0, 0, 0, 6, 0x01, 0x05, 0x00, 0x0A, 0xFF, 0x00]))
      idle)).map fun t => (t.hr, t.co, t.simReset, t.outputs)) =
      some ([(100, 0x0001), (101, 0x0003)], [(0, true), (1, true), (2, true)], [0],
        [.tx 0 [0x00, 0x29, 0, 0, 0, 6, 0x01, 0x05, 0x00, 0x0A, 0xFF, 0x00]]) := by decide

theorem test_serve_VD34_VD36 :
    answer [0x00, 0x2D, 0, 0, 0, 7, 0x01, 0x03, 0x00, 0x00, 0x00, 0x02] idle =
      some [.closed 0 .truncated] ∧
    puts (exec (.serve 0 .eof) idle) = some [.closed 0 .connectionClosed] := by decide

theorem test_serve_VD37_VD42 :
    answer [0x00, 0x01, 0, 0, 0, 6, 0x02, 0x03, 0x00, 0x00, 0x00, 0x01] (onlyUnit 0x01 idle) =
      some [.dropped 0] ∧
    answer [0x00, 0x01, 0, 1, 0, 6, 0x02, 0x03, 0x00, 0x00, 0x00, 0x01] (onlyUnit 0x01 idle) =
      some [.closed 0 .badProtocolId] := by decide

/-! ### The simulation port, engines and reserved values (95_test_vectors.md L2.5, L2.6) -/

theorem test_stReadRegs_VS2_VS3 :
    puts (exec (.stReadRegs 102 0) State.reset) = some [.regs []] ∧
    puts (exec (.stReadRegs 103 0) State.reset) = some [.outOfRange] := by decide

theorem test_stWriteReg_VS4_VS5 :
    ((after (exec (.stWriteReg 101 0x0003) State.reset)).map fun t => (t.hr, t.outputs)) =
      some ([(101, 0x0003)], [.ok]) ∧
    ((after (exec (.stWriteReg 102 1) State.reset)).map fun t => (t.hr, t.outputs)) =
      some ([], [.outOfRange]) := by decide

theorem test_stReadCoils_VS9 :
    puts (exec (.stReadCoils 10 2) State.reset) = some [.outOfRange] ∧
    puts (exec (.stReadCoils 1 3) idle) = some [.coils [true, true, false]] := by decide

theorem test_stWriteCoil_VS7_VS13 :
    ((after (exec (.stWriteCoil 0 true) State.reset)).map State.co) = some [(0, true)] ∧
    ((after (exec (.stWriteCoil 10 true) State.reset)).map fun t => (t.co, t.simReset)) =
      some ([(10, true)], []) := by decide

theorem test_stBatch_VS10_VS11 :
    ((after (exec (.stBatch [.reg 0 0x0001, .reg 200 5]) State.reset)).map fun t =>
      (t.hr, t.outputs)) = some ([], [.outOfRange]) ∧
    ((after (exec (.stBatch [.reg 0 0x0001, .reg 0 0x0002, .coil 1 true]) State.reset)).map fun t =>
      (t.hr, t.co, t.outputs)) = some ([(0, 0x0002)], [(1, true)], [.ok]) := by decide

theorem test_connect_VO2_VO3 :
    ((after (exec (.connect 0) State.reset)).map fun t => t.engines.map Engine.phase) = some [.idle] ∧
    refusal (exec (.connect 0) idle) = some .engineNotClosed := by decide

theorem test_serve_VO4 : refusal (exec (.serve 0 .eof) State.reset) = some .engineNotIdle := by decide

theorem test_reservedOp_VO1 :
    refusal (exec (.reservedOp 0xC) State.reset) = some .reservedOp ∧
    refusal (exec (.reservedOp 0xF) State.reset) = some .reservedOp := by decide

/-! ### Witnesses: inputs that meet the hypotheses of each obligation -/

/-- Any unit is accepted where ACCEPT_UNIT is none. -/
theorem any_unit_accepted (unit : Byte) : ∀ u, idle.cfg.acceptUnit = some u → unit = u :=
  fun _ h => nomatch h

/-- Its own unit is accepted where ACCEPT_UNIT names one. -/
theorem own_unit_accepted : ∀ u, (onlyUnit 0x01 idle).cfg.acceptUnit = some u → 0x01 = u :=
  fun _ h => Option.some.inj h

theorem witness_DecResponseDispatchesByFunctionCode :
    ([] : Frame).length < 8 ∧ ([0, 1, 0, 0, 0, 6, 1] : Frame).length < 8 ∧
    (([0, 1, 0, 1, 0, 2, 1, 3] : Frame) = [0, 1, 0, 1, 0, 2, 1, 3] ++ [] ∧
      ¬((0 : Byte) = 0 ∧ (1 : Byte) = 0) ∧ ¬((1 : Byte) = 0 ∧ (0 : Byte) = 0)) ∧
    ([0, 1, 0, 0, 0, 3, 1, 3] : Frame).length < 6 + (256 * (0 : Byte).toNat + (3 : Byte).toNat) ∧
    ([0, 1, 0, 0, 1, 2, 1, 3] : Frame).length < 6 + (256 * (1 : Byte).toNat + (2 : Byte).toNat) ∧
    6 + (256 * (0 : Byte).toNat + (1 : Byte).toNat) < ([0, 1, 0, 0, 0, 1, 1, 3] : Frame).length ∧
    6 + (256 * (0 : Byte).toNat + (2 : Byte).toNat) = ([0, 3, 0, 0, 0, 2, 1, 0x06] : Frame).length ∧
    6 + (256 * (0 : Byte).toNat + (3 : Byte).toNat) =
      ([0, 5, 0, 0, 0, 3, 1, 0x80, 0x0B] : Frame).length := by decide

theorem witness_RspExceptionReturnsTheCode :
    (0x80 : Byte).getLsbD 7 = true ∧ (0xFF : Byte).getLsbD 7 = true ∧
    1 < ([0x02, 0x00] : List Byte).length := by decide

theorem witness_RspRegistersReturnsTheValues :
    ([] : List Byte).length < (0x01 : Byte).toNat ∧ ([0xAA] : List Byte).length > (0x00 : Byte).toNat ∧
    (([0xAA] : List Byte).length = (0x01 : Byte).toNat ∧ (0x01 : Byte).toNat % 2 = 1) ∧
    (([] : List Byte).length = (0x00 : Byte).toNat ∧ (0x00 : Byte).toNat % 2 = 0) ∧
    ((List.replicate 254 (0 : Byte)).length = (0xFE : Byte).toNat ∧ (0xFE : Byte).toNat % 2 = 0) ∧
    ((0x03 : Byte) = 0x03 ∨ (0x03 : Byte) = 0x04) ∧ ((0x04 : Byte) = 0x03 ∨ (0x04 : Byte) = 0x04) := by
  simp only [List.length_replicate]; decide

theorem witness_RspCoilsReturnsEveryBit :
    ([] : List Byte).length < (0x01 : Byte).toNat ∧ ([0xAA] : List Byte).length > (0x00 : Byte).toNat ∧
    ([] : List Byte).length = (0x00 : Byte).toNat ∧
    (List.replicate 255 (0 : Byte)).length = (0xFF : Byte).toNat ∧
    ((0x01 : Byte) = 0x01 ∨ (0x01 : Byte) = 0x02) ∧ ((0x02 : Byte) = 0x01 ∨ (0x02 : Byte) = 0x02) ∧
    (0 < ([0x05] : List Byte).length ∧ 7 < 8) := by
  simp only [List.length_replicate]; decide

theorem witness_RspWriteAckReturnsTheEcho :
    ([0, 10, 0xFF] : List Byte).length < 4 ∧ ([0, 10, 0xFF, 0, 0] : List Byte).length > 4 := by decide

theorem witness_RspUnsupportedIsATypedError :
    (0x00 : Byte).toNat = 0 ∧ (6 ≤ (0x06 : Byte).toNat ∧ (0x06 : Byte).toNat ≤ 0x7F) ∧
    (6 ≤ (0x7F : Byte).toNat ∧ (0x7F : Byte).toNat ≤ 0x7F) := by decide

theorem witness_DecRequestDecodesByFunctionCode :
    checkHeader [0, 1, 0, 1, 0, 5, 1, 3] = .error .badProtocolId ∧
    checkHeader [0, 1, 0, 0, 0, 7, 1, 3] = .error .truncated ∧
    checkHeader [0, 1, 0, 0, 0, 0, 1, 3] = .error .lengthMismatch ∧
    checkHeader [0, 1, 0, 0, 0, 6, 1, 0x01, 0, 0, 0, 2] = .ok ⟨1, 1, 0x01, [0, 0, 0, 2]⟩ ∧
    checkHeader [0, 1, 0, 0, 0, 6, 1, 0x04, 0, 0, 0, 2] = .ok ⟨1, 1, 0x04, [0, 0, 0, 2]⟩ ∧
    checkHeader [0, 1, 0, 0, 0, 6, 1, 0x05, 0, 0, 0, 2] = .ok ⟨1, 1, 0x05, [0, 0, 0, 2]⟩ ∧
    checkHeader [0, 1, 0, 0, 0, 5, 1, 0x01, 0, 0, 0] = .ok ⟨1, 1, 0x01, [0, 0, 0]⟩ ∧
    checkHeader [0, 1, 0, 0, 0, 7, 1, 0x05, 0, 0, 0, 0, 0] = .ok ⟨1, 1, 0x05, [0, 0, 0, 0, 0]⟩ ∧
    checkHeader [0, 1, 0, 0, 0, 2, 1, 0x00] = .ok ⟨1, 1, 0x00, []⟩ ∧
    checkHeader [0, 1, 0, 0, 0, 2, 1, 0x06] = .ok ⟨1, 1, 0x06, []⟩ ∧
    checkHeader [0, 1, 0, 0, 0, 2, 1, 0xFF] = .ok ⟨1, 1, 0xFF, []⟩ := by decide

theorem witness_EncResponsePutsOutItsFrame :
    2 * (List.replicate 127 (0 : Half)).length ≤ 255 ∧ 255 < 2 * (List.replicate 128 (0 : Half)).length ∧
    ((List.replicate 2040 true).length + 7) / 8 ≤ 255 ∧
    255 < ((List.replicate 2041 true).length + 7) / 8 := by
  simp only [List.length_replicate]; decide

theorem witness_CodecReadsAndWritesNoState :
    Instr.isCodec (.rspCoils 6 1 0x01 [1, 5]) = true ∧ Instr.isCodec (.encReadReq 1 1 3 0 2) = true ∧
    Instr.isCodec (.encResponse (.regs 1 1 3 (List.replicate 128 0))) = true := by decide

theorem witness_DecodeOfEncodeIsTheInstruction :
    (Instr.readCoils 0 1 1 (.malformed [0, 0, 0])).wellFormed = true ∧
    (Instr.writeSingleCoil 0 1 1 (.fields 10 0xFF00)).wellFormed = true ∧
    (Instr.illegalFunction 0 1 1 0x06 []).wellFormed = true ∧
    (Instr.rspException 5 1 0x80 [0x0B]).wellFormed = true ∧
    (Instr.rspUnsupported 5 1 0x7F []).wellFormed = true ∧
    (Instr.reservedOp 0xC).wellFormed = true ∧ (Instr.serve 0 .eof).wellFormed = true := by decide

theorem witness_DecodeOfEncodeIsTheInstruction_longest (data : List Byte) (h : data.length = 65533) :
    (Instr.rspCoils 6 1 0x01 data).wellFormed = true ∧
    (Instr.illegalFunction 0 1 1 0x10 data).wellFormed = true := by
  simp [Instr.wellFormed, fitsLength, supportedFc, h]

theorem witness_EncodeOfDecodeIsTheWire :
    decode (.request 0 [0, 5, 0, 0, 0, 2, 1, 0x10]) = .ok (.illegalFunction 0 5 1 0x10 []) ∧
    decode (.response [0, 5, 0, 0, 0, 3, 1, 0x83, 2]) = .ok (.rspException 5 1 0x83 [2]) ∧
    decode (.command 0xA [.writes []]) = .ok (.stBatch []) ∧
    decode (.command 0xC [.eof]) = .ok (.reservedOp 0xC) := by decide

theorem witness_RequestsRoundTrip :
    (1 ≤ (0x01 : Byte).toNat ∧ (0x01 : Byte).toNat ≤ 4) ∧
    (1 ≤ (0x04 : Byte).toNat ∧ (0x04 : Byte).toNat ≤ 4) ∧
    (0x00 : Byte).toNat = 0 ∧ 6 ≤ (0x06 : Byte).toNat ∧ 6 ≤ (0xFF : Byte).toNat := by decide

theorem witness_ResponsesRoundTrip :
    encodeResponse (.regs 1 1 0x03 []) = some [0, 1, 0, 0, 0, 3, 1, 0x03, 0] ∧
    encodeResponse (.regs 1 1 0x04 [0x1234]) = some [0, 1, 0, 0, 0, 5, 1, 0x04, 2, 0x12, 0x34] ∧
    encodeResponse (.coils 1 1 0x01 []) = some [0, 1, 0, 0, 0, 3, 1, 0x01, 0] ∧
    encodeResponse (.coils 1 1 0x02 [false, true, false, true, false, true, false, true, true, true]) =
      some [0, 1, 0, 0, 0, 5, 1, 0x02, 2, 0xAA, 0x03] ∧
    encodeResponse (.ack 2 1 10 0xFF00) = some [0, 2, 0, 0, 0, 6, 1, 0x05, 0, 10, 0xFF, 0] ∧
    encodeResponse (.exc 4 1 0x86 0x01) = some [0, 4, 0, 0, 0, 3, 1, 0x86, 0x01] := by decide

theorem witness_CoilsPackLeastSignificantBitFirst :
    (1 < ((List.replicate 9 true).length + 7) / 8 ∧ 7 < 8) ∧
    (0 < ([0x80] : List Byte).length ∧ 0 < 8) := by decide

/-- An engine that has received a frame, where every unit is accepted and where one is. -/
theorem witness_ReadRequestsAreValidated :
    let s := stock (received [0, 1, 0, 0, 0, 6, 1, 3, 0, 0, 0, 1])
    (s.engine? 0 = some (received [0, 1, 0, 0, 0, 6, 1, 3, 0, 0, 0, 1]) ∧
      (received [0, 1, 0, 0, 0, 6, 1, 3, 0, 0, 0, 1]).phase = .received ∧
      ∀ u, s.cfg.acceptUnit = some u → (0x07 : Byte) = u) ∧
    (((onlyUnit 0x01 s).engine? 0).map Engine.phase = some .received ∧
      ∀ u, (onlyUnit 0x01 s).cfg.acceptUnit = some u → (0x01 : Byte) = u) :=
  ⟨⟨by decide, by decide, any_unit_accepted 0x07⟩, by decide, own_unit_accepted⟩

theorem witness_ReadRequestsAreValidated_boundaries :
    validateRead 102 125 0 0 = some 0x03 ∧ validateRead 102 125 101 1 = none ∧
    validateRead 102 125 102 1 = some 0x02 ∧ validateRead 102 125 0 125 = some 0x02 ∧
    validateRead 102 125 0 126 = some 0x03 ∧ validateRead 102 125 0xFFFF 1 = some 0x02 ∧
    validateRead 65536 125 0xFFFF 1 = none ∧ validateRead 65536 125 0 125 = none ∧
    validateRead 11 2000 0 11 = none ∧ validateRead 11 2000 0 12 = some 0x02 ∧
    validateRead 65536 2000 0 2000 = none ∧ validateRead 65536 2000 0 2001 = some 0x03 := by decide

theorem witness_CoilWriteRequestsAreValidated :
    let s := stock (received [0, 1, 0, 0, 0, 6, 1, 5, 0, 3, 0, 0])
    ((s.engine? 0).map Engine.phase = some .received ∧
      ∀ u, s.cfg.acceptUnit = some u → (0x07 : Byte) = u) ∧
    (((onlyUnit 0x01 s).engine? 0).map Engine.phase = some .received ∧
      ∀ u, (onlyUnit 0x01 s).cfg.acceptUnit = some u → (0x01 : Byte) = u) :=
  ⟨⟨by decide, any_unit_accepted 0x07⟩, by decide, own_unit_accepted⟩

theorem witness_CoilWriteRequestsAreValidated_boundaries :
    validateWriteCoil Config.reference 10 0xFF00 = none ∧
    validateWriteCoil Config.reference 10 0x0000 = none ∧
    validateWriteCoil Config.reference 10 0xFF01 = some 0x03 ∧
    validateWriteCoil Config.reference 11 0xFF00 = some 0x02 ∧
    validateWriteCoil Config.reference 2 0xFF00 = some 0x02 ∧
    validateWriteCoil Config.reference 3 0xFF00 = none ∧
    validateWriteCoil { Config.reference with roCoilWrite := .accept } 2 0xFF00 = none := by decide

theorem witness_MalformedRequestsTakeIllegalDataValue :
    let s := stock (received [0, 1, 0, 0, 0, 2, 1, 3])
    (s.engine? 0 = some (received [0, 1, 0, 0, 0, 2, 1, 3]) ∧
      (received [0, 1, 0, 0, 0, 2, 1, 3]).phase = .received ∧
      ∀ u, s.cfg.acceptUnit = some u → (0x01 : Byte) = u) ∧
    ([0, 0, 0] : List Byte).length ≠ 4 ∧ ([0, 0, 0, 0, 0] : List Byte).length ≠ 4 :=
  ⟨⟨by decide, by decide, any_unit_accepted 0x01⟩, by decide, by decide⟩

theorem witness_IllegalFunctionTakesException :
    let f : Frame := [0, 1, 0, 0, 0, 2, 1, 0x06]
    ((stock (received f)).engine? 0 = some (received f) ∧ (received f).phase = .received) ∧
    (idle.engine? 0 = some (inPhase .idle) ∧ (inPhase .idle).phase = .idle ∧
      checkHeader f = .ok ⟨1, 1, 0x06, []⟩) ∧
    ((0x00 : Byte).toNat = 0 ∧ 6 ≤ (0x06 : Byte).toNat ∧ 6 ≤ (0xFF : Byte).toNat) ∧
    (∀ u, idle.cfg.acceptUnit = some u → (0x01 : Byte) = u) :=
  ⟨by decide, by decide, by decide, any_unit_accepted 0x01⟩

theorem witness_ForeignUnitsAreDropped :
    let s := onlyUnit 0x01 (stock (received [0, 1, 0, 0, 0, 6, 2, 3, 0, 0, 0, 1]))
    s.engine? 0 = some (received [0, 1, 0, 0, 0, 6, 2, 3, 0, 0, 0, 1]) ∧
    (received [0, 1, 0, 0, 0, 6, 2, 3, 0, 0, 0, 1]).phase = .received ∧
    s.cfg.acceptUnit = some 0x01 ∧ (Header.mk 1 0x02 0x03 [0, 0, 0, 1]).unit ≠ 0x01 := by decide

theorem witness_FramingErrorsClose :
    let s (f : Frame) := withMoves [.advance 0] (stock (received f))
    configOk (s []).cfg = true ∧ (s []).agenda = .advance 0 :: [] ∧
    (s []).engine? 0 = some (received []) ∧ (received []).phase = .received ∧
    checkHeader (received []).rx = .error .truncated ∧
    checkHeader (received [0, 1, 0, 1, 0, 5, 1, 3]).rx = .error .badProtocolId ∧
    checkHeader (received [0, 1, 0, 0, 0, 0, 1, 3]).rx = .error .lengthMismatch := by decide

theorem witness_CoilReadsExecute :
    let e (fc : Byte) (a q : Half) := validated fc .read a q none
    (stock (e 0x01 0 11)).engine? 0 = some (e 0x01 0 11) ∧ (e 0x01 0 11).phase = .validated ∧
    (e 0x01 0 11).exc = none ∧ (e 0x01 0 11).kind = .read ∧ (e 0x01 0 11).fc = 0x01 ∧
    (e 0x01 0 11).a.toNat + (e 0x01 0 11).q.toNat ≤ (stock (e 0x01 0 11)).cfg.coilSize ∧
    (stock (e 0x02 10 1)).engine? 0 = some (e 0x02 10 1) ∧ (e 0x02 10 1).fc = 0x02 ∧
    (e 0x02 10 1).a.toNat + (e 0x02 10 1).q.toNat ≤ (stock (e 0x02 10 1)).cfg.coilSize := by decide

theorem witness_RegisterReadsExecute :
    let e (fc : Byte) (a q : Half) := validated fc .read a q none
    (stock (e 0x03 0 102)).engine? 0 = some (e 0x03 0 102) ∧ (e 0x03 0 102).phase = .validated ∧
    (e 0x03 0 102).exc = none ∧ (e 0x03 0 102).kind = .read ∧ (e 0x03 0 102).fc = 0x03 ∧
    (e 0x03 0 102).a.toNat + (e 0x03 0 102).q.toNat ≤ (stock (e 0x03 0 102)).cfg.hrSize ∧
    (stock (e 0x04 101 1)).engine? 0 = some (e 0x04 101 1) ∧ (e 0x04 101 1).fc = 0x04 ∧
    (e 0x04 101 1).a.toNat + (e 0x04 101 1).q.toNat ≤ (stock (e 0x04 101 1)).cfg.hrSize := by decide

theorem witness_CoilWritesExecute :
    let e (a q : Half) := validated 0x05 .writeCoil a q none
    storeOk (stock (e 10 0xFF00)) = true ∧ (stock (e 10 0xFF00)).engine? 0 = some (e 10 0xFF00) ∧
    (e 10 0xFF00).phase = .validated ∧ (e 10 0xFF00).exc = none ∧ (e 10 0xFF00).kind = .writeCoil ∧
    (e 10 0xFF00).fc = 0x05 ∧ (e 10 0xFF00).a.toNat < (stock (e 10 0xFF00)).cfg.coilSize ∧
    ((e 10 0xFF00).a.toNat = 10 ∧ (e 10 0xFF00).q = 0xFF00) ∧
    ((e 10 0x0000).a.toNat = 10 ∧ (e 10 0x0000).q ≠ 0xFF00) ∧
    ((e 9 0xFF00).a.toNat ≠ 10 ∧ (e 9 0xFF00).a.toNat < (stock (e 9 0xFF00)).cfg.coilSize) := by decide

theorem witness_ExceptionsAreResponded :
    let e := validated 0x03 .read 101 2 (some 0x02)
    (stock e).engine? 0 = some e ∧ e.phase = .validated ∧ e.exc = some 0x02 := by decide

theorem witness_SuccessesAreResponded :
    let r := executed 0x03 .read 100 2 (.regs [1, 3])
    let c := executed 0x01 .read 0 3 (.coils [true, true, true])
    let w := executed 0x05 .writeCoil 3 0xFF00 .ack
    ((stock r).engine? 0 = some r ∧ r.phase = .executed ∧ r.exc = none ∧ r.kind = .read ∧
      (r.fc = 0x03 ∨ r.fc = 0x04) ∧ r.res = .regs [1, 3] ∧ 2 * ([1, 3] : List Half).length ≤ 255) ∧
    ((stock c).engine? 0 = some c ∧ c.phase = .executed ∧ c.exc = none ∧ c.kind = .read ∧
      (c.fc = 0x01 ∨ c.fc = 0x02) ∧ c.res = .coils [true, true, true] ∧ (3 + 7) / 8 ≤ 255) ∧
    ((stock w).engine? 0 = some w ∧ w.phase = .executed ∧ w.exc = none ∧ w.kind = .writeCoil ∧
      w.fc = 0x05 ∧ w.res = .ack) := by decide

theorem witness_ServeAnswersRegisterReads :
    (idle.engine? 0 = some (inPhase .idle) ∧ (inPhase .idle).phase = .idle) ∧
    (∀ u, idle.cfg.acceptUnit = some u → (0x01 : Byte) = u) ∧
    (1 ≤ (1 : Half).toNat ∧ (1 : Half).toNat ≤ 125 ∧
      (101 : Half).toNat + (1 : Half).toNat ≤ idle.cfg.hrSize) ∧
    (1 ≤ (102 : Half).toNat ∧ (102 : Half).toNat ≤ 125 ∧
      (0 : Half).toNat + (102 : Half).toNat ≤ idle.cfg.hrSize) ∧
    ((125 : Half).toNat ≤ 125 ∧ (0 : Half).toNat + (125 : Half).toNat ≤ 65536) :=
  ⟨by decide, any_unit_accepted 0x01, by decide, by decide, by decide⟩

theorem witness_ServeAnswersCoilReads :
    (idle.engine? 0 = some (inPhase .idle) ∧ (inPhase .idle).phase = .idle) ∧
    (∀ u, (onlyUnit 0x01 idle).cfg.acceptUnit = some u → (0x01 : Byte) = u) ∧
    (1 ≤ (1 : Half).toNat ∧ (1 : Half).toNat ≤ 2000 ∧
      (10 : Half).toNat + (1 : Half).toNat ≤ idle.cfg.coilSize) ∧
    (1 ≤ (11 : Half).toNat ∧ (11 : Half).toNat ≤ 2000 ∧
      (0 : Half).toNat + (11 : Half).toNat ≤ idle.cfg.coilSize) ∧
    ((2000 : Half).toNat ≤ 2000 ∧ (0 : Half).toNat + (2000 : Half).toNat ≤ 65536) :=
  ⟨by decide, own_unit_accepted, by decide, by decide, by decide⟩

theorem witness_ServeAnswersCoilWrites :
    storeOk idle = true ∧ (idle.engine? 0 = some (inPhase .idle) ∧ (inPhase .idle).phase = .idle) ∧
    (∀ u, idle.cfg.acceptUnit = some u → (0x01 : Byte) = u) ∧
    ((10 : Half).toNat < idle.cfg.coilSize ∧ ((10 : Half).toNat < 3 → idle.cfg.roCoilWrite = .accept)) ∧
    ((3 : Half).toNat < idle.cfg.coilSize ∧ ((3 : Half).toNat < 3 → idle.cfg.roCoilWrite = .accept)) :=
  ⟨by decide, by decide, any_unit_accepted 0x01, by decide, by decide⟩

/-- The idle state where RO_COIL_WRITE is accept (vector VD39). -/
def acceptingRo : State := { idle with cfg := { Config.reference with roCoilWrite := .accept } }

theorem any_unit_accepted_ro (unit : Byte) : ∀ u, acceptingRo.cfg.acceptUnit = some u → unit = u :=
  fun _ h => nomatch h

/-- Coils 0 to 2 where RO_COIL_WRITE is accept. -/
theorem witness_ServeAnswersCoilWrites_accept :
    (storeOk acceptingRo = true ∧ acceptingRo.engine? 0 = some (inPhase .idle) ∧
      (inPhase .idle).phase = .idle) ∧
    (∀ u, acceptingRo.cfg.acceptUnit = some u → (0x01 : Byte) = u) ∧
    ((0 : Half).toNat < acceptingRo.cfg.coilSize ∧
      ((0 : Half).toNat < 3 → acceptingRo.cfg.roCoilWrite = .accept)) ∧
    ((2 : Half).toNat < acceptingRo.cfg.coilSize ∧
      ((2 : Half).toNat < 3 → acceptingRo.cfg.roCoilWrite = .accept)) :=
  ⟨by decide, any_unit_accepted_ro 0x01, by decide, by decide⟩

theorem witness_ServeAnswersExceptions :
    (idle.engine? 0 = some (inPhase .idle) ∧ (inPhase .idle).phase = .idle) ∧
    checkHeader [0, 0x11, 0, 0, 0, 6, 1, 3, 0, 0x65, 0, 2] = .ok ⟨0x11, 1, 3, [0, 0x65, 0, 2]⟩ ∧
    validateRequest idle.cfg (decodedRequest ⟨0x11, 1, 3, [0, 0x65, 0, 2]⟩) = some 0x02 ∧
    validateRequest idle.cfg (decodedRequest ⟨0x13, 1, 3, [0, 0, 0, 0]⟩) = some 0x03 ∧
    validateRequest idle.cfg (decodedRequest ⟨0x1F, 1, 0, []⟩) = some 0x01 ∧
    (∀ u, idle.cfg.acceptUnit = some u → (0x01 : Byte) = u) :=
  ⟨by decide, by decide, by decide, by decide, by decide, any_unit_accepted 0x01⟩

theorem witness_ExceptionCodesByFunctionCode :
    (∃ t, exec (.serve 0 (.frame [0, 0x11, 0, 0, 0, 6, 1, 3, 0, 0x65, 0, 2])) idle = .next t ∧
      t.outputs = idle.outputs ++ [.tx 0 [0, 0x11, 0, 0, 0, 3, 1, 0x83, 2]]) ∧
    checkHeader [0, 0x11, 0, 0, 0, 6, 1, 3, 0, 0x65, 0, 2] = .ok ⟨0x11, 1, 3, [0, 0x65, 0, 2]⟩ ∧
    decodeResponse [0, 0x11, 0, 0, 0, 3, 1, 0x83, 2] = .ok ⟨0x11, 1, 0x83, .exception 2⟩ ∧
    (∃ t, exec (.serve 0 (.frame [0, 0x1F, 0, 0, 0, 2, 1, 0])) idle = .next t ∧
      t.outputs = idle.outputs ++ [.tx 0 [0, 0x1F, 0, 0, 0, 3, 1, 0x80, 1]]) ∧
    checkHeader [0, 0x1F, 0, 0, 0, 2, 1, 0] = .ok ⟨0x1F, 1, 0, []⟩ ∧
    decodeResponse [0, 0x1F, 0, 0, 0, 3, 1, 0x80, 1] = .ok ⟨0x1F, 1, 0x80, .exception 1⟩ :=
  ⟨⟨_, rfl, by decide⟩, by decide, by decide, ⟨_, rfl, by decide⟩, by decide, by decide⟩

theorem witness_ServeClosesAndDrops :
    idle.engine? 0 = some (inPhase .idle) ∧ (inPhase .idle).phase = .idle ∧
    checkHeader [0, 0x2C, 0, 0, 0, 6, 1] = .error .truncated ∧
    checkHeader [0, 0x2B, 0, 1, 0, 6, 1, 3, 0, 0, 0, 2] = .error .badProtocolId ∧
    checkHeader [0, 0x2E, 0, 0, 0, 5, 1, 3, 0, 0, 0, 2] = .error .lengthMismatch ∧
    (onlyUnit 0x01 idle).engine? 0 = some (inPhase .idle) ∧
    checkHeader [0, 1, 0, 0, 0, 6, 2, 3, 0, 0, 0, 1] = .ok ⟨1, 2, 3, [0, 0, 0, 1]⟩ ∧
    (onlyUnit 0x01 idle).cfg.acceptUnit = some 0x01 ∧ (2 : Byte) ≠ 0x01 := by decide

theorem witness_ServeIsTheRunOfItsSteps :
    let ms : List Move := [.offer 0 .eof, .advance 0, .advance 0, .advance 0]
    configOk (withMoves ms idle).cfg = true ∧
    (withMoves ms idle).agenda = .offer 0 .eof :: .advance 0 :: .advance 0 :: .advance 0 :: [] := by
  decide

theorem witness_ServeCompletesFromLegalStates :
    stateOk idle = true ∧ idle.engine? 0 = some (inPhase .idle) ∧ (inPhase .idle).phase = .idle := by
  decide

theorem witness_PairsGoLowWordFirst :
    (idle.engine? 0 = some (inPhase .idle) ∧ (inPhase .idle).phase = .idle) ∧
    (∀ u, idle.cfg.acceptUnit = some u → (0x01 : Byte) = u) ∧
    ((0 : Half).toNat + 2 ≤ idle.cfg.hrSize ∧ (100 : Half).toNat + 2 ≤ idle.cfg.hrSize) ∧
    (0x0001E240 : Double) =
      (idle.readReg (0 + 1)).setWidth 32 <<< 16 ||| (idle.readReg 0).setWidth 32 ∧
    ((0x03 : Byte) = 0x03 ∨ (0x03 : Byte) = 0x04) :=
  ⟨by decide, any_unit_accepted 0x01, by decide, by decide, by decide⟩

theorem witness_ConnectOpensAClosedEngine :
    State.reset.engine? 0 = some Engine.reset ∧ Engine.reset.phase = .closed ∧
    idle.engine? 0 = some (inPhase .idle) ∧ (inPhase .idle).phase ≠ .closed := by decide

theorem witness_OpRefusedIsARefusal :
    (12 ≤ (0xC : BitVec 4).toNat ∧ 12 ≤ (0xF : BitVec 4).toNat) ∧
    encodeResponse (.regs 1 1 3 (List.replicate 128 0)) = none ∧
    encodeResponse (.coils 1 1 1 (List.replicate 2041 false)) = none ∧
    (State.reset.engine? 0 = some Engine.reset ∧ Engine.reset.phase ≠ .idle) ∧
    (idle.engine? 0 = some (inPhase .idle) ∧ (inPhase .idle).phase ≠ .closed) :=
  ⟨by decide, by simp only [encodeResponse, regsPdu, List.length_replicate]; rfl,
    by simp only [encodeResponse, coilsPdu, byteCount, List.length_replicate]; rfl, by decide, by decide⟩

theorem witness_HostMovesReceiveAndDeliver :
    configOk idle.cfg = true ∧
    (idle.engine? 0 = some (inPhase .idle) ∧ (inPhase .idle).phase = .idle) ∧
    (withMoves [.offer 0 (.frame [1])] idle).agenda = .offer 0 (.frame [1]) :: [] ∧
    (withMoves [.offer 0 .eof] idle).agenda = .offer 0 .eof :: [] ∧
    ((stock (inPhase .responded)).engine? 0 = some (inPhase .responded) ∧
      (inPhase .responded).phase = .responded) ∧
    (withMoves [.take 0] (stock (inPhase .responded))).agenda = .take 0 :: [] ∧
    ((withMoves [.offer 0 .eof] (stock (inPhase .responded))).agenda = .offer 0 .eof :: [] ∧
      (inPhase .responded).phase ≠ .idle) ∧
    ((withMoves [.take 0] idle).agenda = .take 0 :: [] ∧ (inPhase .idle).phase ≠ .responded) := by decide

/-- A step that moves the phase of engine 0, by each agent that can. -/
theorem witness_HostMovesReceiveAndDeliver_steps :
    (∃ t, step (withMoves [.advance 0] (stock (validated 0x03 .read 100 2 none))) = .next t) ∧
    (∃ t, step (withMoves [.command 0xB [.engine 0]] State.reset) = .next t) ∧
    (∃ t, step (withMoves [.command 0x5 [.engine 0, .eof]] idle) = .next t) :=
  ⟨⟨_, rfl⟩, ⟨_, rfl⟩, ⟨_, rfl⟩⟩

theorem witness_StWriteRegWritesItsCell :
    storeOk idle = true ∧ (101 : Half).toNat < idle.cfg.hrSize ∧
    idle.cfg.hrSize ≤ (102 : Half).toNat := by decide

theorem witness_StWriteCoilWritesItsCell :
    storeOk idle = true ∧ (10 : Half).toNat < idle.cfg.coilSize ∧
    idle.cfg.coilSize ≤ (11 : Half).toNat := by decide

theorem witness_StBatchIsAllOrNothing :
    storeOk idle = true ∧
    (let ws : List StoreWrite := [.reg 101 1, .reg 101 2, .coil 10 true]
     (∀ a v, StoreWrite.reg a v ∈ ws → a.toNat < idle.cfg.hrSize) ∧
     (∀ a b, StoreWrite.coil a b ∈ ws → a.toNat < idle.cfg.coilSize) ∧
     (∀ v, StoreWrite.reg 100 v ∉ ws) ∧ (∀ b, StoreWrite.coil 1 b ∉ ws) ∧
     ws = [.reg 101 1] ++ .reg 101 2 :: [.coil 10 true] ∧ (∀ w, StoreWrite.reg 101 w ∉ [.coil 10 true]) ∧
     ws = [.reg 101 1, .reg 101 2] ++ .coil 10 true :: []) ∧
    (¬ ∀ a v, StoreWrite.reg a v ∈ ([.reg 102 5] : List StoreWrite) → a.toNat < idle.cfg.hrSize) := by
  refine ⟨by decide, ?_, ?_⟩
  · simp only [idle, stock, State.reset, State.boot, Config.reference]
    refine ⟨?_, by simp, by simp, by simp, rfl, by simp, rfl⟩
    intro a v h
    simp only [List.mem_cons, StoreWrite.reg.injEq, reduceCtorEq, List.not_mem_nil, or_false] at h
    rcases h with ⟨rfl, _⟩ | ⟨rfl, _⟩ <;> decide
  · intro h
    exact absurd (h 102 5 (by simp)) (by decide)

theorem witness_TicksAreNeverTorn :
    let e (fc : Byte) (a q : Half) := validated fc .read a q none
    let tick (b : Half) : List StoreWrite := [.coil 0 true] ++ pairWrites b 131072 ++ [.reg 16 5]
    (storeOk (stock (e 0x03 0 2)) = true ∧ (stock (e 0x03 0 2)).engine? 0 = some (e 0x03 0 2) ∧
      (e 0x03 0 2).phase = .validated ∧ (e 0x03 0 2).exc = none ∧ (e 0x03 0 2).kind = .read ∧
      (e 0x03 0 2).fc = 0x03 ∧ (0 : Half).toNat ≤ (0 : Half).toNat ∧
      (0 : Half).toNat + 2 ≤ (0 : Half).toNat + (2 : Half).toNat) ∧
    ((stock (e 0x04 0 102)).engine? 0 = some (e 0x04 0 102) ∧ (e 0x04 0 102).fc = 0x04 ∧
      (0 : Half).toNat ≤ (100 : Half).toNat ∧ (100 : Half).toNat + 2 ≤ (0 : Half).toNat + (102 : Half).toNat ∧
      (0 : Half).toNat + (102 : Half).toNat ≤ idle.cfg.hrSize ∧ (100 : Half).toNat + 1 < 65536) ∧
    (tick 0).all (StoreWrite.inStore idle.cfg) = true ∧ (tick 100).all (StoreWrite.inStore idle.cfg) = true := by
  decide

theorem witness_TicksAreNeverTorn_last_write (w : Half) :
    StoreWrite.reg 0 w ∉ [StoreWrite.reg 16 5] ∧ StoreWrite.reg (0 + 1) w ∉ [StoreWrite.reg 16 5] := by
  simp

/-- Steps of a dutiful simulation that change a pair: a tick of the pair at 2, and the reset of the pair
at 0. -/
theorem witness_TicksAreNeverTorn_dutiful :
    (let s := withMoves [.command 0xA [.writes (pairWrites 2 12345)]] idle
     storeOk s = true ∧ s.keepsDuties = true ∧
       ∃ t, step s = .next t ∧ t.readReg (2 : Half).toNat ≠ s.readReg (2 : Half).toNat) ∧
    (let s := withMoves [.advance 0] (stock (validated 0x05 .writeCoil 10 0xFF00 none))
     storeOk s = true ∧ s.keepsDuties = true ∧
       ∃ t, step s = .next t ∧ t.readReg ((0 : Half).toNat + 1) ≠ s.readReg ((0 : Half).toNat + 1)) :=
  ⟨⟨by decide, by decide, _, rfl, by decide⟩, by decide, by decide, _, rfl, by decide⟩

theorem witness_ResetGivesTheStatedValues :
    configOk Config.reference = true ∧ 0 < Config.reference.nConn := by decide

/-- The largest stores of R283 are within its bounds. -/
theorem witness_ResetIsLegal :
    configOk Config.reference = true ∧
    configOk { Config.reference with hrSize := 65536, coilSize := 65536, nConn := 2,
                                     initHr := [(65535, 7)], initCo := [(0, true)] } = true ∧
    ([.command 0xA [.writes (pairWrites 0 7)], .command 0x7 [.half 10, .half 1],
      .command 0xB [.engine 0]] : List Move).all Move.keepsDuties = true := by decide

/-- Legal states in every phase, each with a step that answers a next state. -/
theorem witness_EveryStepKeepsLegalStates :
    stateOk (withMoves [.command 0xB [.engine 0]] State.reset) = true ∧
    (∃ t, step (withMoves [.command 0xB [.engine 0]] State.reset) = .next t) ∧
    stateOk (withMoves [.command 0x7 [.half 101, .half 3]] idle) = true ∧
    stateOk (stock (received [0, 1, 0, 0, 0, 2, 1, 3])) = true ∧
    stateOk (stock (validated 0x03 .read 100 2 none)) = true ∧
    stateOk (stock (validated 0x03 .read 101 2 (some 0x02))) = true ∧
    stateOk (stock (executed 0x03 .read 100 2 (.regs [1, 3]))) = true ∧
    stateOk (stock { executed 0x05 .writeCoil 3 0xFF00 .ack with
      phase := .responded, tx := [0, 0x10, 0, 0, 0, 6, 1, 5, 0, 3, 0xFF, 0] }) = true :=
  ⟨by decide, ⟨_, rfl⟩, by decide, by decide, by decide, by decide, by decide, by decide⟩

theorem witness_LegalStatesNeverFault :
    stateOk (withMoves [.advance 0] (stock (validated 0x03 .read 100 2 none))) = true := by decide

theorem witness_StepRunsTheDecodedInstruction :
    let f : Frame := [0, 0x10, 0, 0, 0, 6, 1, 3, 0, 100, 0, 2]
    configOk idle.cfg = true ∧
    ((withMoves [.command 0xC []] idle).agenda = .command 0xC [] :: [] ∧
      decode (.command 0xC []) = .ok (.reservedOp 0xC)) ∧
    ((withMoves [.response [0, 1, 0, 0, 0, 2, 1, 6]] idle).agenda =
        .response [0, 1, 0, 0, 0, 2, 1, 6] :: [] ∧
      decode (.response [0, 1, 0, 0, 0, 2, 1, 6]) = .ok (.rspUnsupported 1 1 6 [])) ∧
    ((withMoves [.advance 0] (stock (received f))).agenda = .advance 0 :: [] ∧
      (withMoves [.advance 0] (stock (received f))).engine? 0 = some (received f) ∧
      (received f).phase = .received ∧
      decode (.request 0 (received f).rx) = .ok (.readHoldingRegisters 0 0x10 1 (.fields 100 2))) := by
  decide

theorem witness_StepRunsTheDecodedInstruction_latched :
    let v := validated 0x03 .read 100 2 none
    let x := executed 0x05 .writeCoil 3 0xFF00 .ack
    let u := { validated 0x10 .unknown 0 0 (some 0x01) with rx := [0, 5, 0, 0, 0, 3, 1, 0x10, 7] }
    let m := validated 0x03 .malformed 0 0 (some 0x03)
    ((withMoves [.advance 0] (stock v)).agenda = .advance 0 :: [] ∧ (stock v).engine? 0 = some v ∧
      v.phase = .validated ∧ v.kind = .read ∧ ([0, 100, 0, 2] : List Byte) = u16be v.a ++ u16be v.q) ∧
    ((stock x).engine? 0 = some x ∧ x.phase = .executed ∧ x.kind = .writeCoil ∧
      ([0, 3, 0xFF, 0] : List Byte) = u16be x.a ++ u16be x.q) ∧
    (u.phase = .validated ∧ u.kind = .unknown ∧ ([7] : List Byte) = u.rx.drop 8) ∧
    (m.phase = .validated ∧ m.kind = .malformed ∧ ([] : List Byte) = m.rx.drop 8) := by decide

theorem witness_WaitingBlockDoesNothing :
    configOk State.reset.cfg = true ∧ State.reset.agenda = [] ∧
    (withMoves [.advance 0] State.reset).agenda = .advance 0 :: [] ∧
    State.reset.engine? 0 = some Engine.reset ∧ Engine.reset.phase = .closed ∧
    idle.engine? 0 = some (inPhase .idle) ∧ (inPhase .idle).phase = .idle ∧
    (stock (inPhase .responded)).engine? 0 = some (inPhase .responded) ∧
    (inPhase .responded).phase = .responded := by decide

theorem witness_BadConfigurationsAreRefused :
    let s (c : Config) : State := { State.reset with cfg := c }
    (s { Config.reference with hrSize := 101 }).cfg.hrSize < 102 ∧
    65536 < (s { Config.reference with hrSize := 65537 }).cfg.hrSize ∧
    (s { Config.reference with coilSize := 10 }).cfg.coilSize < 11 ∧
    65536 < (s { Config.reference with coilSize := 65537 }).cfg.coilSize ∧
    (s { Config.reference with nConn := 0 }).cfg.nConn < 1 := by decide

theorem witness_ConfigurationIsFixed : ∃ t, step (withMoves [.command 0xB [.engine 0]] State.reset) = .next t :=
  ⟨_, rfl⟩

/-- Steps that change the store: the three of the simulation port, an engine's own Execute and SERVE. -/
theorem witness_StoreChangesHaveTheirWriter :
    (∃ t, step (withMoves [.command 0x7 [.half 101, .half 3]] State.reset) = .next t ∧
      t.readReg 101 ≠ State.reset.readReg 101) ∧
    (∃ t, step (withMoves [.command 0x9 [.half 0, .bool true]] State.reset) = .next t ∧
      t.readCoil 0 ≠ State.reset.readCoil 0) ∧
    (∃ t, step (withMoves [.command 0xA [.writes [.reg 0 1]]] State.reset) = .next t ∧
      t.readReg 0 ≠ State.reset.readReg 0) ∧
    (∃ t, step (withMoves [.advance 0] (stock (validated 0x05 .writeCoil 10 0xFF00 none))) = .next t ∧
      t.readReg 0 ≠ idle.readReg 0) ∧
    (∃ t, step (withMoves
        [.command 0x5 [.engine 0, .frame [0, 0x25, 0, 0, 0, 6, 1, 5, 0, 3, 0xFF, 0]]] idle) = .next t ∧
      t.readCoil 3 ≠ idle.readCoil 3) :=
  ⟨⟨_, rfl, by decide⟩, ⟨_, rfl, by decide⟩, ⟨_, rfl, by decide⟩, ⟨_, rfl, by decide⟩,
    ⟨_, rfl, by decide⟩⟩

theorem witness_OnlyTheSimulationSetsTheResetCoil :
    (stateOk (withMoves [.command 0x9 [.half 10, .bool true]] State.reset) = true ∧
      ∃ t, step (withMoves [.command 0x9 [.half 10, .bool true]] State.reset) = .next t ∧
        State.reset.readCoil 10 = false ∧ t.readCoil 10 = true) ∧
    (stateOk (withMoves [.command 0xA [.writes [.coil 10 true]]] State.reset) = true ∧
      ∃ t, step (withMoves [.command 0xA [.writes [.coil 10 true]]] State.reset) = .next t ∧
        t.readCoil 10 = true) :=
  ⟨⟨by decide, _, rfl, by decide, by decide⟩, by decide, _, rfl, by decide⟩

/-- States of the runs that R228 admits, with a tick or a reset to come; a write of coil 10, or of one
word of a pair, makes a state none of them. -/
theorem witness_OnlyTheSimulationSetsTheResetCoil_dutiful :
    (stateDutiful (withMoves [.command 0xA [.writes (pairWrites 0 7)]] idle) = true ∧
      (fetch (withMoves [.command 0xA [.writes (pairWrites 0 7)]] idle) = .instr (.stBatch (pairWrites 0 7))) ∧
      ∃ t, step (withMoves [.command 0xA [.writes (pairWrites 0 7)]] idle) = .next t) ∧
    stateDutiful (withMoves [.advance 0] (stock (validated 0x05 .writeCoil 10 0xFF00 none))) = true ∧
    stateDutiful (withMoves [.command 0x9 [.half 10, .bool true]] State.reset) = false ∧
    stateDutiful (withMoves [.command 0x7 [.half 3, .half 1]] State.reset) = false ∧
    stateDutiful (withMoves [.command 0xA [.writes [.reg 0 1]]] State.reset) = false :=
  ⟨⟨by decide, by decide, _, rfl⟩, by decide, by decide, by decide, by decide⟩

theorem witness_ResetEventsClearTheEnergy :
    stateOk (withMoves [.advance 0] (stock (validated 0x05 .writeCoil 10 0xFF00 none))) = true ∧
    ∃ t, step (withMoves [.advance 0] (stock (validated 0x05 .writeCoil 10 0xFF00 none))) = .next t ∧
      t.simReset = [0] :=
  ⟨by decide, _, rfl, by decide⟩

/-- Program P4's two engines: engine 0 executes while engine 1 waits. -/
theorem witness_EnginesDoNotInterfere :
    let s (e : Engine) (m : Move) : State := { stock e with
      cfg := { Config.reference with nConn := 2 }, engines := [e, inPhase .idle], agenda := [m] }
    (0 : Nat) ≠ 1 ∧
    (∃ t, step (s (validated 0x03 .read 0 2 none) (.advance 0)) = .next t) ∧
    (∃ t, step (s (inPhase .responded) (.take 0)) = .next t) ∧
    (∃ t, step (s (inPhase .idle) (.offer 0 .eof)) = .next t) :=
  ⟨by decide, ⟨_, rfl⟩, ⟨_, rfl⟩, ⟨_, rfl⟩⟩

theorem witness_ValidationReadsNoStore :
    let e := received [0, 1, 0, 0, 0, 6, 1, 3, 0, 0, 0, 1]
    (stock e).engine? 0 = some e ∧ e.phase = .received := by decide

end Sys2Proof.Tests
end

/-! PROOFS. What one step of the machine can do, said once: the move it takes up, the instruction a
command runs, and the step an engine takes (41_dispatch.md R180). -/

namespace Sys2Proof.Machine

/-! ### Comparing states -/

theorem SameControl.rfl {s : State} : SameControl s s := ⟨.refl _, .refl _, .refl _⟩

theorem SameControl.trans {s t u : State} (h : SameControl s t) (g : SameControl t u) :
    SameControl s u :=
  ⟨g.1.trans h.1, g.2.1.trans h.2.1, g.2.2.trans h.2.2⟩

theorem SameStore.rfl {s : State} : SameStore s s := ⟨.refl _, .refl _, .refl _⟩

theorem SameStore.trans {s t u : State} (h : SameStore s t) (g : SameStore t u) : SameStore s u :=
  ⟨g.1.trans h.1, g.2.1.trans h.2.1, g.2.2.trans h.2.2⟩

theorem onlyOutputs_emit (s : State) (o : Output) : OnlyOutputs s (s.emit o) :=
  ⟨.rfl, .rfl, rfl, rfl⟩

theorem OnlyEngine.store {i : Nat} {s t : State} (h : OnlyEngine i s t) : SameStore s t := h.1

theorem OnlyEngine.control {i : Nat} {s t : State} (h : OnlyEngine i s t) : SameControl s t := h.2.1

theorem OnlyEngine.others {i : Nat} {s t : State} (h : OnlyEngine i s t) : SameOtherEngines i s t :=
  h.2.2

theorem onlyEngine_self (i : Nat) (s : State) : OnlyEngine i s s :=
  ⟨.rfl, .rfl, fun _ _ => rfl⟩

theorem onlyEngine_setEngine (i : Nat) (e : Engine) (s : State) : OnlyEngine i s (s.setEngine i e) :=
  ⟨.rfl, .rfl, fun j hj => State.engine?_setEngine_other s i j e hj⟩

theorem onlyEngine_emit {i : Nat} {s t : State} (h : OnlyEngine i s t) (o : Output) :
    OnlyEngine i s (t.emit o) := h

/-! ### The instruction a command runs (30_encoding.md R120) -/

/-- A codec operation puts out one result in every state, or is refused in every state
(10_state.md R48). -/
theorem exec_codec {ins : Instr} (h : Instr.isCodec ins = true) :
    (∃ o, ∀ s, exec ins s = .next (s.emit o)) ∨ ∀ s, exec ins s = .refused .responseTooLong := by
  cases ins with
  | encResponse r =>
    cases hr : encodeResponse r with
    | some f => exact .inl ⟨_, fun s => by simp only [exec, execEncResponse, hr]; rfl⟩
    | none => exact .inr fun s => by simp only [exec, execEncResponse, hr]
  | encReadReq | encWriteCoilReq | decResponse | decRequest | rspCoils | rspRegisters | rspWriteAck
  | rspException | rspUnsupported => exact .inl ⟨_, fun _ => rfl⟩
  | _ => cases h

/-- Every response frame with a checked header is a codec operation. -/
theorem responseInstr_isCodec (h : Header) : Instr.isCodec (responseInstr h) = true := by
  unfold responseInstr
  split
  · rfl
  · split <;> rfl

/-- The request-side instructions: an engine's own steps, which no command stands for. -/
def Instr.isRequest : Instr → Bool
  | .readCoils _ _ _ _ | .readDiscreteInputs _ _ _ _ | .readHoldingRegisters _ _ _ _
  | .readInputRegisters _ _ _ _ | .writeSingleCoil _ _ _ _ | .illegalFunction _ _ _ _ _ => true
  | _ => false

theorem requestInstr_isRequest (i : Nat) (h : Header) : Instr.isRequest (requestInstr i h) = true := by
  unfold requestInstr
  split <;> rfl

theorem commandInstr_not_isRequest {op : BitVec 4} {args : List Operand} {ins : Instr}
    (h : commandInstr op args = some ins) : Instr.isRequest ins = false := by
  unfold commandInstr at h
  split at h
  case h_14 => split at h <;> simp at h; subst h; rfl
  all_goals injection h with h; subst h; rfl

/-- SERVE is the host's offer followed by the engine's own steps (41_dispatch.md R201). -/
theorem exec_serve_next {i : Nat} {x : PortInput} {s t : State}
    (h : exec (.serve i x) s = .next t) :
    ∃ s₀ s₁ s₂ s₃, receive i x s = .next s₀ ∧ advance i s₀ = .next s₁ ∧ advance i s₁ = .next s₂ ∧
      advance i s₂ = .next s₃ ∧ (deliver i s₃ = .next t ∨ t = s₃) := by
  obtain ⟨s₀, h₀, h⟩ := andThen_next h
  obtain ⟨s₁, h₁, h⟩ := andThen_next h
  obtain ⟨s₂, h₂, h⟩ := andThen_next h
  obtain ⟨s₃, h₃, h⟩ := andThen_next h
  refine ⟨s₀, s₁, s₂, s₃, h₀, h₁, h₂, h₃, ?_⟩
  split at h
  · exact .inl h
  · injection h with h
    exact .inr h.symm

/-- CONNECT answers a next state only from phase Closed (41_dispatch.md R200). -/
theorem exec_connect_next {i : Nat} {s t : State} (h : exec (.connect i) s = .next t) :
    ∃ e, s.engine? i = some e ∧ e.phase = .closed ∧
      t = (s.setEngine i { e with why := none, phase := .idle }).emit (.connected i) := by
  simp only [exec, execConnect] at h
  split at h
  · cases h
  · rename_i e he
    split at h
    · rename_i hp
      injection h with h
      exact ⟨e, he, hp, h.symm⟩
    · cases h

/-- What an instruction other than a request does where it answers a next state: it puts out one
result and no more, writes the store for the simulation port (42_store_ports.md R223, R225, R226),
connects an engine, or serves one. -/
theorem exec_next {ins : Instr} {s t : State} (hr : Instr.isRequest ins = false)
    (h : exec ins s = .next t) :
    (∃ o, t = s.emit o) ∨
    (∃ a v, ins = .stWriteReg a v ∧ a.toNat < s.cfg.hrSize ∧ t = (s.writeReg a.toNat v).emit .ok) ∨
    (∃ a b, ins = .stWriteCoil a b ∧ a.toNat < s.cfg.coilSize ∧
      t = (s.writeCoil a.toNat b).emit .ok) ∨
    (∃ ws, ins = .stBatch ws ∧ ws.all (StoreWrite.inStore s.cfg) = true ∧
      t = (s.applyWrites ws).emit .ok) ∨
    (∃ i, ins = .connect i) ∨ ∃ i x, ins = .serve i x := by
  by_cases hc : Instr.isCodec ins = true
  · rcases exec_codec hc with ⟨o, ho⟩ | ho
    · rw [ho] at h
      injection h with h
      exact .inl ⟨o, h.symm⟩
    · rw [ho] at h
      cases h
  cases ins with
  | stReadRegs start count | stReadCoils start count =>
    simp only [exec, execStReadRegs, execStReadCoils] at h
    split at h <;> injection h with h <;> exact .inl ⟨_, h.symm⟩
  | stWriteReg a v =>
    simp only [exec, execStWriteReg] at h
    split at h <;> injection h with h
    · rename_i ha
      exact .inr (.inl ⟨a, v, rfl, by simpa [inRange] using ha, h.symm⟩)
    · exact .inl ⟨_, h.symm⟩
  | stWriteCoil a b =>
    simp only [exec, execStWriteCoil] at h
    split at h <;> injection h with h
    · rename_i ha
      exact .inr (.inr (.inl ⟨a, b, rfl, by simpa [inRange] using ha, h.symm⟩))
    · exact .inl ⟨_, h.symm⟩
  | stBatch ws =>
    simp only [exec, execStBatch] at h
    split at h <;> injection h with h
    · rename_i hw
      exact .inr (.inr (.inr (.inl ⟨ws, rfl, hw, h.symm⟩)))
    · exact .inl ⟨_, h.symm⟩
  | connect i => exact .inr (.inr (.inr (.inr (.inl ⟨i, rfl⟩))))
  | serve i x => exact .inr (.inr (.inr (.inr (.inr ⟨i, x, rfl⟩))))
  | reservedOp => cases h
  | readCoils | readDiscreteInputs | readHoldingRegisters | readInputRegisters | writeSingleCoil
  | illegalFunction => cases hr
  | _ => exact absurd rfl hc

/-! ### The engine's own step (41_dispatch.md R180) -/

/-- The request in flight: the received frame's, or the latched one's. -/
theorem pending_eq_request {e : Engine} {hd : Header} (h : pending e = .request hd) :
    (e.phase = .received ∧ checkHeader e.rx = .ok hd) ∨
    ((e.phase = .validated ∨ e.phase = .executed) ∧ hd.fc = e.fc) := by
  unfold pending at h
  cases hp : e.phase <;> simp only [hp] at h
  case received =>
    cases hk : checkHeader e.rx <;> simp only [hk] at h <;> cases h
    exact .inl ⟨rfl, rfl⟩
  case validated => cases h; exact .inr ⟨.inl rfl, rfl⟩
  case executed => cases h; exact .inr ⟨.inr rfl, rfl⟩
  all_goals cases h

theorem pending_eq_badFrame {e : Engine} {k : FrameError} (h : pending e = .badFrame k) :
    e.phase = .received ∧ checkHeader e.rx = .error k := by
  unfold pending at h
  cases hp : e.phase <;> simp only [hp] at h
  case received =>
    cases hk : checkHeader e.rx <;> simp only [hk] at h <;> cases h
    exact ⟨rfl, rfl⟩
  all_goals cases h

theorem pending_eq_waiting {e : Engine} (h : pending e = .waiting) :
    e.phase = .closed ∨ e.phase = .idle ∨ e.phase = .responded := by
  unfold pending at h
  cases hp : e.phase <;> simp only [hp] at h
  case received => cases hk : checkHeader e.rx <;> simp only [hk] at h <;> cases h
  case validated | executed => cases h
  all_goals decide

/-- The engine's own step, by its phase (R180): Validate or a close from Received, Execute or Respond
from Validated, Respond from Executed, and nothing in every other phase. -/
theorem advance_cases {i : Nat} {s t : State} (h : advance i s = .next t) :
    ∃ e, s.engine? i = some e ∧
      ((e.phase = .received ∧ ∃ hd, checkHeader e.rx = .ok hd ∧
          t = validate i e (decodedRequest hd) s) ∨
       (e.phase = .received ∧ ∃ k, checkHeader e.rx = .error k ∧
          t = closeEngine i e (frameCloseReason k) s) ∨
       (e.phase = .validated ∧ e.exc = none ∧ executeRule e.fc i e s = .next t) ∨
       ((e.phase = .validated ∧ e.exc ≠ none ∨ e.phase = .executed) ∧ respond i e s = .next t) ∨
       ((e.phase = .closed ∨ e.phase = .idle ∨ e.phase = .responded) ∧ t = s)) := by
  obtain ⟨e, he, ⟨hd, hp, hr⟩ | ⟨k, hp, rfl⟩ | ⟨hp, rfl⟩⟩ := advance_next h
  · refine ⟨e, he, ?_⟩
    rw [runRequest_eq_requestStep] at hr
    obtain ⟨e', he', hr⟩ := requestStep_next hr
    obtain rfl : e = e' := Option.some.inj (he.symm.trans he')
    rcases pending_eq_request hp with ⟨hrec, hk⟩ | ⟨hph, hfc⟩
    · obtain ⟨-, rfl⟩ | ⟨hv, -⟩ | ⟨hv, -⟩ | ⟨hv, -⟩ := hr
      · exact .inl ⟨hrec, hd, hk, rfl⟩
      all_goals rw [hrec] at hv; cases hv
    · rw [hfc] at hr
      obtain ⟨hv, -⟩ | hx | ⟨hv, hx, hr⟩ | ⟨hv, hr⟩ := hr
      · rw [hv] at hph
        simp at hph
      · exact .inr (.inr (.inl hx))
      · exact .inr (.inr (.inr (.inl ⟨.inl ⟨hv, hx⟩, hr⟩)))
      · exact .inr (.inr (.inr (.inl ⟨.inr hv, hr⟩)))
  · obtain ⟨hrec, hk⟩ := pending_eq_badFrame hp
    exact ⟨e, he, .inr (.inl ⟨hrec, k, hk, rfl⟩)⟩
  · exact ⟨e, he, .inr (.inr (.inr (.inr ⟨pending_eq_waiting hp, rfl⟩)))⟩

/-- Execute latches a result that fits the request; only for a coil write it writes the store first
(41_dispatch.md R182). -/
theorem executeRule_next {fc : Byte} {i : Nat} {e : Engine} {s t : State}
    (h : executeRule fc i e s = .next t) :
    ∃ u res, (u = s ∨ e.kind = .writeCoil ∧ e.fc = 0x05 ∧ e.a.toNat < s.cfg.coilSize ∧
        u = writeCoilStore i e.a.toNat (coilBool e.q) s) ∧
      resultFits { e with res := res, phase := .executed } = true ∧
      t = u.setEngine i { e with res := res, phase := .executed } := by
  unfold executeRule at h
  generalize fc.toNat = n at h
  match n, h with
  | 1, h | 2, h =>
    obtain ⟨hk, hf, h⟩ := executeFor_next h
    obtain ⟨-, rfl⟩ := executeCoilRead_next h
    exact ⟨s, _, .inl rfl, by simp [resultFits, hk, hf], rfl⟩
  | 3, h | 4, h =>
    obtain ⟨hk, hf, h⟩ := executeFor_next h
    obtain ⟨-, rfl⟩ := executeRegRead_next h
    exact ⟨s, _, .inl rfl, by simp [resultFits, hk, hf], rfl⟩
  | 5, h =>
    obtain ⟨hk, hf, h⟩ := executeFor_next h
    obtain ⟨ha, rfl⟩ := executeCoilWrite_next h
    exact ⟨_, _, .inr ⟨hk, hf, ha, rfl⟩, by simp [resultFits, hk, hf], rfl⟩
  | 0, h | _ + 6, h => cases h

/-! ### One step of the machine -/

/-- A configuration outside its bounds answers no next state (70_reset_and_hazards.md R283). -/
theorem configOk_of_step {s t : State} (h : step s = .next t) : configOk s.cfg = true := by
  by_contra hc
  simp [step, hc] at h

/-- What a step that answers a next state did: nothing on an empty agenda, or the first move of the
agenda, which is a command, a response frame, an offer, an engine's own step, or a delivery. -/
theorem step_next {s t : State} (h : step s = .next t) :
    (s.agenda = [] ∧ t = s.popMove) ∨
    (∃ ins, fetch s = .instr ins ∧ Instr.isRequest ins = false ∧ exec ins s.popMove = .next t) ∨
    (∃ o, t = s.popMove.emit o) ∨
    (∃ i x rest, s.agenda = .offer i x :: rest ∧ receive i x s.popMove = .next t) ∨
    (∃ i rest, s.agenda = .advance i :: rest ∧ advance i s.popMove = .next t) ∨
    ∃ i rest, s.agenda = .take i :: rest ∧ deliver i s.popMove = .next t := by
  have hc := configOk_of_step h
  cases ha : s.agenda with
  | nil =>
    simp only [step, hc, if_true, fetch, ha, runFetched] at h
    injection h with h
    exact .inl ⟨rfl, h.symm⟩
  | cons m rest =>
    cases m with
    | command op args =>
      simp only [step, hc, if_true, fetch, ha, fetchMove, decode] at h
      cases hi : commandInstr op args with
      | none => simp [hi, runFetched] at h
      | some ins =>
        simp only [hi, runFetched] at h
        exact .inr (.inl ⟨ins, by simp [fetch, ha, fetchMove, decode, hi],
          commandInstr_not_isRequest hi, h⟩)
    | response f =>
      simp only [step, hc, if_true, fetch, ha, fetchMove] at h
      cases hk : checkHeader f with
      | error k =>
        simp only [hk, runFetched] at h
        injection h with h
        exact .inr (.inr (.inl ⟨_, h.symm⟩))
      | ok hd =>
        simp only [hk, runFetched] at h
        rcases exec_codec (responseInstr_isCodec hd) with ⟨o, ho⟩ | ho <;> rw [ho] at h
        · injection h with h
          exact .inr (.inr (.inl ⟨o, h.symm⟩))
        · cases h
    | offer i x =>
      simp only [step, hc, if_true, fetch, ha, fetchMove, runFetched] at h
      exact .inr (.inr (.inr (.inl ⟨i, x, rest, rfl, h⟩)))
    | advance i =>
      rw [step_advance hc ha] at h
      exact .inr (.inr (.inr (.inr (.inl ⟨i, rest, rfl, h⟩))))
    | take i =>
      simp only [step, hc, if_true, fetch, ha, fetchMove, runFetched] at h
      exact .inr (.inr (.inr (.inr (.inr ⟨i, rest, rfl, h⟩))))

end Sys2Proof.Machine

/-! PROOFS. What a step leaves unchanged (10_state.md R40, R44, R45, R48). -/

namespace Sys2Proof.Machine

/-! ### The steps on one engine -/

theorem closeEngine_onlyEngine (i : Nat) (e : Engine) (k : CloseReason) (s : State) :
    OnlyEngine i s (closeEngine i e k s) :=
  onlyEngine_emit (onlyEngine_setEngine i _ s) _

theorem receive_onlyEngine {i : Nat} {x : PortInput} {s t : State} (h : receive i x s = .next t) :
    OnlyEngine i s t := by
  obtain ⟨e, -, -, ⟨f, -, rfl⟩ | ⟨-, rfl⟩⟩ := receive_next h
  · exact onlyEngine_setEngine i _ s
  · exact closeEngine_onlyEngine i e _ s

theorem respond_onlyEngine {i : Nat} {e : Engine} {s t : State} (h : respond i e s = .next t) :
    OnlyEngine i s t := by
  obtain ⟨r, f, -, -, rfl⟩ := respond_next h
  exact onlyEngine_setEngine i _ s

theorem deliver_onlyEngine {i : Nat} {s t : State} (h : deliver i s = .next t) :
    OnlyEngine i s t := by
  obtain ⟨e, -, -, rfl⟩ := deliver_next h
  exact onlyEngine_emit (onlyEngine_setEngine i _ s) _

theorem validate_onlyEngine (i : Nat) (e : Engine) (r : DecodedRequest) (s : State) :
    OnlyEngine i s (validate i e r s) := by
  have latched (e' : Engine) : OnlyEngine i s ((s.afterLatch r).setEngine i e') := by
    obtain ⟨hcfg, hhr, hco, heng, hlock, hreset, hagenda, -⟩ := afterLatch_frame s r
    refine ⟨⟨hhr, hco, hreset⟩, ⟨hcfg, hlock, hagenda⟩, fun j hj => ?_⟩
    rw [State.engine?_setEngine_other _ i j e' hj, State.engine?, heng, State.engine?]
  obtain ⟨-, h⟩ | ⟨-, code, -, h⟩ | ⟨-, -, h⟩ := validate_cases i e r s <;> rw [h]
  · exact onlyEngine_emit (latched _) _
  · exact latched _
  · exact latched _

/-- An engine's own step that does not execute a coil write writes no store cell (10_state.md R35). -/
theorem advance_store {i : Nat} {s t : State} (h : advance i s = .next t) :
    OnlyEngine i s t ∨
    ∃ e, s.engine? i = some e ∧ e.phase = .validated ∧ e.exc = none ∧ e.kind = .writeCoil ∧
      e.fc = 0x05 ∧ e.a.toNat < s.cfg.coilSize ∧
      t = (writeCoilStore i e.a.toNat (coilBool e.q) s).setEngine i
        { e with res := .ack, phase := .executed } := by
  obtain ⟨e, he, ⟨-, hd, -, rfl⟩ | ⟨-, k, -, rfl⟩ | ⟨hp, hx, h⟩ | ⟨-, h⟩ | ⟨-, rfl⟩⟩ := advance_cases h
  · exact .inl (validate_onlyEngine i e _ s)
  · exact .inl (closeEngine_onlyEngine i e _ s)
  · obtain ⟨u, res, rfl | ⟨hk, hf, ha, rfl⟩, hres, rfl⟩ := executeRule_next h
    · exact .inl (onlyEngine_setEngine i _ u)
    · obtain rfl : res = .ack := by
        cases res <;> simp [resultFits, hk] at hres ⊢
      exact .inr ⟨e, he, hp, hx, hk, hf, ha, rfl⟩
  · exact .inl (respond_onlyEngine h)
  · exact .inl (onlyEngine_self i _)

/-- An engine's own step leaves the configuration, the lock, the agenda and every other engine. -/
theorem advance_frame {i : Nat} {s t : State} (h : advance i s = .next t) :
    SameControl s t ∧ SameOtherEngines i s t := by
  obtain hsame | ⟨e, -, -, -, -, -, -, rfl⟩ := advance_store h
  · exact ⟨hsame.control, hsame.others⟩
  · refine ⟨by simp [SameControl], fun j hj => ?_⟩
    rw [State.engine?_setEngine_other _ i j _ hj]
    simp [State.engine?]

/-! ### One step of the machine -/

theorem serve_sameControl {i : Nat} {x : PortInput} {s t : State}
    (h : exec (.serve i x) s = .next t) : SameControl s t := by
  obtain ⟨s₀, s₁, s₂, s₃, h₀, h₁, h₂, h₃, h₄⟩ := exec_serve_next h
  have exchange : SameControl s s₃ :=
    (((receive_onlyEngine h₀).control.trans (advance_frame h₁).1).trans (advance_frame h₂).1).trans
      (advance_frame h₃).1
  obtain h₄ | rfl := h₄
  · exact exchange.trans (deliver_onlyEngine h₄).control
  · exact exchange

theorem exec_sameControl {ins : Instr} {s t : State} (hr : Instr.isRequest ins = false)
    (h : exec ins s = .next t) : SameControl s t := by
  obtain ⟨o, rfl⟩ | ⟨a, v, -, -, rfl⟩ | ⟨a, b, -, -, rfl⟩ | ⟨ws, -, -, rfl⟩ | ⟨i, rfl⟩ | ⟨i, x, rfl⟩ :=
    exec_next hr h
  · exact .rfl
  · exact .rfl
  · exact .rfl
  · simp [SameControl, applyWrites_frame]
  · obtain ⟨e, -, -, rfl⟩ := exec_connect_next h
    exact .rfl
  · exact serve_sameControl h

/-- A step takes the first move off the agenda and writes no other control field (R44, R45). -/
theorem step_sameControl {s t : State} (h : step s = .next t) : SameControl s.popMove t := by
  obtain ⟨-, rfl⟩ | ⟨ins, -, hr, h⟩ | ⟨o, rfl⟩ | ⟨i, x, rest, -, h⟩ | ⟨i, rest, -, h⟩ |
    ⟨i, rest, -, h⟩ := step_next h
  · exact .rfl
  · exact exec_sameControl hr h
  · exact .rfl
  · exact (receive_onlyEngine h).control
  · exact (advance_frame h).1
  · exact (deliver_onlyEngine h).control

/-- Settles O55: every step leaves the control fields but the agenda. -/
theorem configurationIsFixed : Obligations.ConfigurationIsFixed := by
  intro s t h
  obtain ⟨hcfg, hlock, -⟩ := step_sameControl h
  exact ⟨hcfg, hlock⟩

/-- Settles O11: a codec operation that completes does nothing but put out its result. -/
theorem codecReadsAndWritesNoState : Obligations.CodecReadsAndWritesNoState := by
  intro ins hc
  obtain ⟨o, ho⟩ | ho := exec_codec hc
  · exact .inl ⟨o, fun s => ⟨s.emit o, ho s, rfl, onlyOutputs_emit s o⟩⟩
  · exact .inr ho

end Sys2Proof.Machine

/-! PROOFS. Who writes the store (10_state.md R35): the simulation port, and an engine that executes a
coil write, in a step of its own or inside SERVE. -/

namespace Sys2Proof.Machine

/-! ### What the engine's coil write does to the cells -/

/-- The coil write's effect on the store depends on the store alone. -/
theorem writeCoilStore_sameStore {s t : State} (h : SameStore s t) (i a : Nat) (b : Bool) :
    SameStore (writeCoilStore i a b s) (writeCoilStore i a b t) := by
  obtain ⟨hhr, hco, hreset⟩ := h
  unfold writeCoilStore
  split
  · cases b <;> simp [SameStore, resetSideEffect_hr, hhr, hco, hreset]
  · simp [SameStore, hhr, hco, hreset]

/-- A batch's effect on the store depends on the store alone. -/
theorem applyWrites_sameStore {s t : State} (h : SameStore s t) (ws : List StoreWrite) :
    SameStore (s.applyWrites ws) (t.applyWrites ws) := by
  induction ws generalizing s t with
  | nil => exact h
  | cons w ws ih =>
    refine ih (s := s.applyWrite w) (t := t.applyWrite w) ?_
    obtain ⟨hhr, hco, hreset⟩ := h
    cases w <;> simp [SameStore, State.applyWrite, hhr, hco, hreset]

/-- Among the coils only coil `a` changes (41_dispatch.md R190). -/
theorem readCoil_writeCoilStore_other {a c : Nat} (hc : c ≠ a) (s : State) (i : Nat) (b : Bool) :
    (writeCoilStore i a b s).readCoil c = s.readCoil c := by
  obtain ⟨rfl, -, h⟩ | ⟨rfl, -, h⟩ | ⟨-, h⟩ := writeCoilStore_cases s i a b <;> rw [h]
  · rw [State.readCoil_writeCoil_other _ _ c _ hc]
    exact State.readCoil_congr (resetSideEffect_co s i) c
  · exact State.readCoil_writeCoil_other s _ c _ hc
  · exact State.readCoil_writeCoil_other s _ c _ hc

/-- The reset side effect writes registers 0 and 1 only (41_dispatch.md R192). -/
theorem readReg_resetSideEffect_other {c : Nat} (h0 : c ≠ 0) (h1 : c ≠ 1) (s : State) (i : Nat) :
    (resetSideEffect i s).readReg c = s.readReg c := by
  rw [State.readReg, resetSideEffect_hr, Memory.read_write_other _ _ _ _ _ h1,
    Memory.read_write_other _ _ _ _ _ h0, State.readReg]

/-- Only a write of true to the reset coil writes a register, and then registers 0 and 1 only. -/
theorem writeCoilStore_regs (s : State) (i a : Nat) (b : Bool) :
    (a = resetCoil ∧ b = true ∧
      ∀ c, c ≠ 0 → c ≠ 1 → (writeCoilStore i a b s).readReg c = s.readReg c) ∨
    (writeCoilStore i a b s).hr = s.hr := by
  obtain ⟨ha, hb, h⟩ | ⟨-, -, h⟩ | ⟨-, h⟩ := writeCoilStore_cases s i a b <;> rw [h]
  · exact .inl ⟨ha, hb, fun c h0 h1 => readReg_resetSideEffect_other h0 h1 s i⟩
  · exact .inr rfl
  · exact .inr rfl

/-! ### The exchange of one SERVE -/

/-- Engine `i` executes nothing before the next Receive: it waits, responds, or carries an exception. -/
def NoExecuteAhead (i : Nat) (s : State) : Prop :=
  ∃ e, s.engine? i = some e ∧ e.phase ≠ .received ∧ (e.phase = .validated → e.exc ≠ none)

/-- Engine `i` has validated the request of frame `f`, and no exception is taken (41_dispatch.md R185). -/
def ReadyToExecute (i : Nat) (f : Frame) (s : State) : Prop :=
  ∃ e, s.engine? i = some e ∧ e.phase = .validated ∧ e.exc = none ∧
    decodeRequest f = .ok (latchedRequest e) ∧ validateRequest s.cfg (latchedRequest e) = none

theorem respond_noExecuteAhead {i : Nat} {e : Engine} {s t : State} (he : s.engine? i = some e)
    (h : respond i e s = .next t) : NoExecuteAhead i t := by
  obtain ⟨r, f, -, -, rfl⟩ := respond_next h
  exact ⟨_, State.engine?_setEngine_of_some he _, by simp, by simp⟩

theorem closeEngine_noExecuteAhead {i : Nat} {e : Engine} {s : State} (he : s.engine? i = some e)
    (k : CloseReason) : NoExecuteAhead i (closeEngine i e k s) :=
  ⟨_, State.engine?_setEngine_of_some he _, by simp, by simp⟩

/-- Where nothing is left to execute, an engine's own step leaves it so and writes no store cell. -/
theorem advance_noExecuteAhead {i : Nat} {s t : State} (hs : NoExecuteAhead i s)
    (h : advance i s = .next t) : SameStore s t ∧ NoExecuteAhead i t := by
  have hs' := hs
  obtain ⟨e', he', hrec, hval⟩ := hs'
  obtain ⟨e, he, hcase⟩ := advance_cases h
  obtain rfl : e' = e := Option.some.inj (he'.symm.trans he)
  obtain ⟨hp, -⟩ | ⟨hp, -⟩ | ⟨hp, hx, -⟩ | ⟨-, h⟩ | ⟨-, rfl⟩ := hcase
  · exact absurd hp hrec
  · exact absurd hp hrec
  · exact absurd hx (hval hp)
  · exact ⟨(respond_onlyEngine h).store, respond_noExecuteAhead he h⟩
  · exact ⟨.rfl, hs⟩

/-- After Validate an engine is ready to execute the request, or has nothing to execute. -/
theorem validate_ready_or_not {i : Nat} {e : Engine} {f : Frame} {r : DecodedRequest} {s : State}
    (he : s.engine? i = some e) (hf : decodeRequest f = .ok r) :
    NoExecuteAhead i (validate i e r s) ∨ ReadyToExecute i f (validate i e r s) := by
  obtain ⟨hcfg, -, -, heng, -⟩ := afterLatch_frame s r
  have he' : (s.afterLatch r).engine? i = some e := by rw [State.engine?, heng]; exact he
  obtain ⟨-, h⟩ | ⟨-, code, -, h⟩ | ⟨-, hv, h⟩ := validate_cases i e r s <;> rw [h]
  · exact .inl ⟨_, State.engine?_setEngine_of_some he' _, by simp, by simp⟩
  · exact .inl ⟨_, State.engine?_setEngine_of_some he' _, by simp, by simp⟩
  · have hr := latchedRequest_latch e r s.freeCount
    refine .inr ⟨_, State.engine?_setEngine_of_some he' _, rfl, rfl, hf.trans ?_, ?_⟩
    · exact congrArg _ hr.symm
    · exact (congrArg₂ validateRequest hcfg hr).trans hv

/-- The step after Receive (41_dispatch.md R185, R199) writes no store cell and ends the exchange or
makes the engine ready to execute the received frame's request. -/
theorem advance_of_received {i : Nat} {e : Engine} {s t : State} (he : s.engine? i = some e)
    (hp : e.phase = .received) (h : advance i s = .next t) :
    SameStore s t ∧ (NoExecuteAhead i t ∨ ReadyToExecute i e.rx t) := by
  obtain ⟨e', he', hcase⟩ := advance_cases h
  obtain rfl : e = e' := Option.some.inj (he.symm.trans he')
  obtain ⟨-, hd, hk, rfl⟩ | ⟨-, k, -, rfl⟩ | ⟨hv, -⟩ | ⟨hv, -⟩ | ⟨hv, -⟩ := hcase
  · refine ⟨(validate_onlyEngine i e _ s).store, validate_ready_or_not he ?_⟩
    rw [decodeRequest, hk]
    rfl
  · exact ⟨(closeEngine_onlyEngine i e _ s).store, .inl (closeEngine_noExecuteAhead he _)⟩
  all_goals simp [hp] at hv

/-- The latched request of an engine whose latches are a coil write's. -/
theorem latchedRequest_writeCoil {e : Engine} (hk : e.kind = .writeCoil) (hf : e.fc = 0x05) :
    latchedRequest e = ⟨e.tid, e.unit, 0x05, .writeCoil e.a e.q⟩ := by
  simp [latchedRequest, hk, hf]

/-- Execute writes the store for a valid coil write only, and leaves nothing to execute. -/
theorem advance_of_readyToExecute {i : Nat} {f : Frame} {s t : State} (hs : ReadyToExecute i f s)
    (h : advance i s = .next t) :
    NoExecuteAhead i t ∧ (SameStore s t ∨ ∃ tid unit a q,
      decodeRequest f = .ok ⟨tid, unit, 0x05, .writeCoil a q⟩ ∧
      validateRequest s.cfg ⟨tid, unit, 0x05, .writeCoil a q⟩ = none ∧
      SameStore (writeCoilStore i a.toNat (coilBool q) s) t) := by
  obtain ⟨e', he', hp, hx, hdec, hval⟩ := hs
  obtain ⟨e, he, hcase⟩ := advance_cases h
  obtain rfl : e' = e := Option.some.inj (he'.symm.trans he)
  obtain ⟨hv, -⟩ | ⟨hv, -⟩ | ⟨-, -, h⟩ | ⟨hv, -⟩ | ⟨hv, -⟩ := hcase
  case inr.inr.inl =>
    obtain ⟨u, res, hu, -, rfl⟩ := executeRule_next h
    have done (he : u.engine? i = some e') :
        NoExecuteAhead i (u.setEngine i { e' with res := res, phase := .executed }) :=
      ⟨_, State.engine?_setEngine_of_some he _, by simp, by simp⟩
    obtain rfl | ⟨hk, hf, -, rfl⟩ := hu
    · exact ⟨done he, .inl .rfl⟩
    · rw [latchedRequest_writeCoil hk hf] at hdec hval
      refine ⟨done ?_, .inr ⟨_, _, _, _, hdec, hval, .rfl⟩⟩
      rw [State.engine?, writeCoilStore_engines]
      exact he
  all_goals simp [hp, hx] at hv

/-- SERVE writes the store only where it executes a valid coil write (10_state.md R35). -/
theorem serve_store {i : Nat} {x : PortInput} {s t : State} (h : exec (.serve i x) s = .next t) :
    SameStore s t ∨ ∃ f tid unit a q, x = .frame f ∧
      decodeRequest f = .ok ⟨tid, unit, 0x05, .writeCoil a q⟩ ∧
      validateRequest s.cfg ⟨tid, unit, 0x05, .writeCoil a q⟩ = none ∧
      SameStore (writeCoilStore i a.toNat (coilBool q) s) t := by
  obtain ⟨s₀, s₁, s₂, s₃, h₀, h₁, h₂, h₃, h₄⟩ := exec_serve_next h
  have rest₃ : SameStore s₃ t := by
    obtain h₄ | rfl := h₄
    · exact (deliver_onlyEngine h₄).store
    · exact .rfl
  have rest₂ (n : NoExecuteAhead i s₂) : SameStore s₂ t := (advance_noExecuteAhead n h₃).1.trans rest₃
  have rest₁ (n : NoExecuteAhead i s₁) : SameStore s₁ t := by
    obtain ⟨g₂, n₂⟩ := advance_noExecuteAhead n h₂
    exact g₂.trans (rest₂ n₂)
  have g₀ : SameStore s s₀ := (receive_onlyEngine h₀).store
  obtain ⟨e, he, -, ⟨f, rfl, rfl⟩ | ⟨-, rfl⟩⟩ := receive_next h₀
  · obtain ⟨g₁, n₁ | r₁⟩ := advance_of_received (State.engine?_setEngine_of_some he _) rfl h₁
    · exact .inl (g₁.trans (rest₁ n₁))
    · obtain ⟨n₂, g₂ | ⟨tid, unit, a, q, hdec, hval, g₂⟩⟩ := advance_of_readyToExecute r₁ h₂
      · exact .inl ((g₀.trans g₁).trans (g₂.trans (rest₂ n₂)))
      · have hcfg : s₁.cfg = s.cfg := (advance_frame h₁).1.1
        rw [hcfg] at hval
        exact .inr ⟨f, tid, unit, a, q, rfl, hdec, hval,
          (writeCoilStore_sameStore (g₀.trans g₁) i _ _).trans (g₂.trans (rest₂ n₂))⟩
  · obtain ⟨g₁, n₁⟩ := advance_noExecuteAhead (closeEngine_noExecuteAhead he _) h₁
    exact .inl (g₀.trans (g₁.trans (rest₁ n₁)))

/-! ### One step of the machine -/

/-- Engine `i` executes a coil write of address `a` and value `q` as the next step: as its own step, or
inside a SERVE of a frame that decodes to that write and passes validation (41_dispatch.md R182,
R185). -/
def ExecutesCoilWrite (s : State) (i : Nat) (a q : Half) : Prop :=
  (∃ e rest, s.agenda = .advance i :: rest ∧ s.engine? i = some e ∧ e.phase = .validated ∧
    e.exc = none ∧ e.kind = .writeCoil ∧ e.fc = 0x05 ∧ e.a = a ∧ e.q = q) ∨
  ∃ f tid unit, fetch s = .instr (.serve i (.frame f)) ∧
    decodeRequest f = .ok ⟨tid, unit, 0x05, .writeCoil a q⟩ ∧
    validateRequest s.cfg ⟨tid, unit, 0x05, .writeCoil a q⟩ = none

/-- What a step does to the store (10_state.md R35): nothing, one of the simulation port's three writes,
or the coil write of an engine that executes one. -/
theorem step_store {s t : State} (h : step s = .next t) :
    SameStore s t ∨
    (∃ a v, fetch s = .instr (.stWriteReg a v) ∧ SameStore (s.writeReg a.toNat v) t) ∨
    (∃ a b, fetch s = .instr (.stWriteCoil a b) ∧ SameStore (s.writeCoil a.toNat b) t) ∨
    (∃ ws, fetch s = .instr (.stBatch ws) ∧ SameStore (s.applyWrites ws) t) ∨
    ∃ i a q, ExecutesCoilWrite s i a q ∧ SameStore (writeCoilStore i a.toNat (coilBool q) s) t := by
  have hpop : SameStore s s.popMove := .rfl
  obtain ⟨-, rfl⟩ | ⟨ins, hf, hr, h⟩ | ⟨o, rfl⟩ | ⟨i, x, rest, -, h⟩ | ⟨i, rest, ha, h⟩ |
    ⟨i, rest, -, h⟩ := step_next h
  · exact .inl hpop
  · obtain ⟨o, rfl⟩ | ⟨a, v, rfl, -, rfl⟩ | ⟨a, b, rfl, -, rfl⟩ | ⟨ws, rfl, -, rfl⟩ | ⟨i, rfl⟩ |
      ⟨i, x, rfl⟩ := exec_next hr h
    · exact .inl hpop
    · exact .inr (.inl ⟨a, v, hf, .rfl⟩)
    · exact .inr (.inr (.inl ⟨a, b, hf, .rfl⟩))
    · exact .inr (.inr (.inr (.inl ⟨ws, hf, applyWrites_sameStore hpop ws⟩)))
    · obtain ⟨e, -, -, rfl⟩ := exec_connect_next h
      exact .inl hpop
    · obtain g | ⟨f, tid, unit, a, q, rfl, hdec, hval, g⟩ := serve_store h
      · exact .inl (hpop.trans g)
      · exact .inr (.inr (.inr (.inr ⟨i, a, q, .inr ⟨f, tid, unit, hf, hdec, hval⟩,
          (writeCoilStore_sameStore hpop i _ _).trans g⟩)))
  · exact .inl hpop
  · exact .inl (hpop.trans (receive_onlyEngine h).store)
  · obtain g | ⟨e, he, hp, hx, hk, hfc, -, rfl⟩ := advance_store h
    · exact .inl (hpop.trans g.store)
    · exact .inr (.inr (.inr (.inr ⟨i, e.a, e.q, .inl ⟨e, rest, ha, he, hp, hx, hk, hfc, rfl, rfl⟩,
        writeCoilStore_sameStore hpop i _ _⟩)))
  · exact .inl (hpop.trans (deliver_onlyEngine h).store)

theorem eq_ff00_of_coilBool {q : Half} (h : coilBool q = true) : q = 0xFF00 := by
  simpa [coilBool] using h

/-- Settles O56: `step_store`, with the cells an engine's coil write leaves. -/
theorem storeChangesHaveTheirWriter : Obligations.StoreChangesHaveTheirWriter := by
  intro s t h
  obtain ⟨hhr, hco, -⟩ | ⟨a, v, hf, -⟩ | ⟨a, b, hf, -⟩ | ⟨ws, hf, -⟩ | ⟨i, a, q, hw, hhr, hco, -⟩ :=
    step_store h
  · exact .inl ⟨State.readReg_congr hhr, State.readCoil_congr hco⟩
  · exact .inr (.inl ⟨a, v, hf⟩)
  · exact .inr (.inr (.inl ⟨a, b, hf⟩))
  · exact .inr (.inr (.inr (.inl ⟨ws, hf⟩)))
  · refine .inr (.inr (.inr (.inr ⟨a, q, ?_, fun c hc => ?_, ?_⟩)))
    · obtain ⟨e, rest, hw⟩ | ⟨f, tid, unit, hw⟩ := hw
      · exact .inl ⟨i, e, rest, hw⟩
      · exact .inr ⟨i, f, tid, unit, hw⟩
    · rw [State.readCoil_congr hco, readCoil_writeCoilStore_other hc]
    · obtain ⟨ha, hq, hregs⟩ | hregs := writeCoilStore_regs s i a.toNat (coilBool q)
      · refine ⟨fun c h0 h1 => ?_, fun _ => ⟨BitVec.eq_of_toNat_eq ha, eq_ff00_of_coilBool hq⟩⟩
        rw [State.readReg_congr hhr, hregs c h0 h1]
      · have hsame := State.readReg_congr (hhr.trans hregs)
        exact ⟨fun c _ _ => hsame c, fun ⟨c, hc⟩ => absurd (hsame c) hc⟩

end Sys2Proof.Machine

/-! PROOFS. One engine's moves neither change nor read another engine (10_state.md R40,
70_reset_and_hazards.md R259). -/

namespace Sys2Proof.Machine

/-- An outcome with its next state changed by `f`. -/
def mapNext (f : State → State) : Result → Result
  | .next s => .next (f s)
  | .fault r => .fault r
  | .refused r => .refused r

@[simp] theorem mapNext_next (f : State → State) (s : State) : mapNext f (.next s) = .next (f s) := rfl
@[simp] theorem mapNext_refused (f : State → State) (r : Refusal) :
    mapNext f (.refused r) = .refused r := rfl

/-- `f` does the same to everything else whatever engine `j` holds, and leaves engine `j`. -/
def IgnoresEngine (j : Nat) (f : State → Result) : Prop :=
  ∀ s e', f (s.setEngine j e') = mapNext (·.setEngine j e') (f s)

theorem setEngine_comm {i j : Nat} (hij : i ≠ j) (s : State) (e e' : Engine) :
    (s.setEngine j e').setEngine i e = (s.setEngine i e).setEngine j e' := by
  simp only [State.setEngine, List.set_comm _ _ hij.symm]

theorem writeCoilStore_setEngine (i j a : Nat) (b : Bool) (s : State) (e' : Engine) :
    writeCoilStore i a b (s.setEngine j e') = (writeCoilStore i a b s).setEngine j e' := by
  unfold writeCoilStore
  split
  · cases b <;> rfl
  · rfl

theorem executeFor_ignoresEngine {i j : Nat} {e : Engine} {kind : ReqKind} {fc : Byte}
    {rule : Nat → Engine → State → Result} (h : IgnoresEngine j (rule i e)) :
    IgnoresEngine j (executeFor kind fc rule i e) := by
  intro s e'
  unfold executeFor
  split
  · exact h s e'
  · rfl

section OtherEngine

variable {i j : Nat} (hij : i ≠ j)
include hij

theorem closeEngine_setEngine_other (e e' : Engine) (k : CloseReason) (s : State) :
    closeEngine i e k (s.setEngine j e') = (closeEngine i e k s).setEngine j e' := by
  rw [closeEngine, setEngine_comm hij]
  rfl

theorem receive_ignoresEngine (x : PortInput) : IgnoresEngine j (receive i x) := by
  intro s e'
  unfold receive
  rw [State.engine?_setEngine_other s j i e' hij]
  cases s.engine? i with
  | none => rfl
  | some e =>
    by_cases hp : e.phase = .idle
    · cases x with
      | frame f => simp [hp, setEngine_comm hij]
      | eof => simp [hp, closeEngine_setEngine_other hij]
    · simp [hp]

theorem deliver_ignoresEngine : IgnoresEngine j (deliver i) := by
  intro s e'
  unfold deliver
  rw [State.engine?_setEngine_other s j i e' hij]
  cases s.engine? i with
  | none => rfl
  | some e =>
    by_cases hp : e.phase = .responded
    · simp only [hp, if_true, returnToIdle, setEngine_comm hij]
      rfl
    · simp [hp]

theorem respond_ignoresEngine (e : Engine) : IgnoresEngine j (respond i e) := by
  intro s e'
  unfold respond
  cases engineResponse e with
  | none => rfl
  | some r => cases hf : encodeResponse r <;> simp [hf, setEngine_comm hij]

theorem validate_setEngine_other (e e' : Engine) (r : DecodedRequest) (s : State) :
    validate i e r (s.setEngine j e') = (validate i e r s).setEngine j e' := by
  have hlatch : (s.setEngine j e').afterLatch r = (s.afterLatch r).setEngine j e' := by
    obtain ⟨tid, unit, fc, body⟩ := r
    cases body <;> rfl
  unfold validate
  simp only [hlatch, State.setEngine_cfg, State.setEngine_freeCount]
  split
  · split <;> simp only [takeException, setEngine_comm hij]
  · rw [setEngine_comm hij]
    rfl

theorem executeCoilRead_ignoresEngine (e : Engine) : IgnoresEngine j (executeCoilRead i e) := by
  intro s e'
  simp only [executeCoilRead, finishExecute, setEngine_comm hij, State.setEngine_cfg]
  split <;> rfl

theorem executeRegRead_ignoresEngine (e : Engine) : IgnoresEngine j (executeRegRead i e) := by
  intro s e'
  simp only [executeRegRead, finishExecute, setEngine_comm hij, State.setEngine_cfg]
  split <;> rfl

theorem executeCoilWrite_ignoresEngine (e : Engine) : IgnoresEngine j (executeCoilWrite i e) := by
  intro s e'
  simp only [executeCoilWrite, finishExecute, writeCoilStore_setEngine, setEngine_comm hij,
    State.setEngine_cfg]
  split <;> rfl

theorem executeRule_ignoresEngine (fc : Byte) (e : Engine) : IgnoresEngine j (executeRule fc i e) := by
  unfold executeRule
  generalize fc.toNat = n
  match n with
  | 1 | 2 => exact executeFor_ignoresEngine (executeCoilRead_ignoresEngine hij e)
  | 3 | 4 => exact executeFor_ignoresEngine (executeRegRead_ignoresEngine hij e)
  | 5 => exact executeFor_ignoresEngine (executeCoilWrite_ignoresEngine hij e)
  | 0 | _ + 6 => exact fun _ _ => rfl

theorem requestStep_ignoresEngine (r : DecodedRequest) (fc : Byte) :
    IgnoresEngine j (requestStep i r (executeRule fc)) := by
  intro s e'
  unfold requestStep
  rw [State.engine?_setEngine_other s j i e' hij]
  cases s.engine? i with
  | none => rfl
  | some e =>
    cases hp : e.phase with
    | received => simp only [hp, validate_setEngine_other hij, mapNext_next]
    | validated =>
      cases hx : e.exc with
      | none => simp only [hp, hx, executeRule_ignoresEngine hij fc e s e']
      | some code => simp only [hp, hx, respond_ignoresEngine hij e s e']
    | executed => simp only [hp, respond_ignoresEngine hij e s e']
    | closed | idle | responded => simp only [hp, mapNext_refused]

theorem advance_ignoresEngine : IgnoresEngine j (advance i) := by
  intro s e'
  unfold advance
  rw [State.engine?_setEngine_other s j i e' hij]
  cases s.engine? i with
  | none => rfl
  | some e =>
    cases hp : pending e with
    | request hd =>
      simp only [hp, runRequest_eq_requestStep]
      exact requestStep_ignoresEngine hij _ _ s e'
    | badFrame k => simp only [hp, closeEngine_setEngine_other hij, mapNext_next]
    | waiting => simp only [hp, mapNext_next]

end OtherEngine

/-! ### One step of the machine -/

/-- The moves on one engine are its own step, the host's offer to it, and the host taking its response;
one step of the machine is that operation. -/
theorem step_engineMove {i j : Nat} {m : Move} (hij : i ≠ j)
    (hm : m = .advance i ∨ m = .take i ∨ ∃ x, m = .offer i x) :
    ∃ f : State → Result, IgnoresEngine j f ∧
      (∀ s t, f s = .next t → SameOtherEngines i s t) ∧
      ∀ s rest, configOk s.cfg = true → s.agenda = m :: rest → step s = f s.popMove := by
  obtain rfl | rfl | ⟨x, rfl⟩ := hm
  · exact ⟨advance i, advance_ignoresEngine hij, fun _ _ h => (advance_frame h).2,
      fun _ _ hc ha => step_advance hc ha⟩
  · refine ⟨deliver i, deliver_ignoresEngine hij, fun _ _ h => (deliver_onlyEngine h).others, ?_⟩
    intro s rest hc ha
    simp only [step, hc, if_true, fetch, ha, fetchMove, runFetched]
  · refine ⟨receive i x, receive_ignoresEngine hij x, fun _ _ h => (receive_onlyEngine h).others, ?_⟩
    intro s rest hc ha
    simp only [step, hc, if_true, fetch, ha, fetchMove, runFetched]

/-- Settles O59: each move on engine `i` commutes with giving engine `j` other contents. -/
theorem enginesDoNotInterfere : Obligations.EnginesDoNotInterfere := by
  intro s t i j e' m rest hij hm ha h
  obtain ⟨f, hignores, hothers, hstep⟩ := step_engineMove hij hm
  have hc : configOk s.cfg = true := configOk_of_step h
  rw [hstep s rest hc ha] at h
  refine ⟨hothers _ _ h j hij.symm, ?_⟩
  rw [hstep (s.setEngine j e') rest hc ha]
  exact (hignores s.popMove e').trans (by rw [h]; rfl)

end Sys2Proof.Machine

/-! PROOFS. Every step leads from a legal state to a legal state (`stateOk`), and the reset coil becomes
true only by a write of the simulation port (10_state.md R36, 42_store_ports.md R228). -/

namespace Sys2Proof.Machine

/-! ### The parts of a legal state -/

theorem stateOk_iff (s : State) : stateOk s = true ↔
    configOk s.cfg = true ∧ storeOk s = true ∧ s.engines.length = s.cfg.nConn ∧
    (∀ e ∈ s.engines, engineOk s.cfg e = true) ∧ s.lock = .free := by
  simp only [stateOk, Bool.and_eq_true, beq_iff_eq, List.all_eq_true, and_assoc]

theorem storeOk_iff (s : State) : storeOk s = true ↔
    Memory.wf blankReg s.hr = true ∧ Memory.within s.cfg.hrSize s.hr = true ∧
    Memory.wf blankCoil s.co = true ∧ Memory.within s.cfg.coilSize s.co = true := by
  simp only [storeOk, Bool.and_eq_true, and_assoc]

/-- The bounds of 70_reset_and_hazards.md R283 on the two tables. -/
theorem configOk_sizes {c : Config} (h : configOk c = true) : 102 ≤ c.hrSize ∧ 11 ≤ c.coilSize := by
  simp only [configOk, Bool.and_eq_true, decide_eq_true_eq] at h
  omega

theorem engineOk_of_stateOk {s : State} {i : Nat} {e : Engine} (hs : stateOk s = true)
    (he : s.engine? i = some e) : engineOk s.cfg e = true := by
  obtain ⟨-, -, -, hall, -⟩ := (stateOk_iff s).mp hs
  exact hall e (List.mem_of_getElem? he)

theorem storeOk_of_stateOk {s : State} (hs : stateOk s = true) : storeOk s = true := by
  obtain ⟨-, hstore, -⟩ := (stateOk_iff s).mp hs
  exact hstore

/-- The invariant asks nothing of the agenda, the outputs, the event history and the free values. -/
theorem stateOk_congr {s t : State} (hcfg : t.cfg = s.cfg) (hhr : t.hr = s.hr) (hco : t.co = s.co)
    (heng : t.engines = s.engines) (hlock : t.lock = s.lock) : stateOk t = stateOk s := by
  simp only [stateOk, storeOk, hcfg, hhr, hco, heng, hlock]

theorem stateOk_setEngine {s : State} {i : Nat} {e : Engine} (hs : stateOk s = true)
    (he : engineOk s.cfg e = true) : stateOk (s.setEngine i e) = true := by
  rw [stateOk_iff] at hs ⊢
  obtain ⟨hcfg, hstore, hlen, hall, hlock⟩ := hs
  refine ⟨hcfg, hstore, by simpa using hlen, fun x hx => ?_, hlock⟩
  obtain hx | rfl := List.mem_or_eq_of_mem_set hx
  · exact hall x hx
  · exact he

/-- A change of the two tables that keeps them well formed. -/
theorem stateOk_of_storeOk {s t : State} (hs : stateOk s = true) (ht : storeOk t = true)
    (hcfg : t.cfg = s.cfg) (heng : t.engines = s.engines) (hlock : t.lock = s.lock) :
    stateOk t = true := by
  obtain ⟨hc, -, hengines⟩ := (stateOk_iff s).mp hs
  rw [stateOk_iff, hcfg, heng, hlock]
  exact ⟨hc, ht, hengines⟩

/-! ### Writes of the store -/

theorem storeOk_writeReg {s : State} {a : Nat} (hs : storeOk s = true) (ha : a < s.cfg.hrSize)
    (v : Half) : storeOk (s.writeReg a v) = true := by
  rw [storeOk_iff] at hs ⊢
  obtain ⟨hwf, hin, hco⟩ := hs
  exact ⟨Memory.wf_write _ hwf a v, Memory.within_write _ hin ha v, hco⟩

theorem storeOk_writeCoil {s : State} {a : Nat} (hs : storeOk s = true) (ha : a < s.cfg.coilSize)
    (b : Bool) : storeOk (s.writeCoil a b) = true := by
  rw [storeOk_iff] at hs ⊢
  obtain ⟨hwf, hin, hwfc, hinc⟩ := hs
  exact ⟨hwf, hin, Memory.wf_write _ hwfc a b, Memory.within_write _ hinc ha b⟩

theorem storeOk_writeCoilStore {s : State} {a : Nat} (hc : configOk s.cfg = true)
    (hs : storeOk s = true) (ha : a < s.cfg.coilSize) (i : Nat) (b : Bool) :
    storeOk (writeCoilStore i a b s) = true := by
  have hsize := configOk_sizes hc
  have hreset : storeOk (resetSideEffect i s) = true :=
    storeOk_writeReg (storeOk_writeReg hs (a := 0) (by omega) 0) (a := 1)
      (by rw [State.writeReg_cfg]; omega) 0
  obtain ⟨rfl, -, h⟩ | ⟨rfl, -, h⟩ | ⟨-, h⟩ := writeCoilStore_cases s i a b <;> rw [h]
  · exact storeOk_writeCoil hreset ha false
  · exact storeOk_writeCoil hs ha false
  · exact storeOk_writeCoil hs ha b

theorem stateOk_writeCoilStore {s : State} {a : Nat} (hs : stateOk s = true)
    (ha : a < s.cfg.coilSize) (i : Nat) (b : Bool) : stateOk (writeCoilStore i a b s) = true := by
  obtain ⟨hc, hstore, -⟩ := (stateOk_iff s).mp hs
  exact stateOk_of_storeOk hs (storeOk_writeCoilStore hc hstore ha i b) (writeCoilStore_cfg s i a b)
    (writeCoilStore_engines s i a b) (writeCoilStore_lock s i a b)

theorem stateOk_applyWrites {s : State} {ws : List StoreWrite} (hs : stateOk s = true)
    (hw : ws.all (StoreWrite.inStore s.cfg) = true) : stateOk (s.applyWrites ws) = true := by
  obtain ⟨hcfg, heng, hlock, -⟩ := applyWrites_frame s ws
  exact stateOk_of_storeOk hs (storeOk_applyWrites ws hw (storeOk_of_stateOk hs)) hcfg heng hlock

/-! ### The steps of an exchange -/

/-- An engine of a legal state that is not closed has no close reason. -/
theorem why_eq_none_of_engineOk {c : Config} {e : Engine} (h : engineOk c e = true)
    (hp : e.phase ≠ .closed) : e.why = none := by
  unfold engineOk at h
  cases hph : e.phase <;> simp only [hph, Bool.and_eq_true, beq_iff_eq] at h
  case closed => exact absurd hph hp
  case idle | received => exact h
  case validated => exact h.1
  case executed => exact h.1.1.1
  case responded => exact h.1.1.1

theorem engineOk_validated_iff {c : Config} {e : Engine} (hp : e.phase = .validated) :
    engineOk c e = true ↔ e.why = none ∧ latchesValid c e = true := by
  simp only [engineOk, hp, Bool.and_eq_true, beq_iff_eq]

theorem engineOk_executed_iff {c : Config} {e : Engine} (hp : e.phase = .executed) :
    engineOk c e = true ↔
      e.why = none ∧ latchesValid c e = true ∧ e.exc = none ∧ resultFits e = true := by
  simp only [engineOk, hp, Bool.and_eq_true, beq_iff_eq, and_assoc]

theorem engineOk_responded_iff {c : Config} {e : Engine} (hp : e.phase = .responded) :
    engineOk c e = true ↔
      e.why = none ∧ latchesValid c e = true ∧ (e.exc.isSome = true ∨ resultFits e = true) ∧
      (engineResponse e).bind encodeResponse = some e.tx := by
  simp only [engineOk, hp, Bool.and_eq_true, Bool.or_eq_true, beq_iff_eq, and_assoc]

/-- The four kinds of a decoded request, by function code and data (40_codec.md R150, R151). -/
theorem decodedRequest_cases (h : Header) :
    (supportedFc h.fc = false ∧ decodedRequest h = ⟨h.tid, h.unit, h.fc, .unknown⟩) ∨
    (supportedFc h.fc = true ∧ decodedRequest h = ⟨h.tid, h.unit, h.fc, .malformed⟩) ∨
    (∃ a q, h.fc = 0x05 ∧ decodedRequest h = ⟨h.tid, h.unit, h.fc, .writeCoil a q⟩) ∨
    ∃ a q, supportedFc h.fc = true ∧ h.fc ≠ 0x05 ∧
      decodedRequest h = ⟨h.tid, h.unit, h.fc, .read a q⟩ := by
  unfold decodedRequest
  cases hs : supportedFc h.fc with
  | false => exact .inl ⟨rfl, rfl⟩
  | true =>
    cases hargs : pduArgs h.data with
    | malformed data => exact .inr (.inl ⟨rfl, rfl⟩)
    | fields a q =>
      by_cases h5 : h.fc = 0x05
      · exact .inr (.inr (.inl ⟨a, q, h5, by rw [if_pos rfl, requestBody, if_pos h5]⟩))
      · exact .inr (.inr (.inr ⟨a, q, rfl, h5, by rw [if_pos rfl, requestBody, if_neg h5]⟩))

/-- The kind latch of a decoded request fits its function code. -/
theorem kindFits_latch (e : Engine) (h : Header) (n : Nat) :
    kindFits (e.latch (decodedRequest h) n) = true := by
  obtain ⟨hs, hr⟩ | ⟨hs, hr⟩ | ⟨a, q, h5, hr⟩ | ⟨a, q, hs, h5, hr⟩ := decodedRequest_cases h <;> rw [hr]
  · simp [Engine.latch, kindFits, hs]
  · simp [Engine.latch, kindFits, hs]
  · simp [Engine.latch, kindFits, h5]
  · simpa [Engine.latch, kindFits, hs] using h5

/-- Validate's latches, where the unit is accepted and `exc` is the request's (41_dispatch.md R185). -/
theorem engineOk_validated {c : Config} {e : Engine} {h : Header} {n : Nat} {exc : Option Byte}
    (hwhy : e.why = none) (hu : unitAccepted c (decodedRequest h).unit = true)
    (hx : validateRequest c (decodedRequest h) = exc) :
    engineOk c { e.latch (decodedRequest h) n with exc := exc, phase := .validated } = true := by
  obtain ⟨-, hunit, -⟩ := latch_header e (decodedRequest h) n
  obtain ⟨-, -, -, -, hw⟩ := latch_frame e (decodedRequest h) n
  refine (engineOk_validated_iff rfl).mpr ⟨hw.trans hwhy, ?_⟩
  simp only [latchesValid, Bool.and_eq_true, beq_iff_eq]
  refine ⟨⟨kindFits_latch e h n, by rw [hunit]; exact hu⟩, hx.symm.trans ?_⟩
  exact congrArg _ (latchedRequest_latch e (decodedRequest h) n).symm

theorem stateOk_closeEngine {s : State} (hs : stateOk s = true) (i : Nat) (e : Engine)
    (k : CloseReason) : stateOk (closeEngine i e k s) = true :=
  stateOk_setEngine hs rfl

theorem stateOk_receive {i : Nat} {x : PortInput} {s t : State} (hs : stateOk s = true)
    (h : receive i x s = .next t) : stateOk t = true := by
  obtain ⟨e, he, hp, ⟨f, -, rfl⟩ | ⟨-, rfl⟩⟩ := receive_next h
  · have hwhy := why_eq_none_of_engineOk (engineOk_of_stateOk hs he) (by simp [hp])
    exact stateOk_setEngine hs (by simp [engineOk, hwhy])
  · exact stateOk_closeEngine hs i e _

theorem stateOk_validate {i : Nat} {e : Engine} {s : State} (hs : stateOk s = true)
    (hwhy : e.why = none) (h : Header) : stateOk (validate i e (decodedRequest h) s) = true := by
  obtain ⟨hcfg, hhr, hco, heng, hlock, -⟩ := afterLatch_frame s (decodedRequest h)
  have hs' : stateOk (s.afterLatch (decodedRequest h)) = true :=
    (stateOk_congr hcfg hhr hco heng hlock).trans hs
  obtain ⟨-, hv⟩ | ⟨hu, code, hx, hv⟩ | ⟨hu, hx, hv⟩ := validate_cases i e (decodedRequest h) s <;>
    rw [hv]
  · obtain ⟨-, -, -, -, hw⟩ := latch_frame e (decodedRequest h) s.freeCount
    exact stateOk_setEngine hs' (by simp [engineOk, hw, hwhy])
  · exact stateOk_setEngine hs' (by rw [hcfg]; exact engineOk_validated hwhy hu hx)
  · exact stateOk_setEngine hs' (by rw [hcfg]; exact engineOk_validated hwhy hu hx)

theorem stateOk_execute {fc : Byte} {i : Nat} {e : Engine} {s t : State} (hs : stateOk s = true)
    (he : s.engine? i = some e) (hp : e.phase = .validated) (hx : e.exc = none)
    (h : executeRule fc i e s = .next t) : stateOk t = true := by
  obtain ⟨hwhy, hlatches⟩ := (engineOk_validated_iff hp).mp (engineOk_of_stateOk hs he)
  obtain ⟨u, res, hu, hres, rfl⟩ := executeRule_next h
  have hexec : engineOk s.cfg { e with res := res, phase := .executed } = true :=
    (engineOk_executed_iff rfl).mpr ⟨hwhy, hlatches, hx, hres⟩
  obtain rfl | ⟨-, -, ha, rfl⟩ := hu
  · exact stateOk_setEngine hs hexec
  · exact stateOk_setEngine (stateOk_writeCoilStore hs ha i _) (by rwa [writeCoilStore_cfg])

theorem stateOk_respond {i : Nat} {e : Engine} {s t : State} (hs : stateOk s = true)
    (he : s.engine? i = some e)
    (hp : e.phase = .validated ∧ e.exc ≠ none ∨ e.phase = .executed)
    (h : respond i e s = .next t) : stateOk t = true := by
  have hok := engineOk_of_stateOk hs he
  obtain ⟨r, f, hr, hf, rfl⟩ := respond_next h
  refine stateOk_setEngine hs ((engineOk_responded_iff rfl).mpr ?_)
  have htx : (engineResponse e).bind encodeResponse = some f := by rw [hr, Option.bind_some, hf]
  obtain ⟨hp, hx⟩ | hp := hp
  · obtain ⟨hwhy, hlatches⟩ := (engineOk_validated_iff hp).mp hok
    exact ⟨hwhy, hlatches, .inl (Option.isSome_iff_ne_none.mpr hx), htx⟩
  · obtain ⟨hwhy, hlatches, -, hres⟩ := (engineOk_executed_iff hp).mp hok
    exact ⟨hwhy, hlatches, .inr hres, htx⟩

theorem stateOk_deliver {i : Nat} {s t : State} (hs : stateOk s = true)
    (h : deliver i s = .next t) : stateOk t = true := by
  obtain ⟨e, he, hp, rfl⟩ := deliver_next h
  have hwhy := why_eq_none_of_engineOk (engineOk_of_stateOk hs he) (by simp [hp])
  exact stateOk_setEngine hs (by simp [engineOk, hwhy])

theorem stateOk_advance {i : Nat} {s t : State} (hs : stateOk s = true)
    (h : advance i s = .next t) : stateOk t = true := by
  obtain ⟨e, he, ⟨hp, hd, -, rfl⟩ | ⟨-, k, -, rfl⟩ | ⟨hp, hx, h⟩ | ⟨hp, h⟩ | ⟨-, rfl⟩⟩ := advance_cases h
  · exact stateOk_validate hs
      (why_eq_none_of_engineOk (engineOk_of_stateOk hs he) (by simp [hp])) hd
  · exact stateOk_closeEngine hs i e _
  · exact stateOk_execute hs he hp hx h
  · exact stateOk_respond hs he hp h
  · exact hs

/-! ### One step of the machine -/

theorem stateOk_serve {i : Nat} {x : PortInput} {s t : State} (hs : stateOk s = true)
    (h : exec (.serve i x) s = .next t) : stateOk t = true := by
  obtain ⟨s₀, s₁, s₂, s₃, h₀, h₁, h₂, h₃, h₄⟩ := exec_serve_next h
  have hs₃ : stateOk s₃ = true :=
    stateOk_advance (stateOk_advance (stateOk_advance (stateOk_receive hs h₀) h₁) h₂) h₃
  obtain h₄ | rfl := h₄
  · exact stateOk_deliver hs₃ h₄
  · exact hs₃

theorem stateOk_exec {ins : Instr} {s t : State} (hr : Instr.isRequest ins = false)
    (hs : stateOk s = true) (h : exec ins s = .next t) : stateOk t = true := by
  have hstore := storeOk_of_stateOk hs
  obtain ⟨o, rfl⟩ | ⟨a, v, -, ha, rfl⟩ | ⟨a, b, -, ha, rfl⟩ | ⟨ws, -, hw, rfl⟩ | ⟨i, rfl⟩ |
    ⟨i, x, rfl⟩ := exec_next hr h
  · exact hs
  · exact stateOk_of_storeOk hs (storeOk_writeReg hstore ha v) rfl rfl rfl
  · exact stateOk_of_storeOk hs (storeOk_writeCoil hstore ha b) rfl rfl rfl
  · exact stateOk_applyWrites hs hw
  · obtain ⟨e, -, -, rfl⟩ := exec_connect_next h
    exact stateOk_setEngine hs rfl
  · exact stateOk_serve hs h

/-- The invariant is inductive: every step from a legal state leads to one. -/
theorem stateOk_step {s t : State} (hs : stateOk s = true) (h : step s = .next t) :
    stateOk t = true := by
  have hpop : stateOk s.popMove = true := hs
  obtain ⟨-, rfl⟩ | ⟨ins, -, hr, h⟩ | ⟨o, rfl⟩ | ⟨i, x, rest, -, h⟩ | ⟨i, rest, -, h⟩ |
    ⟨i, rest, -, h⟩ := step_next h
  · exact hpop
  · exact stateOk_exec hr hpop h
  · exact hpop
  · exact stateOk_receive hpop h
  · exact stateOk_advance hpop h
  · exact stateOk_deliver hpop h

/-! ### The reset coil -/

/-- A coil holds after a batch what it held before, or a value that the batch writes to it
(42_store_ports.md R226). -/
theorem readCoil_applyWrites {s : State} (hs : Memory.wf blankCoil s.co = true) (ws : List StoreWrite)
    (a : Half) : (s.applyWrites ws).readCoil a.toNat = s.readCoil a.toNat ∨
      .coil a ((s.applyWrites ws).readCoil a.toNat) ∈ ws := by
  induction ws generalizing s with
  | nil => exact .inl rfl
  | cons w ws ih =>
    cases w with
    | reg b v =>
      obtain h | h := ih (s := s.writeReg b.toNat v) hs
      · exact .inl h
      · exact .inr (List.mem_cons_of_mem _ h)
    | coil b v =>
      obtain h | h := ih (s := s.writeCoil b.toNat v) (Memory.wf_write _ hs _ _)
      · by_cases hb : a = b
        · subst hb
          have hv : (s.applyWrites (.coil a v :: ws)).readCoil a.toNat = v :=
            h.trans (State.readCoil_writeCoil_same hs _ _)
          exact .inr (by rw [hv]; exact List.mem_cons_self)
        · exact .inl (h.trans (State.readCoil_writeCoil_other s _ _ v
            fun ht => hb (BitVec.eq_of_toNat_eq ht)))
      · exact .inr (List.mem_cons_of_mem _ h)

/-- An engine's coil write never leaves the reset coil true where it was false (41_dispatch.md R190). -/
theorem readCoil_writeCoilStore_resetCoil {s : State} (hs : Memory.wf blankCoil s.co = true)
    (h0 : s.readCoil resetCoil = false) (i a : Nat) (b : Bool) :
    (writeCoilStore i a b s).readCoil resetCoil = false := by
  obtain ⟨-, -, h⟩ | ⟨-, -, h⟩ | ⟨ha, h⟩ := writeCoilStore_cases s i a b <;> rw [h]
  · exact State.readCoil_writeCoil_same (by rwa [resetSideEffect_co]) _ _
  · exact State.readCoil_writeCoil_same hs _ _
  · rw [State.readCoil_writeCoil_other s a _ b ha.symm, h0]

/-- Only the simulation port makes the reset coil true (10_state.md R36). -/
theorem resetCoil_writer {s t : State} (hs : stateOk s = true) (h : step s = .next t)
    (h0 : s.readCoil 10 = false) (h1 : t.readCoil 10 = true) :
    fetch s = .instr (.stWriteCoil 10 true) ∨
    ∃ ws, fetch s = .instr (.stBatch ws) ∧ StoreWrite.coil 10 true ∈ ws := by
  obtain ⟨-, -, hwf, -⟩ := (storeOk_iff s).mp (storeOk_of_stateOk hs)
  obtain ⟨-, hco, -⟩ | ⟨a, v, -, -, hco, -⟩ | ⟨a, b, hf, -, hco, -⟩ | ⟨ws, hf, -, hco, -⟩ |
    ⟨i, a, q, -, -, hco, -⟩ := step_store h <;> rw [State.readCoil_congr hco] at h1
  · simp [h0] at h1
  · rw [State.readCoil_congr (s.writeReg_co _ _), h0] at h1
    cases h1
  · by_cases ha : a = 10
    · subst ha
      obtain rfl : b = true := (State.readCoil_writeCoil_same hwf _ b).symm.trans h1
      exact .inl hf
    · rw [State.readCoil_writeCoil_other s _ 10 b fun ht => ha (BitVec.eq_of_toNat_eq ht.symm), h0] at h1
      cases h1
  · obtain hsame | hmem : _ ∨ _ := readCoil_applyWrites hwf ws 10
    · rw [show (10 : Half).toNat = 10 from rfl, h1, h0] at hsame
      cases hsame
    · rw [show (10 : Half).toNat = 10 from rfl, h1] at hmem
      exact .inr ⟨ws, hf, hmem⟩
  · rw [show (10 : Nat) = resetCoil from rfl, readCoil_writeCoilStore_resetCoil hwf h0] at h1
    cases h1

/-! ### Runs that keep the simulation's duties -/

/-- No codec operation is the simulation's. -/
theorem keepsDuties_of_isCodec {ins : Instr} (h : Instr.isCodec ins = true) :
    Instr.keepsDuties ins = true := by
  cases ins with
  | stWriteReg | stWriteCoil | stBatch => cases h
  | _ => rfl

/-- No request is the simulation's. -/
theorem keepsDuties_of_isRequest {ins : Instr} (h : Instr.isRequest ins = true) :
    Instr.keepsDuties ins = true := by
  cases ins with
  | stWriteReg | stWriteCoil | stBatch => cases h
  | _ => rfl

/-- Where every move to come keeps the duties, so does the instruction fetched. -/
theorem keepsDuties_of_fetch {s : State} {ins : Instr} (hs : s.keepsDuties = true)
    (hf : fetch s = .instr ins) : Instr.keepsDuties ins = true := by
  unfold fetch at hf
  split at hf
  · cases hf
  · rename_i m rest ha
    have hm : m.keepsDuties = true := List.all_eq_true.mp hs m (by simp [ha])
    cases m with
    | command op args =>
      simp only [fetchMove, decode] at hf
      cases hi : commandInstr op args with
      | none => simp [hi] at hf
      | some ins' =>
        simp only [hi] at hf
        injection hf with hf
        simpa only [Move.keepsDuties, hi, hf] using hm
    | response f =>
      simp only [fetchMove] at hf
      split at hf <;> cases hf
      exact keepsDuties_of_isCodec (responseInstr_isCodec _)
    | advance i =>
      simp only [fetchMove] at hf
      split at hf
      · cases hf
      · split at hf <;> cases hf
        exact keepsDuties_of_isRequest (requestInstr_isRequest _ _)
    | offer i x => cases hf
    | take i => cases hf

theorem not_keepsDuties_resetCoil_batch {ws : List StoreWrite} {b : Bool}
    (h : StoreWrite.coil 10 b ∈ ws) : Instr.keepsDuties (.stBatch ws) = false := by
  rw [← Bool.not_eq_true]
  intro hk
  simp only [Instr.keepsDuties, Bool.and_eq_true] at hk
  obtain ⟨-, hcoils⟩ := hk
  exact absurd (List.all_eq_true.mp hcoils _ h) (by simp [resetCoil])

theorem stateDutiful_iff (s : State) : stateDutiful s = true ↔
    stateOk s = true ∧ s.keepsDuties = true ∧ s.readCoil 10 = false := by
  simp only [stateDutiful, Bool.and_eq_true, Bool.not_eq_true', and_assoc, resetCoil]

/-- Where the simulation keeps its duties, no step makes the reset coil true (42_store_ports.md R228 (d)). -/
theorem resetCoil_false_of_dutiful {s t : State} (hs : stateDutiful s = true)
    (h : step s = .next t) : t.readCoil 10 = false := by
  obtain ⟨hok, hkeeps, h0⟩ := (stateDutiful_iff s).mp hs
  rw [← Bool.not_eq_true]
  intro h1
  obtain hf | ⟨ws, hf, hmem⟩ := resetCoil_writer hok h h0 h1
  · exact absurd (keepsDuties_of_fetch hkeeps hf) (by decide)
  · have hk := keepsDuties_of_fetch hkeeps hf
    rw [not_keepsDuties_resetCoil_batch hmem] at hk
    cases hk

theorem stateDutiful_step {s t : State} (hs : stateDutiful s = true) (h : step s = .next t) :
    stateDutiful t = true := by
  obtain ⟨hok, hkeeps, -⟩ := (stateDutiful_iff s).mp hs
  refine (stateDutiful_iff t).mpr ⟨stateOk_step hok h, ?_, resetCoil_false_of_dutiful hs h⟩
  obtain ⟨-, -, hagenda⟩ := step_sameControl h
  rw [State.keepsDuties, hagenda, List.all_eq_true]
  exact fun m hm => List.all_eq_true.mp hkeeps m (List.mem_of_mem_tail hm)

/-- Settles O57: `resetCoil_writer` from legal states, and the invariant of the dutiful runs. -/
theorem onlyTheSimulationSetsTheResetCoil : Obligations.OnlyTheSimulationSetsTheResetCoil := by
  refine ⟨fun s t => resetCoil_writer, fun s hs => ?_⟩
  obtain ⟨-, hkeeps, -⟩ := (stateDutiful_iff s).mp hs
  exact ⟨fun ins => keepsDuties_of_fetch hkeeps,
    fun t h => ⟨stateDutiful_step hs h, resetCoil_false_of_dutiful hs h⟩⟩

end Sys2Proof.Machine

/-! PROOFS. No step of a legal state faults (41_dispatch.md R182, R196): Execute finds its cells and its
case, Respond finds its case, and no other operation has a fault at all. -/

namespace Sys2Proof.Machine

/-! ### The engine's own step, phase by phase (41_dispatch.md R180) -/

section Phases

variable {i : Nat} {e : Engine} {s : State}

/-- Validate decodes the received frame (R185). -/
theorem advance_of_received_ok {hd : Header} (he : s.engine? i = some e) (hp : e.phase = .received)
    (hk : checkHeader e.rx = .ok hd) : advance i s = .next (validate i e (decodedRequest hd) s) := by
  simp only [advance, he, pending, hp, hk, runRequest_eq_requestStep, requestStep]

/-- A framing error closes the connection (R199). -/
theorem advance_of_received_error {k : FrameError} (he : s.engine? i = some e)
    (hp : e.phase = .received) (hk : checkHeader e.rx = .error k) :
    advance i s = .next (closeEngine i e (frameCloseReason k) s) := by
  simp only [advance, he, pending, hp, hk]

/-- Execute runs the rule of the latched function code (R182). -/
theorem advance_of_validated_none (he : s.engine? i = some e) (hp : e.phase = .validated)
    (hx : e.exc = none) : advance i s = executeRule e.fc i e s := by
  simp only [advance, he, pending, hp, runRequest_eq_requestStep, requestStep, hx]

/-- An exception skips Execute (R196). -/
theorem advance_of_validated_some {code : Byte} (he : s.engine? i = some e)
    (hp : e.phase = .validated) (hx : e.exc = some code) : advance i s = respond i e s := by
  simp only [advance, he, pending, hp, runRequest_eq_requestStep, requestStep, hx]

theorem advance_of_executed (he : s.engine? i = some e) (hp : e.phase = .executed) :
    advance i s = respond i e s := by
  simp only [advance, he, pending, hp, runRequest_eq_requestStep, requestStep]

/-- In every other phase the engine waits for the host (70_reset_and_hazards.md R281). -/
theorem advance_of_waiting (he : s.engine? i = some e)
    (hp : e.phase = .closed ∨ e.phase = .idle ∨ e.phase = .responded) : advance i s = .next s := by
  obtain hp | hp | hp := hp <;> simp only [advance, he, pending, hp]

end Phases

/-! ### What validation lets through -/

theorem inRange_iff (size start n : Nat) : inRange size start n = true ↔ start + n ≤ size :=
  decide_eq_true_iff

/-- A read passes where its count is within the limit and its cells exist (R183, R184). -/
theorem validateRead_eq_none_iff (size limit : Nat) (a q : Half) :
    validateRead size limit a q = none ↔
      1 ≤ q.toNat ∧ q.toNat ≤ limit ∧ a.toNat + q.toNat ≤ size := by
  unfold validateRead
  split
  · simp only [reduceCtorEq, false_iff]
    omega
  · split <;> rename_i hr <;> simp only [inRange_iff] at hr
    · simp only [true_iff]
      omega
    · simp only [reduceCtorEq, false_iff]
      omega

/-- A coil write passes only for a coil that exists (R184). -/
theorem coil_lt_of_validateWriteCoil {c : Config} {a q : Half}
    (h : validateWriteCoil c a q = none) : a.toNat < c.coilSize := by
  unfold validateWriteCoil at h
  split at h
  · split at h
    · rename_i hr
      exact (inRange_iff _ _ _).mp hr
    · cases h
  · cases h

theorem supportedFc_cases {fc : Byte} (h : supportedFc fc = true) :
    fc = 0x01 ∨ fc = 0x02 ∨ fc = 0x03 ∨ fc = 0x04 ∨ fc = 0x05 := by
  simp only [supportedFc, Bool.and_eq_true, decide_eq_true_eq] at h
  bv_omega

theorem latchesValid_iff (c : Config) (e : Engine) : latchesValid c e = true ↔
    kindFits e = true ∧ unitAccepted c e.unit = true ∧
    e.exc = validateRequest c (latchedRequest e) := by
  simp only [latchesValid, Bool.and_eq_true, beq_iff_eq, and_assoc]

/-- The latches that Execute meets: a coil read, a register read or a coil write of cells that exist
(R182). -/
theorem executable_cases {c : Config} {e : Engine} (h : latchesValid c e = true)
    (hx : e.exc = none) :
    (e.kind = .read ∧ (e.fc = 0x01 ∨ e.fc = 0x02) ∧ e.a.toNat + e.q.toNat ≤ c.coilSize) ∨
    (e.kind = .read ∧ (e.fc = 0x03 ∨ e.fc = 0x04) ∧ e.a.toNat + e.q.toNat ≤ c.hrSize) ∨
    (e.kind = .writeCoil ∧ e.fc = 0x05 ∧ e.a.toNat < c.coilSize) := by
  obtain ⟨hkind, -, hval⟩ := (latchesValid_iff c e).mp h
  rw [hx] at hval
  cases hk : e.kind <;> simp only [kindFits, latchedRequest, validateRequest, hk] at hkind hval
  case read =>
    simp only [Bool.and_eq_true, bne_iff_ne] at hkind
    obtain ⟨hs, h5⟩ := hkind
    split at hval <;> rename_i hfc <;>
      obtain ⟨-, -, hcells⟩ := (validateRead_eq_none_iff _ _ _ _).mp hval.symm
    · exact .inl ⟨rfl, hfc, hcells⟩
    · have h34 : e.fc = 0x03 ∨ e.fc = 0x04 := by
        have := supportedFc_cases hs
        tauto
      exact .inr (.inl ⟨rfl, h34, hcells⟩)
  case writeCoil => exact .inr (.inr ⟨rfl, beq_iff_eq.mp hkind, coil_lt_of_validateWriteCoil hval.symm⟩)
  case unknown | malformed => cases hval

/-! ### Execute and Respond complete on legal latches -/

/-- Execute of a register read latches the addressed registers (R182). -/
theorem executeRule_regRead {e : Engine} {s : State} (i : Nat) (hk : e.kind = .read)
    (hf : e.fc = 0x03 ∨ e.fc = 0x04) (hr : e.a.toNat + e.q.toNat ≤ s.cfg.hrSize) :
    executeRule e.fc i e s = .next (s.setEngine i
      { e with res := .regs (s.readRegs e.a.toNat e.q.toNat), phase := .executed }) := by
  have hin : inRange s.cfg.hrSize e.a.toNat e.q.toNat = true := (inRange_iff _ _ _).mpr hr
  obtain hf | hf := hf <;>
    simp [executeRule, hf, executeFor, hk, executeRegRead, hin, finishExecute]

/-- Execute of a coil read latches the addressed coils (R182). -/
theorem executeRule_coilRead {e : Engine} {s : State} (i : Nat) (hk : e.kind = .read)
    (hf : e.fc = 0x01 ∨ e.fc = 0x02) (hr : e.a.toNat + e.q.toNat ≤ s.cfg.coilSize) :
    executeRule e.fc i e s = .next (s.setEngine i
      { e with res := .coils (s.readCoils e.a.toNat e.q.toNat), phase := .executed }) := by
  have hin : inRange s.cfg.coilSize e.a.toNat e.q.toNat = true := (inRange_iff _ _ _).mpr hr
  obtain hf | hf := hf <;>
    simp [executeRule, hf, executeFor, hk, executeCoilRead, hin, finishExecute]

/-- Execute of a coil write writes the store and latches the acknowledgment (R182, R190). -/
theorem executeRule_coilWrite {e : Engine} {s : State} (i : Nat) (hk : e.kind = .writeCoil)
    (hf : e.fc = 0x05) (ha : e.a.toNat < s.cfg.coilSize) :
    executeRule e.fc i e s = .next ((writeCoilStore i e.a.toNat (coilBool e.q) s).setEngine i
      { e with res := .ack, phase := .executed }) := by
  have hin : inRange s.cfg.coilSize e.a.toNat 1 = true := (inRange_iff _ _ _).mpr ha
  simp [executeRule, hf, executeFor, hk, executeCoilWrite, hin, finishExecute]

theorem executeRule_completes {e : Engine} {s : State} (i : Nat)
    (h : latchesValid s.cfg e = true) (hx : e.exc = none) :
    ∃ t, executeRule e.fc i e s = .next t := by
  obtain ⟨hk, hf, hr⟩ | ⟨hk, hf, hr⟩ | ⟨hk, hf, ha⟩ := executable_cases h hx
  · exact ⟨_, executeRule_coilRead i hk hf hr⟩
  · exact ⟨_, executeRule_regRead i hk hf hr⟩
  · exact ⟨_, executeRule_coilWrite i hk hf ha⟩

/-- Respond faults only where the latches fit no case of R196. -/
theorem respond_fault {i : Nat} {e : Engine} {s : State} {r : Fault}
    (h : respond i e s = .fault r) : engineResponse e = none := by
  unfold respond at h
  split at h
  · assumption
  · split at h <;> cases h

/-- The results that fit a latched request: coils, registers or an acknowledgment, by kind and function
code (R182). -/
theorem resultFits_cases {e : Engine} (h : resultFits e = true) :
    (e.kind = .read ∧ (e.fc = 0x01 ∨ e.fc = 0x02) ∧ ∃ bs, e.res = .coils bs) ∨
    (e.kind = .read ∧ (e.fc = 0x03 ∨ e.fc = 0x04) ∧ ∃ vs, e.res = .regs vs) ∨
    (e.kind = .writeCoil ∧ e.fc = 0x05 ∧ e.res = .ack) := by
  unfold resultFits at h
  split at h <;> rename_i hk hres
  · simp only [Bool.and_eq_true, Bool.or_eq_true, beq_iff_eq] at h
    exact .inl ⟨hk, h.1, _, hres⟩
  · simp only [Bool.and_eq_true, Bool.or_eq_true, beq_iff_eq] at h
    exact .inr (.inl ⟨hk, h.1, _, hres⟩)
  · exact .inr (.inr ⟨hk, beq_iff_eq.mp h, hres⟩)
  · cases h

/-- An exception has a response, and so has a result that fits the latched request (R196). -/
theorem engineResponse_ne_none {e : Engine} (h : e.exc ≠ none ∨ resultFits e = true) :
    engineResponse e ≠ none := by
  unfold engineResponse
  cases hx : e.exc with
  | some code => simp
  | none =>
    obtain ⟨hk, hf, bs, hr⟩ | ⟨hk, hf, vs, hr⟩ | ⟨hk, hf, hr⟩ :=
      resultFits_cases (h.resolve_left fun hne => hne hx) <;>
      simp only [successResponse, hk, hr, if_pos hf, ne_eq, reduceCtorEq, not_false_eq_true]

/-! ### One step of the machine -/

theorem advance_not_fault {i : Nat} {s : State} (hs : stateOk s = true) (r : Fault) :
    advance i s ≠ .fault r := by
  intro h
  cases he : s.engine? i with
  | none => simp [advance, he] at h
  | some e =>
    have hok := engineOk_of_stateOk hs he
    cases hp : e.phase with
    | closed | idle | responded =>
      rw [advance_of_waiting he (by simp [hp])] at h
      cases h
    | received =>
      cases hk : checkHeader e.rx with
      | ok hd => rw [advance_of_received_ok he hp hk] at h; cases h
      | error k => rw [advance_of_received_error he hp hk] at h; cases h
    | validated =>
      obtain ⟨-, hlatches⟩ := (engineOk_validated_iff hp).mp hok
      cases hx : e.exc with
      | none =>
        obtain ⟨t, ht⟩ := executeRule_completes i hlatches hx
        rw [advance_of_validated_none he hp hx, ht] at h
        cases h
      | some code =>
        rw [advance_of_validated_some he hp hx] at h
        exact engineResponse_ne_none (.inl (by simp [hx])) (respond_fault h)
    | executed =>
      obtain ⟨-, -, -, hres⟩ := (engineOk_executed_iff hp).mp hok
      rw [advance_of_executed he hp] at h
      exact engineResponse_ne_none (.inr hres) (respond_fault h)

theorem receive_not_fault (i : Nat) (x : PortInput) (s : State) (r : Fault) :
    receive i x s ≠ .fault r := by
  unfold receive
  split
  · simp
  · split
    · cases x <;> simp
    · simp

theorem deliver_not_fault (i : Nat) (s : State) (r : Fault) : deliver i s ≠ .fault r := by
  unfold deliver
  split
  · simp
  · split <;> simp

/-- Two steps one after another fault only where one of them does. -/
theorem andThen_not_fault {r : Result} {f : State → Result} {x : Fault} (h : r ≠ .fault x)
    (hf : ∀ s, r = .next s → f s ≠ .fault x) : andThen r f ≠ .fault x := by
  cases r with
  | next s => exact hf s rfl
  | fault y => exact h
  | refused y => simp [andThen]

/-- SERVE does not fault: each of its steps starts in a legal state (R201). -/
theorem serve_not_fault {i : Nat} {x : PortInput} {s : State} (hs : stateOk s = true) (r : Fault) :
    exec (.serve i x) s ≠ .fault r := by
  refine andThen_not_fault (receive_not_fault i x s r) fun s₀ h₀ => ?_
  have hs₀ := stateOk_receive hs h₀
  refine andThen_not_fault (advance_not_fault hs₀ r) fun s₁ h₁ => ?_
  have hs₁ := stateOk_advance hs₀ h₁
  refine andThen_not_fault (advance_not_fault hs₁ r) fun s₂ h₂ => ?_
  refine andThen_not_fault (advance_not_fault (stateOk_advance hs₁ h₂) r) fun s₃ _ => ?_
  split
  · exact deliver_not_fault i s₃ r
  · simp

/-- Of the instructions that a command or a response frame stands for, only SERVE could fault. -/
theorem exec_not_fault {ins : Instr} {s : State} (hr : Instr.isRequest ins = false)
    (hs : stateOk s = true) (r : Fault) : exec ins s ≠ .fault r := by
  by_cases hc : Instr.isCodec ins = true
  · obtain ⟨o, ho⟩ | ho := exec_codec hc <;> simp [ho]
  cases ins with
  | stReadRegs start count | stReadCoils start count | stWriteReg a v | stWriteCoil a b | stBatch ws =>
    simp only [exec, execStReadRegs, execStReadCoils, execStWriteReg, execStWriteCoil, execStBatch]
    split <;> simp
  | connect i =>
    simp only [exec, execConnect]
    split
    · simp
    · split <;> simp
  | serve i x => exact serve_not_fault hs r
  | reservedOp op => simp [exec, execReservedOp]
  | readCoils | readDiscreteInputs | readHoldingRegisters | readInputRegisters | writeSingleCoil
  | illegalFunction => cases hr
  | _ => exact absurd rfl hc

/-- Settles O50: `stateOk_step`, the case split over the moves. -/
theorem everyStepKeepsLegalStates : Obligations.EveryStepKeepsLegalStates :=
  fun _ _ => stateOk_step

/-- Settles O51: by the move the step takes up. -/
theorem legalStatesNeverFault : Obligations.LegalStatesNeverFault := by
  intro s hs r
  have hpop : stateOk s.popMove = true := hs
  obtain ⟨hc, -⟩ := (stateOk_iff s).mp hs
  cases ha : s.agenda with
  | nil => simp [step, hc, fetch, ha, runFetched]
  | cons m rest =>
    cases m with
    | command op args =>
      simp only [step, hc, if_true, fetch, ha, fetchMove, decode]
      cases hi : commandInstr op args with
      | none => simp [runFetched]
      | some ins => exact exec_not_fault (commandInstr_not_isRequest hi) hpop r
    | response f =>
      simp only [step, hc, if_true, fetch, ha, fetchMove]
      cases hk : checkHeader f with
      | error k => simp [runFetched]
      | ok hd =>
        obtain ⟨o, ho⟩ | ho := exec_codec (responseInstr_isCodec hd) <;> simp [runFetched, ho]
    | offer i x =>
      simp only [step, hc, if_true, fetch, ha, fetchMove, runFetched]
      exact receive_not_fault i x _ r
    | advance i =>
      rw [step_advance hc ha]
      exact advance_not_fault hpop r
    | take i =>
      simp only [step, hc, if_true, fetch, ha, fetchMove, runFetched]
      exact deliver_not_fault i _ r

end Sys2Proof.Machine

/-! PROOFS. Reading the store: the simulation port's reads (20_memory.md R82), and one SERVE of a register
read, with the bytes of a 32-bit pair (20_memory.md R69). -/

namespace Sys2Proof.Machine

/-! ### The simulation port's reads -/

/-- What ST_READ_REGS puts out (42_store_ports.md R222). -/
def stReadRegsOutput (start count : Half) (s : State) : Output :=
  if inRange s.cfg.hrSize start.toNat count.toNat then .regs (s.readRegs start.toNat count.toNat)
  else .outOfRange

/-- What ST_READ_COILS puts out (42_store_ports.md R224). -/
def stReadCoilsOutput (start count : Half) (s : State) : Output :=
  if inRange s.cfg.coilSize start.toNat count.toNat then
    .coils (s.readCoils start.toNat count.toNat)
  else .outOfRange

theorem exec_stReadRegs (start count : Half) (s : State) :
    exec (.stReadRegs start count) s = .next (s.emit (stReadRegsOutput start count s)) := by
  simp only [exec, execStReadRegs, stReadRegsOutput]
  split <;> rfl

theorem exec_stReadCoils (start count : Half) (s : State) :
    exec (.stReadCoils start count) s = .next (s.emit (stReadCoilsOutput start count s)) := by
  simp only [exec, execStReadCoils, stReadCoilsOutput]
  split <;> rfl

/-- An operation that only puts out a result which no output changes repeats its result. -/
theorem outputOnly_repeats {ins : Instr} {out : State → Output}
    (hexec : ∀ s, exec ins s = .next (s.emit (out s))) (hout : ∀ s o, out (s.emit o) = out s)
    (s : State) :
    ∃ o t, exec ins s = .next t ∧ t.outputs = s.outputs ++ [o] ∧ OnlyOutputs s t ∧
      ∃ u, exec ins t = .next u ∧ u.outputs = s.outputs ++ [o, o] := by
  refine ⟨out s, _, hexec s, rfl, onlyOutputs_emit s _, _, hexec _, ?_⟩
  rw [hout]
  simp

/-- Settles O47: the two reads only put out a result, which they read from the configuration and the
store. -/
theorem storeReadsRepeat : Obligations.StoreReadsRepeat := fun s start count =>
  ⟨outputOnly_repeats (exec_stReadRegs start count) (fun _ _ => rfl) s,
    outputOnly_repeats (exec_stReadCoils start count) (fun _ _ => rfl) s⟩

/-! ### SERVE of a register read -/

theorem State.setEngine_setEngine (s : State) (i : Nat) (e e' : Engine) :
    (s.setEngine i e).setEngine i e' = s.setEngine i e' := by
  simp only [State.setEngine, List.set_set]

theorem encodeReadRequest_eq_adu (tid : Half) (unit fc : Byte) (a q : Half) :
    encodeReadRequest tid unit fc a q = adu tid unit (fc :: (u16be a ++ u16be q)) := by
  have hlen : u16be (BitVec.ofNat 16 6) = [0x00, 0x06] := by decide
  simp [encodeReadRequest, adu, hlen]

/-- ENC_READ_REQ's frame passes the header check with the fields it was given (40_codec.md R152). -/
theorem checkHeader_encodeReadRequest (tid : Half) (unit fc : Byte) (a q : Half) :
    checkHeader (encodeReadRequest tid unit fc a q) = .ok ⟨tid, unit, fc, u16be a ++ u16be q⟩ := by
  rw [encodeReadRequest_eq_adu]
  exact checkHeader_adu tid unit fc _ (by simp)

/-- A request with a supported code and two fields is a read, but for a coil write's code
(40_codec.md R150, R151). -/
theorem decodedRequest_read {fc : Byte} (hs : supportedFc fc = true) (h5 : fc ≠ 0x05) (tid : Half)
    (unit : Byte) (a q : Half) :
    decodedRequest ⟨tid, unit, fc, u16be a ++ u16be q⟩ = ⟨tid, unit, fc, .read a q⟩ := by
  simp only [decodedRequest, hs, if_true, pduArgs_fields, requestBody, if_neg h5]

theorem unitAccepted_iff (c : Config) (unit : Byte) :
    unitAccepted c unit = true ↔ ∀ u, c.acceptUnit = some u → unit = u := by
  unfold unitAccepted
  cases c.acceptUnit <;> simp

/-- Validate of a request that passes: the latches are written and nothing else (41_dispatch.md R185). -/
theorem validate_of_valid {i : Nat} {e : Engine} {r : DecodedRequest} {s : State}
    (hu : unitAccepted s.cfg r.unit = true) (hv : validateRequest s.cfg r = none) :
    validate i e r s = (s.afterLatch r).setEngine i
      { e.latch r s.freeCount with exc := none, phase := .validated } := by
  simp only [validate, hu, hv, if_true]

/-- Respond of a response that can be encoded (41_dispatch.md R196). -/
theorem respond_of_encoded {e : Engine} {r : Response} {f : Frame} (i : Nat) (s : State)
    (hr : engineResponse e = some r) (hf : encodeResponse r = some f) :
    respond i e s = .next (s.setEngine i { e with tx := f, phase := .responded }) := by
  simp only [respond, hr, hf]

/-- The response frame of a register read with values `vs` (30_encoding.md R108). -/
def regsFrame (tid : Half) (unit fc : Byte) (vs : List Half) : Frame :=
  adu tid unit (fc :: BitVec.ofNat 8 (2 * vs.length) :: regBytes vs)

/-- The register response of at most 127 values (40_codec.md R157). -/
theorem encodeResponse_regs {vs : List Half} (h : 2 * vs.length ≤ 255) (tid : Half) (unit fc : Byte) :
    encodeResponse (.regs tid unit fc vs) = some (regsFrame tid unit fc vs) := by
  simp only [encodeResponse, regsPdu, if_neg (Nat.not_lt.mpr h), Option.map_some, regsFrame]

/-- SERVE runs through where each of its five steps does (41_dispatch.md R201). -/
theorem exec_serve_of_steps {i : Nat} {x : PortInput} {s s₀ s₁ s₂ s₃ t : State} {e : Engine}
    (h₀ : receive i x s = .next s₀) (h₁ : advance i s₀ = .next s₁) (h₂ : advance i s₁ = .next s₂)
    (h₃ : advance i s₂ = .next s₃) (he : s₃.engine? i = some e) (hp : e.phase = .responded)
    (h₄ : deliver i s₃ = .next t) : exec (.serve i x) s = .next t := by
  have hdone : isResponded i s₃ = true := by simp [isResponded, he, hp]
  simp only [exec, execServe, finishExchange, andThen, h₀, h₁, h₂, h₃, hdone, if_true, h₄]

/-- Receive of a frame by an Idle engine (41_dispatch.md R181). -/
theorem receive_frame_of_idle {i : Nat} {e : Engine} {s : State} (he : s.engine? i = some e)
    (hp : e.phase = .idle) (f : Frame) :
    receive i (.frame f) s = .next (s.setEngine i { e with rx := f, phase := .received }) := by
  simp only [receive, he, hp, if_true]

/-- Deliver from a Responded engine (41_dispatch.md R197). -/
theorem deliver_of_responded {i : Nat} {e : Engine} {s : State} (he : s.engine? i = some e)
    (hp : e.phase = .responded) : deliver i s = .next (returnToIdle i e s) := by
  simp only [deliver, he, hp, if_true]

/-- The engine once it has received `f`, a read of `q` cells from `a` on, and Validate has latched it
(41_dispatch.md R185). -/
def Engine.latchRead (e : Engine) (f : Frame) (tid : Half) (unit fc : Byte) (a q : Half) : Engine :=
  { e with rx := f, tid := tid, unit := unit, fc := fc, kind := .read, a := a, q := q, exc := none,
           phase := .validated }

section RegRead

variable {s : State} {i : Nat} {e : Engine} {fc : Byte} (hfc : fc = 0x03 ∨ fc = 0x04)
include hfc

/-- Validate of a register read that asks for 1 to 125 existing cells (41_dispatch.md R183, R184). -/
theorem advance_validates_regRead {tid : Half} {unit : Byte} {a q : Half}
    (he : s.engine? i = some e) (hu : unitAccepted s.cfg unit = true) (hq : 1 ≤ q.toNat)
    (hq' : q.toNat ≤ 125) (hr : a.toNat + q.toNat ≤ s.cfg.hrSize) :
    let f := encodeReadRequest tid unit fc a q
    advance i (s.setEngine i { e with rx := f, phase := .received }) =
      .next (s.setEngine i (e.latchRead f tid unit fc a q)) := by
  intro f
  have hreq : decodedRequest ⟨tid, unit, fc, u16be a ++ u16be q⟩ = ⟨tid, unit, fc, .read a q⟩ := by
    obtain rfl | rfl := hfc <;> exact decodedRequest_read (by decide) (by decide) tid unit a q
  have hvalid : validateRequest s.cfg ⟨tid, unit, fc, .read a q⟩ = none := by
    have hregs := (validateRead_eq_none_iff s.cfg.hrSize maxRegs a q).mpr ⟨hq, hq', hr⟩
    obtain rfl | rfl := hfc <;> exact hregs
  rw [advance_of_received_ok (State.engine?_setEngine_of_some he _) rfl
    (checkHeader_encodeReadRequest tid unit fc a q), hreq,
    validate_of_valid (by exact hu) (by exact hvalid)]
  exact congrArg _ (s.setEngine_setEngine i _ _)

/-- Respond of an executed register read of at most 127 values (41_dispatch.md R196). -/
theorem advance_responds_regs {vs : List Half} (he : s.engine? i = some e) (hp : e.phase = .executed)
    (hx : e.exc = none) (hk : e.kind = .read) (hf : e.fc = fc) (hres : e.res = .regs vs)
    (hlen : 2 * vs.length ≤ 255) : advance i s = .next (s.setEngine i
      { e with tx := regsFrame e.tid e.unit e.fc vs, phase := .responded }) := by
  have hresp : engineResponse e = some (.regs e.tid e.unit e.fc vs) := by
    rw [← hf] at hfc
    simp only [engineResponse, hx, successResponse, hk, hres, if_pos hfc]
  rw [advance_of_executed he hp,
    respond_of_encoded i s hresp (encodeResponse_regs hlen e.tid e.unit e.fc)]

/-- SERVE of a register read that passes validation (41_dispatch.md R188, R189): the values of the
addressed registers are latched and answered, and nothing but the engine and the outputs changes. -/
theorem exec_serve_regRead {tid : Half} {unit : Byte} {a q : Half} (he : s.engine? i = some e)
    (hp : e.phase = .idle) (hu : unitAccepted s.cfg unit = true) (hq : 1 ≤ q.toNat)
    (hq' : q.toNat ≤ 125) (hr : a.toNat + q.toNat ≤ s.cfg.hrSize) :
    let f := encodeReadRequest tid unit fc a q
    let vs := s.readRegs a.toNat q.toNat
    exec (.serve i (.frame f)) s = .next ((s.setEngine i
      { e.latchRead f tid unit fc a q with
        res := .regs vs, tx := regsFrame tid unit fc vs, phase := .idle }).emit
          (.tx i (regsFrame tid unit fc vs))) := by
  intro f vs
  have holds (e' : Engine) : (s.setEngine i e').engine? i = some e' :=
    State.engine?_setEngine_of_some he e'
  have hlen : 2 * vs.length ≤ 255 := by
    rw [State.readRegs_length]
    omega
  have executed := (advance_of_validated_none (holds (e.latchRead f tid unit fc a q)) rfl rfl).trans
    (executeRule_regRead i rfl hfc hr)
  rw [State.setEngine_setEngine] at executed
  have responded := advance_responds_regs hfc
    (holds { e.latchRead f tid unit fc a q with res := .regs vs, phase := .executed })
    rfl rfl rfl rfl rfl hlen
  rw [State.setEngine_setEngine] at responded
  have delivered := deliver_of_responded (holds { e.latchRead f tid unit fc a q with
    res := .regs vs, tx := regsFrame tid unit fc vs, phase := .responded }) rfl
  rw [returnToIdle, State.setEngine_setEngine] at delivered
  exact exec_serve_of_steps (receive_frame_of_idle he hp f)
    (advance_validates_regRead hfc he hu hq hq' hr) executed responded (holds _) rfl delivered

end RegRead

/-! ### The bytes of a 32-bit pair -/

theorem lowWord_composeWords (lo hi : Half) : lowWord (composeWords lo hi) = lo := by
  apply BitVec.eq_of_getLsbD_eq
  intro k hk
  simp only [lowWord, composeWords, BitVec.getLsbD_extractLsb', BitVec.getLsbD_or,
    BitVec.getLsbD_shiftLeft, BitVec.getLsbD_setWidth]
  simp [hk, show k < 32 by omega]

theorem highWord_composeWords (lo hi : Half) : highWord (composeWords lo hi) = hi := by
  apply BitVec.eq_of_getLsbD_eq
  intro k hk
  have hlo : lo.getLsbD (16 + k) = false := BitVec.getLsbD_of_ge _ _ (by omega)
  simp only [highWord, composeWords, BitVec.getLsbD_extractLsb', BitVec.getLsbD_or,
    BitVec.getLsbD_shiftLeft, BitVec.getLsbD_setWidth, hlo]
  simp [hk, show 16 + k < 32 by omega, show k < 32 by omega]

/-- The words of a 32-bit value on the wire, low word first, each high byte first (20_memory.md R68). -/
theorem regBytes_words (v : Double) : regBytes [lowWord v, highWord v] =
    [v.extractLsb' 8 8, v.extractLsb' 0 8, v.extractLsb' 24 8, v.extractLsb' 16 8] := by
  have sub (lo start n : Nat) (h : start + n ≤ 16) :
      (v.extractLsb' lo 16).extractLsb' start n = v.extractLsb' (lo + start) n := by
    ext k hk
    simp [BitVec.getElem_extractLsb', show start + k < 16 by omega, Nat.add_assoc]
  simp only [regBytes, List.flatMap_cons, List.flatMap_nil, u16be, lowWord, highWord]
  simp [sub]

/-- Settles O37: `exec_serve_regRead` with a count of 2, and the bytes of the two words. -/
theorem pairsGoLowWordFirst : Obligations.PairsGoLowWordFirst := by
  intro s i e tid unit fc b v he hp hu hfc hb hv
  refine ⟨_, exec_serve_regRead hfc he hp ((unitAccepted_iff _ _).mpr hu) (by decide) (by decide) hb,
    ?_⟩
  have hlo : s.readReg b.toNat = lowWord v := hv ▸ (lowWord_composeWords _ _).symm
  have hhi : s.readReg (b.toNat + 1) = highWord v := hv ▸ (highWord_composeWords _ _).symm
  have hvs : s.readRegs b.toNat (2 : Half).toNat = [lowWord v, highWord v] := by
    rw [← hlo, ← hhi]
    rfl
  have hframe : regsFrame tid unit fc [lowWord v, highWord v] =
      u16be tid ++ [0x00, 0x00, 0x00, 0x07, unit, fc, 0x04] ++ regBytes [lowWord v, highWord v] := by
    have hlen : u16be (BitVec.ofNat 16 7) = [0x00, 0x07] := by decide
    simp [regsFrame, adu, hlen]
  rw [hvs, hframe, regBytes_words]
  rfl

end Sys2Proof.Machine

/-! PROOFS. A register read beside a batch that writes a 32-bit pair (20_memory.md R81), and the steps
that change a pair where the simulation keeps its duties (42_store_ports.md R228). -/

namespace Sys2Proof.Machine

/-! ### The registers after a batch (42_store_ports.md R226) -/

theorem wf_hr_of_storeOk {s : State} (hs : storeOk s = true) : Memory.wf blankReg s.hr = true := by
  obtain ⟨hwf, -⟩ := (storeOk_iff s).mp hs
  exact hwf

theorem wf_hr_applyWrites {s : State} (hs : Memory.wf blankReg s.hr = true) (ws : List StoreWrite) :
    Memory.wf blankReg (s.applyWrites ws).hr = true := by
  induction ws generalizing s with
  | nil => exact hs
  | cons w ws ih =>
    refine ih (s := s.applyWrite w) ?_
    cases w with
    | reg a v => exact Memory.wf_write blankReg hs a.toNat v
    | coil a b => exact hs

/-- A register that a batch does not name keeps its value. -/
theorem readReg_applyWrites_of_not_mem (s : State) {ws : List StoreWrite} {a : Half}
    (h : ∀ v, StoreWrite.reg a v ∉ ws) : (s.applyWrites ws).readReg a.toNat = s.readReg a.toNat := by
  induction ws generalizing s with
  | nil => rfl
  | cons w ws ih =>
    refine (ih (s.applyWrite w) fun v hv => h v (List.mem_cons_of_mem _ hv)).trans ?_
    cases w with
    | reg c v =>
      refine State.readReg_writeReg_other s c.toNat a.toNat v fun hac => ?_
      obtain rfl : a = c := BitVec.eq_of_toNat_eq hac
      exact h v List.mem_cons_self
    | coil c b => exact State.readReg_congr (s.writeCoil_hr c.toNat b) a.toNat

theorem applyWrites_append (s : State) (ws₁ ws₂ : List StoreWrite) :
    s.applyWrites (ws₁ ++ ws₂) = (s.applyWrites ws₁).applyWrites ws₂ :=
  List.foldl_append

/-- A register holds the value of its last write in a batch. -/
theorem readReg_applyWrites_last {s : State} (hs : Memory.wf blankReg s.hr = true)
    (ws₁ : List StoreWrite) {ws₂ : List StoreWrite} {a : Half} (v : Half)
    (h : ∀ w, StoreWrite.reg a w ∉ ws₂) :
    (s.applyWrites (ws₁ ++ .reg a v :: ws₂)).readReg a.toNat = v := by
  rw [applyWrites_append]
  exact (readReg_applyWrites_of_not_mem ((s.applyWrites ws₁).writeReg a.toNat v) h).trans
    (State.readReg_writeReg_same (wf_hr_applyWrites hs ws₁) a.toNat v)

/-- A pair holds the 32-bit value that a batch wrote to it last (10_state.md R34). -/
theorem readDouble_applyWrites {s : State} (hs : Memory.wf blankReg s.hr = true) {b : Half}
    (hb : b.toNat + 1 < 65536) (v : Double) (ws₁ : List StoreWrite) {ws₂ : List StoreWrite}
    (h : ∀ w, StoreWrite.reg b w ∉ ws₂ ∧ StoreWrite.reg (b + 1) w ∉ ws₂) :
    (s.applyWrites (ws₁ ++ pairWrites b v ++ ws₂)).readDouble b.toNat = v := by
  have hb1 : (b + 1).toNat = b.toNat + 1 := by bv_omega
  have hne : b ≠ b + 1 := by bv_omega
  have hlo : (s.applyWrites (ws₁ ++ pairWrites b v ++ ws₂)).readReg b.toNat = lowWord v := by
    rw [show ws₁ ++ pairWrites b v ++ ws₂ =
      ws₁ ++ .reg b (lowWord v) :: .reg (b + 1) (highWord v) :: ws₂ by simp [pairWrites]]
    refine readReg_applyWrites_last hs ws₁ (lowWord v) fun w hw => ?_
    rw [List.mem_cons, StoreWrite.reg.injEq] at hw
    exact hw.elim (fun hw => hne hw.1) (h w).1
  have hhi : (s.applyWrites (ws₁ ++ pairWrites b v ++ ws₂)).readReg (b.toNat + 1) = highWord v := by
    rw [← hb1, show ws₁ ++ pairWrites b v ++ ws₂ =
      (ws₁ ++ [.reg b (lowWord v)]) ++ .reg (b + 1) (highWord v) :: ws₂ by simp [pairWrites]]
    exact readReg_applyWrites_last hs _ (highWord v) fun w => (h w).2
  rw [State.readDouble, hlo, hhi, composeWords_split]

theorem exec_stBatch_inStore {s : State} {ws : List StoreWrite}
    (h : ws.all (StoreWrite.inStore s.cfg) = true) :
    exec (.stBatch ws) s = .next ((s.applyWrites ws).emit .ok) := by
  simp only [exec, execStBatch, h, if_true]

/-! ### A register read that covers a pair -/

/-- Execute of a validated register read, as the instruction of either register read code (41_dispatch.md
R188, R189). -/
theorem exec_regRead_validated {s : State} {i : Nat} {e : Engine} {tid : Half} {unit : Byte}
    {args : PduArgs} {ins : Instr} (he : s.engine? i = some e) (hp : e.phase = .validated)
    (hx : e.exc = none) (hk : e.kind = .read)
    (hins : e.fc = 0x03 ∧ ins = .readHoldingRegisters i tid unit args ∨
      e.fc = 0x04 ∧ ins = .readInputRegisters i tid unit args)
    (hr : e.a.toNat + e.q.toNat ≤ s.cfg.hrSize) :
    exec ins s = .next (s.setEngine i
      { e with res := .regs (s.readRegs e.a.toNat e.q.toNat), phase := .executed }) := by
  have hfc : e.fc = 0x03 ∨ e.fc = 0x04 := hins.imp And.left And.left
  rw [← executeRule_regRead i hk hfc hr]
  obtain ⟨hf, rfl⟩ | ⟨hf, rfl⟩ := hins <;>
    simp only [exec, execReadHoldingRegisters, execReadInputRegisters, requestStep, he, hp, hx, hf] <;>
    rfl

/-- A read of a range that covers a pair gives the pair's two words. -/
theorem readRegs_covers_pair (s : State) {a q b : Nat} (ha : a ≤ b) (hb : b + 2 ≤ a + q) :
    (s.readRegs a q)[b - a]? = some (s.readReg b) ∧
    (s.readRegs a q)[b - a + 1]? = some (s.readReg (b + 1)) := by
  have cell (k : Nat) (hk : k < q) : (s.readRegs a q)[k]? = some (s.readReg (a + k)) := by
    simp [State.readRegs, hk]
  refine ⟨(cell _ (by omega)).trans ?_, (cell _ (by omega)).trans ?_⟩
  · rw [show a + (b - a) = b by omega]
  · rw [show a + (b - a + 1) = b + 1 by omega]

/-- Execute of a register read that covers a pair latches the 32-bit value the pair holds. -/
theorem exec_regRead_latches_pair {s : State} {i : Nat} {e : Engine} {tid : Half} {unit : Byte}
    {args : PduArgs} {ins : Instr} {b : Nat} (he : s.engine? i = some e) (hp : e.phase = .validated)
    (hx : e.exc = none) (hk : e.kind = .read)
    (hins : e.fc = 0x03 ∧ ins = .readHoldingRegisters i tid unit args ∨
      e.fc = 0x04 ∧ ins = .readInputRegisters i tid unit args)
    (ha : e.a.toNat ≤ b) (hb : b + 2 ≤ e.a.toNat + e.q.toNat)
    (hr : e.a.toNat + e.q.toNat ≤ s.cfg.hrSize) :
    ∃ vs lo hi, exec ins s = .next (s.setEngine i { e with res := .regs vs, phase := .executed }) ∧
      vs[b - e.a.toNat]? = some lo ∧ vs[b - e.a.toNat + 1]? = some hi ∧
      composeWords lo hi = s.readDouble b := by
  obtain ⟨hlo, hhi⟩ := readRegs_covers_pair s ha hb
  exact ⟨_, _, _, exec_regRead_validated he hp hx hk hins hr, hlo, hhi, rfl⟩

/-! ### Steps that change a pair -/

theorem batchWrites_iff (ws : List StoreWrite) (a : Half) :
    batchWrites ws a.toNat = true ↔ ∃ v, StoreWrite.reg a v ∈ ws := by
  simp only [batchWrites, List.any_eq_true]
  constructor
  · rintro ⟨w, hw, ha⟩
    cases w with
    | reg b v =>
      obtain rfl : b = a := BitVec.eq_of_toNat_eq (beq_iff_eq.mp ha)
      exact ⟨v, hw⟩
    | coil b c => cases ha
  · rintro ⟨v, hv⟩
    exact ⟨_, hv, beq_self_eq_true _⟩

/-- The reset clears registers 0 and 1 (41_dispatch.md R192). -/
theorem readReg_resetSideEffect_cleared {s : State} (hs : Memory.wf blankReg s.hr = true) (i : Nat) :
    (resetSideEffect i s).readReg 0 = 0x0000 ∧ (resetSideEffect i s).readReg 1 = 0x0000 := by
  have hwf := Memory.wf_write blankReg hs 0 0x0000
  rw [State.readReg, State.readReg, resetSideEffect_hr, Memory.read_write_same blankReg hwf,
    Memory.read_write_other blankReg _ _ _ _ Nat.zero_ne_one, Memory.read_write_same blankReg hs]
  exact ⟨rfl, rfl⟩

/-- An engine's coil write leaves every register, or clears registers 0 and 1 and leaves the others. -/
theorem writeCoilStore_regs_cleared {s : State} (hs : Memory.wf blankReg s.hr = true) (i a : Nat)
    (b : Bool) :
    (writeCoilStore i a b s).hr = s.hr ∨
    (writeCoilStore i a b s).readReg 0 = 0x0000 ∧ (writeCoilStore i a b s).readReg 1 = 0x0000 ∧
      ∀ c, c ≠ 0 → c ≠ 1 → (writeCoilStore i a b s).readReg c = s.readReg c := by
  obtain ⟨-, -, h⟩ | ⟨-, -, h⟩ | ⟨-, h⟩ := writeCoilStore_cases s i a b <;> rw [h]
  · obtain ⟨h0, h1⟩ := readReg_resetSideEffect_cleared hs i
    exact .inr ⟨h0, h1, fun c => (readReg_resetSideEffect_other · · s i)⟩
  · exact .inl rfl
  · exact .inl rfl

/-- The energy pair at 0 and the power pair at 2 are 32-bit pairs of the register map (20_memory.md R73),
and the address of the high word does not wrap. -/
theorem pair_base {b : Half} (hb : b = 0 ∨ b = 2) :
    b.toNat ∈ pairBases ∧ (b + 1).toNat = b.toNat + 1 := by
  obtain rfl | rfl := hb <;> decide

/-- A batch that keeps the duties names both words of a pair or neither (R228 (b)). -/
theorem keepsDuties_batch_pair {ws : List StoreWrite} {b : Half} (hb : b = 0 ∨ b = 2)
    (hk : Instr.keepsDuties (.stBatch ws) = true) :
    (∃ w, StoreWrite.reg b w ∈ ws) ↔ ∃ w, StoreWrite.reg (b + 1) w ∈ ws := by
  obtain ⟨hmem, hb1⟩ := pair_base hb
  simp only [Instr.keepsDuties, Bool.and_eq_true] at hk
  obtain ⟨hpairs, -⟩ := hk
  have hboth := beq_iff_eq.mp (List.all_eq_true.mp hpairs _ hmem)
  rw [← batchWrites_iff, ← batchWrites_iff, hboth, hb1]

/-- A single register write that keeps the duties names neither word of a pair (R228 (b)). -/
theorem keepsDuties_writeReg_pair {a v b : Half} (hb : b = 0 ∨ b = 2)
    (hk : Instr.keepsDuties (.stWriteReg a v) = true) : b.toNat ≠ a.toNat ∧ b.toNat + 1 ≠ a.toNat := by
  obtain ⟨hmem, -⟩ := pair_base hb
  have hne := List.all_eq_true.mp hk _ hmem
  simp only [Bool.and_eq_true, bne_iff_ne] at hne
  obtain ⟨hlo, hhi⟩ := hne
  exact ⟨hlo.symm, hhi.symm⟩

/-- Where the simulation keeps its duties, a pair changes only by a batch that names both of its words,
or by the reset that clears registers 0 and 1 (R228 (b), 41_dispatch.md R192). -/
theorem pair_writer {s t : State} {b : Half} (hs : storeOk s = true) (hk : s.keepsDuties = true)
    (hb : b = 0 ∨ b = 2) (h : step s = .next t)
    (hne : t.readReg b.toNat ≠ s.readReg b.toNat ∨ t.readReg (b.toNat + 1) ≠ s.readReg (b.toNat + 1)) :
    (∃ ws, fetch s = .instr (.stBatch ws) ∧ (∃ w, StoreWrite.reg b w ∈ ws) ∧
      ∃ w, StoreWrite.reg (b + 1) w ∈ ws) ∨
    (b = 0 ∧ t.readReg 0 = 0x0000 ∧ t.readReg 1 = 0x0000) := by
  have unchanged (hlo : t.readReg b.toNat = s.readReg b.toNat)
      (hhi : t.readReg (b.toNat + 1) = s.readReg (b.toNat + 1)) : False :=
    hne.elim (absurd hlo) (absurd hhi)
  have same (hhr : t.hr = s.hr) : False :=
    unchanged (State.readReg_congr hhr _) (State.readReg_congr hhr _)
  obtain ⟨-, hb1⟩ := pair_base hb
  obtain ⟨hhr, -⟩ | ⟨a, v, hf, hhr, -⟩ | ⟨a, c, hf, hhr, -⟩ | ⟨ws, hf, hhr, -⟩ | ⟨i, a, q, -, hhr, -⟩ :=
    step_store h
  · exact (same hhr).elim
  · obtain ⟨hlo, hhi⟩ := keepsDuties_writeReg_pair hb (keepsDuties_of_fetch hk hf)
    refine (unchanged ?_ ?_).elim <;> rw [State.readReg_congr hhr]
    · exact State.readReg_writeReg_other s _ _ v hlo
    · exact State.readReg_writeReg_other s _ _ v hhi
  · exact (same hhr).elim
  · have hpair := keepsDuties_batch_pair hb (keepsDuties_of_fetch hk hf)
    by_cases hlo : ∃ w, StoreWrite.reg b w ∈ ws
    · exact .inl ⟨ws, hf, hlo, hpair.mp hlo⟩
    · have hhi := mt hpair.mpr hlo
      refine (unchanged ?_ ?_).elim <;> rw [State.readReg_congr hhr]
      · exact readReg_applyWrites_of_not_mem s (not_exists.mp hlo)
      · rw [← hb1]
        exact readReg_applyWrites_of_not_mem s (not_exists.mp hhi)
  · obtain hregs | ⟨h0, h1, hother⟩ :=
      writeCoilStore_regs_cleared (wf_hr_of_storeOk hs) i a.toNat (coilBool q)
    · exact (same (hhr.trans hregs)).elim
    · obtain rfl | rfl := hb
      · exact .inr ⟨rfl, by rw [State.readReg_congr hhr, h0], by rw [State.readReg_congr hhr, h1]⟩
      · refine (unchanged ?_ ?_).elim <;> rw [State.readReg_congr hhr] <;>
          exact hother _ (by decide) (by decide)

/-- Settles O46: Execute before and after the batch latches what the pair holds, and `pair_writer`. -/
theorem ticksAreNeverTorn : Obligations.TicksAreNeverTorn := by
  refine ⟨?_, fun s t b => pair_writer⟩
  intro s i e b v ws₁ ws₂ tid unit args ins hs he hp hx hk hins ha hcover hr hb hall hlast
  obtain ⟨hcfg, heng, -⟩ := applyWrites_frame s (ws₁ ++ pairWrites b v ++ ws₂)
  have he' : ((s.applyWrites (ws₁ ++ pairWrites b v ++ ws₂)).emit .ok).engine? i = some e := by
    rw [State.engine?, State.emit_engines, heng]
    exact he
  refine ⟨_, exec_stBatch_inStore hall, exec_regRead_latches_pair he hp hx hk hins ha hcover hr, ?_⟩
  obtain ⟨vs, lo, hi, hread, hlo, hhi, hval⟩ :=
    exec_regRead_latches_pair he' hp hx hk hins ha hcover (by rwa [State.emit_cfg, hcfg])
  exact ⟨vs, lo, hi, hread, hlo, hhi,
    hval.trans (readDouble_applyWrites (wf_hr_of_storeOk hs) hb v ws₁ hlast)⟩

end Sys2Proof.Machine

/-! PROOFS. The decoder and the encoder (30_encoding.md R100 to R121): decoding an encoded instruction
gives it back, and what decodes is the encoding of a well-formed instruction. -/

namespace Sys2Proof.Machine

/-! ### What each map gives for a function code or an OP value -/

theorem fitsLength_iff (data : List Byte) : fitsLength data = true ↔ data.length + 2 < 65536 :=
  decide_eq_true_iff

/-- Every unsupported code is ILLEGAL_FUNCTION at a request port (30_encoding.md R110). -/
theorem requestInstr_of_unsupported {fc : Byte} (hs : supportedFc fc = false) (i : Nat) (tid : Half)
    (unit : Byte) (data : List Byte) :
    requestInstr i ⟨tid, unit, fc, data⟩ = .illegalFunction i tid unit fc data := by
  unfold requestInstr
  split
  case h_6 => rfl
  all_goals
    rename_i hn
    simp [supportedFc, hn] at hs

/-- Bit 7 of the function code is looked at first (30_encoding.md R110, response side). -/
theorem responseInstr_of_exception {fc : Byte} (hb : fc.getLsbD 7 = true) (tid : Half) (unit : Byte)
    (data : List Byte) : responseInstr ⟨tid, unit, fc, data⟩ = .rspException tid unit fc data := by
  rw [responseInstr, if_pos hb]

theorem responseInstr_of_unsupported {fc : Byte} (hb : fc.getLsbD 7 = false)
    (hs : supportedFc fc = false) (tid : Half) (unit : Byte) (data : List Byte) :
    responseInstr ⟨tid, unit, fc, data⟩ = .rspUnsupported tid unit fc data := by
  rw [responseInstr, if_neg (ne_true_of_eq_false hb)]
  split
  case h_6 => rfl
  all_goals
    rename_i hn
    simp [supportedFc, hn] at hs

theorem responseInstr_of_coils {fc : Byte} (h : fc = 0x01 ∨ fc = 0x02) (tid : Half) (unit : Byte)
    (data : List Byte) : responseInstr ⟨tid, unit, fc, data⟩ = .rspCoils tid unit fc data := by
  obtain rfl | rfl := h <;> simp [responseInstr]

theorem responseInstr_of_registers {fc : Byte} (h : fc = 0x03 ∨ fc = 0x04) (tid : Half) (unit : Byte)
    (data : List Byte) : responseInstr ⟨tid, unit, fc, data⟩ = .rspRegisters tid unit fc data := by
  obtain rfl | rfl := h <;> simp [responseInstr]

theorem responseInstr_of_writeAck (tid : Half) (unit : Byte) (data : List Byte) :
    responseInstr ⟨tid, unit, 0x05, data⟩ = .rspWriteAck tid unit data := by
  simp [responseInstr]

/-- A reserved OP value is RESERVED_OP whatever stands beside it (30_encoding.md R121). -/
theorem commandInstr_of_reserved {op : BitVec 4} (h : 12 ≤ op.toNat) (args : List Operand) :
    commandInstr op args = some (.reservedOp op) := by
  unfold commandInstr
  split
  case h_14 => rw [if_pos h]
  all_goals omega

/-! ### The decoder -/

theorem decode_request_adu {data : List Byte} (h : data.length + 2 < 65536) (i : Nat) (tid : Half)
    (unit fc : Byte) :
    decode (.request i (adu tid unit (fc :: data))) = .ok (requestInstr i ⟨tid, unit, fc, data⟩) := by
  simp only [decode, checkHeader_adu tid unit fc data h]

theorem decode_response_adu {data : List Byte} (h : data.length + 2 < 65536) (tid : Half)
    (unit fc : Byte) :
    decode (.response (adu tid unit (fc :: data))) = .ok (responseInstr ⟨tid, unit, fc, data⟩) := by
  simp only [decode, checkHeader_adu tid unit fc data h]

theorem decode_command_of_reserved {op : BitVec 4} (h : 12 ≤ op.toNat) (args : List Operand) :
    decode (.command op args) = .ok (.reservedOp op) := by
  simp only [decode, commandInstr_of_reserved h]

theorem decode_request_eq_ok {i : Nat} {f : Frame} {ins : Instr}
    (h : decode (.request i f) = .ok ins) : ∃ hd, checkHeader f = .ok hd ∧ ins = requestInstr i hd := by
  cases hk : checkHeader f with
  | ok hd =>
    simp only [decode, hk] at h
    cases h
    exact ⟨hd, rfl, rfl⟩
  | error k => simp [decode, hk] at h

theorem decode_response_eq_ok {f : Frame} {ins : Instr}
    (h : decode (.response f) = .ok ins) : ∃ hd, checkHeader f = .ok hd ∧ ins = responseInstr hd := by
  cases hk : checkHeader f with
  | ok hd =>
    simp only [decode, hk] at h
    cases h
    exact ⟨hd, rfl, rfl⟩
  | error k => simp [decode, hk] at h

theorem decode_command_eq_ok {op : BitVec 4} {args : List Operand} {ins : Instr}
    (h : decode (.command op args) = .ok ins) : commandInstr op args = some ins := by
  cases hc : commandInstr op args with
  | some ins' =>
    simp only [decode, hc] at h
    cases h
    rfl
  | none => simp [decode, hc] at h

/-- Settles O12: the header check gives back the fields of a frame (`checkHeader_adu`), and each row's
function code selects that row. -/
theorem decodeOfEncodeIsTheInstruction : Obligations.DecodeOfEncodeIsTheInstruction := by
  intro ins hwf
  cases ins with
  | readCoils i tid unit args | readDiscreteInputs i tid unit args
  | readHoldingRegisters i tid unit args | readInputRegisters i tid unit args
  | writeSingleCoil i tid unit args =>
    have hargs : args.wellFormed = true := hwf
    rw [encode, decode_request_adu (PduArgs.bytes_fit hargs)]
    simp [requestInstr, pduArgs_bytes hargs]
  | illegalFunction i tid unit fc data =>
    simp only [Instr.wellFormed, Bool.and_eq_true, Bool.not_eq_true', fitsLength_iff] at hwf
    obtain ⟨hfc, hdata⟩ := hwf
    rw [encode, decode_request_adu hdata, requestInstr_of_unsupported hfc]
  | rspCoils tid unit fc data =>
    simp only [Instr.wellFormed, Bool.and_eq_true, Bool.or_eq_true, beq_iff_eq, fitsLength_iff] at hwf
    obtain ⟨hfc, hdata⟩ := hwf
    rw [encode, decode_response_adu hdata, responseInstr_of_coils hfc]
  | rspRegisters tid unit fc data =>
    simp only [Instr.wellFormed, Bool.and_eq_true, Bool.or_eq_true, beq_iff_eq, fitsLength_iff] at hwf
    obtain ⟨hfc, hdata⟩ := hwf
    rw [encode, decode_response_adu hdata, responseInstr_of_registers hfc]
  | rspWriteAck tid unit data =>
    rw [encode, decode_response_adu ((fitsLength_iff data).mp hwf), responseInstr_of_writeAck]
  | rspException tid unit fc data =>
    simp only [Instr.wellFormed, Bool.and_eq_true, fitsLength_iff] at hwf
    obtain ⟨hbit, hdata⟩ := hwf
    rw [encode, decode_response_adu hdata, responseInstr_of_exception hbit]
  | rspUnsupported tid unit fc data =>
    simp only [Instr.wellFormed, Bool.and_eq_true, Bool.not_eq_true', fitsLength_iff] at hwf
    obtain ⟨⟨hbit, hfc⟩, hdata⟩ := hwf
    rw [encode, decode_response_adu hdata, responseInstr_of_unsupported hbit hfc]
  | reservedOp op => exact decode_command_of_reserved (of_decide_eq_true hwf) []
  | serve i x => cases x <;> rfl
  | encReadReq | encWriteCoilReq | decResponse | decRequest | encResponse | stReadRegs | stWriteReg
  | stReadCoils | stWriteCoil | stBatch | connect => rfl

/-! ### What decodes is well formed and encodes to what was decoded -/

theorem pduArgs_wellFormed {data : List Byte} (h : data.length + 2 < 65536) :
    (pduArgs data).wellFormed = true := by
  by_cases hl : data.length = 4
  · match data, hl with
    | [_, _, _, _], _ => rfl
  · rw [pduArgs_of_length_ne hl]
    simp [PduArgs.wellFormed, hl, fitsLength_iff, h]

theorem requestInstr_wellFormed {h : Header} (hd : h.data.length + 2 < 65536) (i : Nat) :
    (requestInstr i h).wellFormed = true := by
  obtain ⟨tid, unit, fc, data⟩ := h
  cases hs : supportedFc fc with
  | true =>
    have hargs := pduArgs_wellFormed hd
    obtain rfl | rfl | rfl | rfl | rfl := supportedFc_cases hs <;> exact hargs
  | false =>
    rw [requestInstr_of_unsupported hs]
    simp [Instr.wellFormed, hs, (fitsLength_iff data).mpr hd]

/-- The encoding of a request's instruction is the frame it came in (30_encoding.md R106, R107). -/
theorem encode_requestInstr (i : Nat) (h : Header) :
    encode (requestInstr i h) = .request i (adu h.tid h.unit (h.fc :: h.data)) := by
  obtain ⟨tid, unit, fc, data⟩ := h
  cases hs : supportedFc fc with
  | true =>
    obtain rfl | rfl | rfl | rfl | rfl := supportedFc_cases hs
    all_goals simp [requestInstr, encode, bytes_pduArgs]
  | false => rw [requestInstr_of_unsupported hs, encode]

/-- The row of the response side that a function code selects (30_encoding.md R110). -/
theorem responseInstr_cases (tid : Half) (unit fc : Byte) (data : List Byte) :
    (fc.getLsbD 7 = true ∧ responseInstr ⟨tid, unit, fc, data⟩ = .rspException tid unit fc data) ∨
    ((fc = 0x01 ∨ fc = 0x02) ∧ responseInstr ⟨tid, unit, fc, data⟩ = .rspCoils tid unit fc data) ∨
    ((fc = 0x03 ∨ fc = 0x04) ∧ responseInstr ⟨tid, unit, fc, data⟩ = .rspRegisters tid unit fc data) ∨
    (fc = 0x05 ∧ responseInstr ⟨tid, unit, fc, data⟩ = .rspWriteAck tid unit data) ∨
    (fc.getLsbD 7 = false ∧ supportedFc fc = false ∧
      responseInstr ⟨tid, unit, fc, data⟩ = .rspUnsupported tid unit fc data) := by
  cases hb : fc.getLsbD 7 with
  | true => exact .inl ⟨rfl, responseInstr_of_exception hb ..⟩
  | false =>
    cases hs : supportedFc fc with
    | true =>
      obtain h | h | h | h | rfl := supportedFc_cases hs
      · exact .inr (.inl ⟨.inl h, responseInstr_of_coils (.inl h) ..⟩)
      · exact .inr (.inl ⟨.inr h, responseInstr_of_coils (.inr h) ..⟩)
      · exact .inr (.inr (.inl ⟨.inl h, responseInstr_of_registers (.inl h) ..⟩))
      · exact .inr (.inr (.inl ⟨.inr h, responseInstr_of_registers (.inr h) ..⟩))
      · exact .inr (.inr (.inr (.inl ⟨rfl, responseInstr_of_writeAck ..⟩)))
    | false => exact .inr (.inr (.inr (.inr ⟨rfl, rfl, responseInstr_of_unsupported hb hs ..⟩)))

theorem responseInstr_wellFormed {h : Header} (hd : h.data.length + 2 < 65536) :
    (responseInstr h).wellFormed = true := by
  obtain ⟨tid, unit, fc, data⟩ := h
  have hfit : fitsLength data = true := (fitsLength_iff data).mpr hd
  obtain ⟨hfc, he⟩ | ⟨hfc, he⟩ | ⟨hfc, he⟩ | ⟨-, he⟩ | ⟨hbit, hfc, he⟩ :=
    responseInstr_cases tid unit fc data
  · rw [he, Instr.wellFormed, hfc, hfit, Bool.and_self]
  · simpa only [he, Instr.wellFormed, hfit, Bool.and_true, Bool.or_eq_true, beq_iff_eq] using hfc
  · simpa only [he, Instr.wellFormed, hfit, Bool.and_true, Bool.or_eq_true, beq_iff_eq] using hfc
  · rw [he, Instr.wellFormed, hfit]
  · rw [he, Instr.wellFormed, hbit, hfc, hfit]
    rfl

/-- The encoding of a response's instruction is the frame it came in (30_encoding.md R108 to R112). -/
theorem encode_responseInstr (h : Header) :
    encode (responseInstr h) = .response (adu h.tid h.unit (h.fc :: h.data)) := by
  obtain ⟨tid, unit, fc, data⟩ := h
  obtain ⟨-, he⟩ | ⟨-, he⟩ | ⟨-, he⟩ | ⟨rfl, he⟩ | ⟨-, -, he⟩ := responseInstr_cases tid unit fc data
  all_goals rw [he, encode]

/-- The operation-select map drops no operand, except beside a reserved OP value (30_encoding.md R120,
R121). -/
theorem encode_commandInstr {op : BitVec 4} {args : List Operand} {ins : Instr}
    (h : commandInstr op args = some ins) :
    ins.wellFormed = true ∧ (encode ins = .command op args ∨ ins = .reservedOp op) := by
  unfold commandInstr at h
  split at h
  case h_14 =>
    split at h
    · rename_i hop
      cases h
      exact ⟨decide_eq_true hop, .inr rfl⟩
    · cases h
  all_goals
    rename_i hop
    cases h
    exact ⟨rfl, .inl (congrArg (Wire.command · _) (BitVec.eq_of_toNat_eq hop.symm))⟩

/-- Settles O13: only a frame built around its PDU passes the header check (`eq_adu_of_checkHeader`), and
each map's instruction encodes to what it was read from. -/
theorem encodeOfDecodeIsTheWire : Obligations.EncodeOfDecodeIsTheWire := by
  intro w ins hdec
  cases w with
  | request i f =>
    obtain ⟨h, hk, rfl⟩ := decode_request_eq_ok hdec
    obtain ⟨rfl, hfit⟩ := eq_adu_of_checkHeader hk
    exact ⟨requestInstr_wellFormed hfit i, .inl (encode_requestInstr i h)⟩
  | response f =>
    obtain ⟨h, hk, rfl⟩ := decode_response_eq_ok hdec
    obtain ⟨rfl, hfit⟩ := eq_adu_of_checkHeader hk
    exact ⟨responseInstr_wellFormed hfit, .inl (encode_responseInstr h)⟩
  | command op args =>
    obtain ⟨hwf, henc | hres⟩ := encode_commandInstr (decode_command_eq_ok hdec)
    · exact ⟨hwf, .inl henc⟩
    · exact ⟨hwf, .inr ⟨op, args, hres, rfl⟩⟩

/-- Settles O14: the decoder evaluated on each wire. -/
theorem writtenOutWiresDecode : Obligations.WrittenOutWiresDecode := by
  unfold Obligations.WrittenOutWiresDecode
  decide

end Sys2Proof.Machine

/-! PROOFS. Coil packing bit by bit (30_encoding.md R114). -/

namespace Sys2Proof.Machine

theorem getD_packCoils {bs : List Bool} {j : Nat} (hj : j < byteCount bs.length) :
    (packCoils bs).getD j 0 = packByte (bs.drop (8 * j)) := by
  simp [packCoils, List.getD, hj]

theorem getElem?_unpackByte (b : Byte) {i : Nat} (hi : i < 8) :
    (unpackByte b)[i]? = some (b.getLsbD i) := by
  simp [unpackByte, hi]

theorem unpackCoils_cons (b : Byte) (d : List Byte) :
    unpackCoils (b :: d) = unpackByte b ++ unpackCoils d :=
  List.flatMap_cons

/-- Element `8 * j + i` of the unpacked bytes is bit `i` of byte `j`: the first byte gives the first eight
elements, and the bytes after it the rest. -/
theorem getElem?_unpackCoils {d : List Byte} {j i : Nat} (hj : j < d.length) (hi : i < 8) :
    (unpackCoils d)[8 * j + i]? = some ((d.getD j 0).getLsbD i) := by
  induction d generalizing j with
  | nil => cases hj
  | cons b d ih =>
    rw [unpackCoils_cons]
    cases j with
    | zero =>
      rw [List.getElem?_append_left (by rw [unpackByte_length]; omega), Nat.mul_zero, Nat.zero_add]
      exact getElem?_unpackByte b hi
    | succ j =>
      have hrest : 8 * (j + 1) + i - 8 = 8 * j + i := by omega
      rw [List.getElem?_append_right (by rw [unpackByte_length]; omega), unpackByte_length, hrest,
        ih (Nat.lt_of_succ_lt_succ hj), List.getD_cons_succ]

/-- Settles O17: a packed byte bit by bit (`packByte_getLsbD`), and induction on the bytes unpacked. -/
theorem coilsPackLeastSignificantBitFirst : Obligations.CoilsPackLeastSignificantBitFirst := by
  refine ⟨fun bs => ⟨packCoils_length bs, fun j i hj hi => ?_⟩,
    fun d => ⟨unpackCoils_length d, fun j i hj hi => getElem?_unpackCoils hj hi⟩⟩
  rw [getD_packCoils hj, packByte_getLsbD _ i hi]
  simp [List.getD]

end Sys2Proof.Machine

/-! PROOFS. Refused operations (30_encoding.md R121), and the instruction a step runs. -/

namespace Sys2Proof.Machine

/-! ### Refusals -/

theorem receive_of_not_idle {i : Nat} {e : Engine} {s : State} (he : s.engine? i = some e)
    (hp : e.phase ≠ .idle) (x : PortInput) : receive i x s = .refused .engineNotIdle := by
  simp only [receive, he, if_neg hp]

theorem exec_serve_of_not_idle {i : Nat} {e : Engine} {s : State} (he : s.engine? i = some e)
    (hp : e.phase ≠ .idle) (x : PortInput) : exec (.serve i x) s = .refused .engineNotIdle := by
  simp only [exec, execServe, receive_of_not_idle he hp, andThen]

theorem exec_connect_of_not_closed {i : Nat} {e : Engine} {s : State} (he : s.engine? i = some e)
    (hp : e.phase ≠ .closed) : exec (.connect i) s = .refused .engineNotClosed := by
  simp only [exec, execConnect, he, if_neg hp]

theorem exec_encResponse_of_none {r : Response} (h : encodeResponse r = none) (s : State) :
    exec (.encResponse r) s = .refused .responseTooLong := by
  simp only [exec, execEncResponse, h]

/-- Settles O39: the four cases of OpRefused, each by its lemma above. -/
theorem opRefusedIsARefusal : Obligations.OpRefusedIsARefusal := fun s =>
  ⟨fun _ hop => ⟨rfl, decode_command_of_reserved hop⟩, fun _ hr => exec_encResponse_of_none hr s,
    fun _ _ x he hp => exec_serve_of_not_idle he hp x, fun _ _ => exec_connect_of_not_closed⟩

/-! ### The instruction of a move -/

/-- Where the next move is fetched as an instruction, the step is that instruction with the move taken off
the agenda. -/
theorem step_of_fetchMove {s : State} {m : Move} {rest : List Move} {ins : Instr}
    (hc : configOk s.cfg = true) (ha : s.agenda = m :: rest) (hf : fetchMove s m = .instr ins) :
    step s = exec ins { s with agenda := rest } := by
  have hpop : s.popMove = { s with agenda := rest } := by simp only [State.popMove, ha, List.tail_cons]
  simp only [step, hc, if_true, fetch, ha, hf, runFetched, hpop]

theorem fetchMove_command {op : BitVec 4} {args : List Operand} {ins : Instr}
    (h : decode (.command op args) = .ok ins) (s : State) :
    fetchMove s (.command op args) = .instr ins := by
  simp only [fetchMove, h]

theorem fetchMove_response {f : Frame} {ins : Instr} (h : decode (.response f) = .ok ins) (s : State) :
    fetchMove s (.response f) = .instr ins := by
  obtain ⟨hd, hk, rfl⟩ := decode_response_eq_ok h
  simp only [fetchMove, hk]

theorem fetchMove_advance {s : State} {i : Nat} {e : Engine} {h : Header} (he : s.engine? i = some e)
    (hp : pending e = .request h) : fetchMove s (.advance i) = .instr (requestInstr i h) := by
  simp only [fetchMove, he, hp]

/-! ### The request in flight (41_dispatch.md R185, R182, R196) -/

theorem pending_of_received {e : Engine} {h : Header} (hp : e.phase = .received)
    (hk : checkHeader e.rx = .ok h) : pending e = .request h := by
  simp only [pending, hp, hk]

theorem pending_of_latched {e : Engine} (hp : e.phase = .validated ∨ e.phase = .executed) :
    pending e = .request ⟨e.tid, e.unit, e.fc, latchedData e⟩ := by
  obtain hp | hp := hp <;> simp only [pending, hp]

theorem latchedData_of_fields {e : Engine} (hk : e.kind = .read ∨ e.kind = .writeCoil) :
    latchedData e = u16be e.a ++ u16be e.q := by
  obtain hk | hk := hk <;> simp only [latchedData, hk]

theorem latchedData_of_no_fields {e : Engine} (hk : e.kind = .unknown ∨ e.kind = .malformed) :
    latchedData e = e.rx.drop 8 := by
  obtain hk | hk := hk <;> simp only [latchedData, hk]

/-- Settles O52: each move is fetched as the instruction named, which `step_of_fetchMove` runs. -/
theorem stepRunsTheDecodedInstruction : Obligations.StepRunsTheDecodedInstruction := by
  intro s rest hc
  refine ⟨fun op args ins ha hd => step_of_fetchMove hc ha (fetchMove_command hd s),
    fun f ins ha hd => step_of_fetchMove hc ha (fetchMove_response hd s), fun i e ha he => ⟨?_, ?_⟩⟩
  · intro ins hp hd
    obtain ⟨h, hk, rfl⟩ := decode_request_eq_ok hd
    exact step_of_fetchMove hc ha (fetchMove_advance he (pending_of_received hp hk))
  · intro data hp hdata
    have hlatched : latchedData e = data := by
      obtain ⟨hk, rfl⟩ | ⟨hk, rfl⟩ := hdata
      · exact latchedData_of_fields hk
      · exact latchedData_of_no_fields hk
    rw [← hlatched]
    exact step_of_fetchMove hc ha (fetchMove_advance he (pending_of_latched hp))

end Sys2Proof.Machine

/-! PROOFS. The bodies of the response-side instructions (40_codec.md R144 to R148). -/

namespace Sys2Proof.Machine

/-! ### The byte_count of a read body -/

theorem countedBytes_of_short {bc : Byte} {rest : List Byte} (h : rest.length < bc.toNat) :
    countedBytes (bc :: rest) = .error .truncated :=
  if_pos h

theorem countedBytes_of_long {bc : Byte} {rest : List Byte} (h : bc.toNat < rest.length) :
    countedBytes (bc :: rest) = .error .lengthMismatch := by
  rw [countedBytes, if_neg (Nat.lt_asymm h), if_pos h]

theorem countedBytes_of_exact {bc : Byte} {rest : List Byte} (h : rest.length = bc.toNat) :
    countedBytes (bc :: rest) = .ok rest := by
  rw [countedBytes, if_neg (Nat.not_lt.mpr h.ge), if_neg (Nat.not_lt.mpr h.le)]

/-! ### Register values -/

@[simp] theorem regValues_length : ∀ bytes : List Byte, (regValues bytes).length = bytes.length / 2
  | [] => rfl
  | [_] => by simp [regValues]
  | _ :: _ :: rest => by
    simp only [regValues, List.length_cons, regValues_length rest]
    omega

/-- Value `k` is the big-endian field of bytes `2 * k` and `2 * k + 1`: the first two bytes give the first
value, and the bytes after them the rest. -/
theorem getElem?_regValues : ∀ {bytes : List Byte} {k : Nat}, k < bytes.length / 2 →
    (regValues bytes)[k]? = some (be16 (bytes.getD (2 * k) 0) (bytes.getD (2 * k + 1) 0))
  | [], k, hk => absurd hk (Nat.not_lt_zero k)
  | [_], k, hk => by simp at hk
  | _ :: _ :: _, 0, _ => by simp [regValues]
  | _ :: _ :: rest, k + 1, hk => by
    have hrest : k < rest.length / 2 := by
      simp only [List.length_cons] at hk
      omega
    simpa only [regValues, List.getElem?_cons_succ, Nat.mul_succ, List.getD_cons_succ] using
      getElem?_regValues hrest

/-! ### The two read bodies and the acknowledgment body -/

theorem registerBody_of_error {data : List Byte} {k : DecodeError} (h : countedBytes data = .error k) :
    registerBody data = .error k := by
  rw [registerBody, h]

theorem registerBody_of_odd {data bytes : List Byte} (h : countedBytes data = .ok bytes)
    (hodd : bytes.length % 2 = 1) : registerBody data = .error .lengthMismatch := by
  rw [registerBody, h]
  exact if_pos hodd

theorem registerBody_of_even {data bytes : List Byte} (h : countedBytes data = .ok bytes)
    (heven : bytes.length % 2 = 0) : registerBody data = .ok (.registers (regValues bytes)) := by
  rw [registerBody, h]
  exact if_neg (by omega)

theorem coilBody_of_error {data : List Byte} {k : DecodeError} (h : countedBytes data = .error k) :
    coilBody data = .error k := by
  rw [coilBody, h]

theorem coilBody_of_ok {data bytes : List Byte} (h : countedBytes data = .ok bytes) :
    coilBody data = .ok (.coils (unpackCoils bytes)) := by
  rw [coilBody, h]

theorem exceptionBody_of_long {data : List Byte} (h : 1 < data.length) :
    exceptionBody data = .error .lengthMismatch := by
  match data, h with
  | _ :: _ :: _, _ => rfl

theorem ackBody_of_short {data : List Byte} (h : data.length < 4) : ackBody data = .error .truncated := by
  match data, h with
  | [], _ | [_], _ | [_, _], _ | [_, _, _], _ => rfl

theorem ackBody_of_long {data : List Byte} (h : 4 < data.length) :
    ackBody data = .error .lengthMismatch := by
  match data, h with
  | _ :: _ :: _ :: _ :: _ :: _, _ => rfl

/-! ### What the response-side instructions put out -/

section Exec

variable {tid : Half} {unit fc : Byte} {data : List Byte} {k : DecodeError} {body : ResponseBody}

theorem exec_rspRegisters_of_error (h : registerBody data = .error k) (s : State) :
    exec (.rspRegisters tid unit fc data) s = .next (s.emit (.decodeError k)) := by
  simp only [exec, execRspRegisters, h, withHeader, responseOutput]

theorem exec_rspRegisters_of_ok (h : registerBody data = .ok body) (s : State) :
    exec (.rspRegisters tid unit fc data) s = .next (s.emit (.response ⟨tid, unit, fc, body⟩)) := by
  simp only [exec, execRspRegisters, h, withHeader, responseOutput]

theorem exec_rspCoils_of_error (h : coilBody data = .error k) (s : State) :
    exec (.rspCoils tid unit fc data) s = .next (s.emit (.decodeError k)) := by
  simp only [exec, execRspCoils, h, withHeader, responseOutput]

theorem exec_rspCoils_of_ok (h : coilBody data = .ok body) (s : State) :
    exec (.rspCoils tid unit fc data) s = .next (s.emit (.response ⟨tid, unit, fc, body⟩)) := by
  simp only [exec, execRspCoils, h, withHeader, responseOutput]

theorem exec_rspException_of_error (h : exceptionBody data = .error k) (s : State) :
    exec (.rspException tid unit fc data) s = .next (s.emit (.decodeError k)) := by
  simp only [exec, execRspException, h, withHeader, responseOutput]

theorem exec_rspWriteAck_of_error (h : ackBody data = .error k) (s : State) :
    exec (.rspWriteAck tid unit data) s = .next (s.emit (.decodeError k)) := by
  simp only [exec, execRspWriteAck, h, withHeader, responseOutput]

end Exec

/-- Settles O5: each case of the byte_count check, and the values by their index
(`getElem?_regValues`). -/
theorem rspRegistersReturnsTheValues : Obligations.RspRegistersReturnsTheValues := by
  intro tid unit fc s _
  refine ⟨rfl, fun bc rest => ⟨fun hshort => ?_, fun hlong => ?_, fun hlen hodd => ?_,
    fun hlen heven => ⟨regValues rest, ?_, ?_, fun k hk => ?_⟩⟩⟩
  · exact exec_rspRegisters_of_error (registerBody_of_error (countedBytes_of_short hshort)) s
  · exact exec_rspRegisters_of_error (registerBody_of_error (countedBytes_of_long hlong)) s
  · exact exec_rspRegisters_of_error
      (registerBody_of_odd (countedBytes_of_exact hlen) (hlen ▸ hodd)) s
  · exact exec_rspRegisters_of_ok
      (registerBody_of_even (countedBytes_of_exact hlen) (hlen ▸ heven)) s
  · rw [regValues_length, hlen]
  · exact getElem?_regValues (regValues_length rest ▸ hk)

/-- Settles O6: each case of the byte_count check, and the bits by their index
(`getElem?_unpackCoils`). -/
theorem rspCoilsReturnsEveryBit : Obligations.RspCoilsReturnsEveryBit := by
  intro tid unit fc s _
  refine ⟨rfl, fun bc rest => ⟨fun hshort => ?_, fun hlong => ?_,
    fun hlen => ⟨unpackCoils rest, ?_, ?_, fun j i hj hi => getElem?_unpackCoils hj hi⟩⟩⟩
  · exact exec_rspCoils_of_error (coilBody_of_error (countedBytes_of_short hshort)) s
  · exact exec_rspCoils_of_error (coilBody_of_error (countedBytes_of_long hlong)) s
  · exact exec_rspCoils_of_ok (coilBody_of_ok (countedBytes_of_exact hlen)) s
  · rw [unpackCoils_length, hlen]

/-- Settles O4: the exception body by its length. -/
theorem rspExceptionReturnsTheCode : Obligations.RspExceptionReturnsTheCode :=
  fun _ _ _ s _ => ⟨rfl, fun _ => rfl, fun _ hlong =>
    exec_rspException_of_error (exceptionBody_of_long hlong) s⟩

/-- Settles O7: the acknowledgment body by its length. -/
theorem rspWriteAckReturnsTheEcho : Obligations.RspWriteAckReturnsTheEcho :=
  fun _ _ s => ⟨fun _ _ _ _ => rfl, fun _ =>
    ⟨fun hshort => exec_rspWriteAck_of_error (ackBody_of_short hshort) s,
      fun hlong => exec_rspWriteAck_of_error (ackBody_of_long hlong) s⟩⟩

/-- Settles O8: the row has the typed error as its whole effect. -/
theorem rspUnsupportedIsATypedError : Obligations.RspUnsupportedIsATypedError :=
  fun _ _ _ _ _ _ => rfl

end Sys2Proof.Machine

/-! PROOFS. The frames of the two encoders of requests and of ENC_RESPONSE (40_codec.md R140, R141, R156 to
R160). -/

namespace Sys2Proof.Machine

/-! ### Requests -/

/-- A coil write request is the frame of a read request with code 0x05 and the coil value in the place of
the count (30_encoding.md R106, R107). -/
theorem encodeWriteCoilRequest_eq (tid : Half) (unit : Byte) (addr : Half) (value : Bool) :
    encodeWriteCoilRequest tid unit addr value =
      encodeReadRequest tid unit 0x05 addr (coilValue value) := rfl

theorem u16be_coilValue (value : Bool) :
    u16be (coilValue value) = if value then [0xFF, 0x00] else [0x00, 0x00] := by
  cases value <;> decide

theorem exec_encWriteCoilReq (tid : Half) (unit : Byte) (addr : Half) (value : Bool) (s : State) :
    exec (.encWriteCoilReq tid unit addr value) s =
      .next (s.emit (.frame (u16be tid ++ [0x00, 0x00] ++ [0x00, 0x06] ++ [unit, 0x05] ++
        u16be addr ++ if value then [0xFF, 0x00] else [0x00, 0x00]))) := by
  rw [← u16be_coilValue]
  rfl

/-- Settles O1: the frame is the encoder's, of the lengths of its six parts. -/
theorem encReadReqPutsOutItsFrame : Obligations.EncReadReqPutsOutItsFrame :=
  fun _ _ _ _ _ _ => ⟨rfl, by simp only [List.length_append, u16be_length, List.length_cons,
    List.length_nil]⟩

/-- Settles O2: `exec_encWriteCoilReq` at both coil values. -/
theorem encWriteCoilReqPutsOutItsFrame : Obligations.EncWriteCoilReqPutsOutItsFrame :=
  fun tid unit addr s => ⟨exec_encWriteCoilReq tid unit addr true s,
    exec_encWriteCoilReq tid unit addr false s⟩

/-! ### Responses -/

/-- The response frame of a coil read with bits `bs` (30_encoding.md R108). -/
def coilsFrame (tid : Half) (unit fc : Byte) (bs : List Bool) : Frame :=
  adu tid unit (fc :: BitVec.ofNat 8 (byteCount bs.length) :: packCoils bs)

/-- The coil response of at most 255 data bytes (40_codec.md R158). -/
theorem encodeResponse_coils {bs : List Bool} (h : byteCount bs.length ≤ 255) (tid : Half)
    (unit fc : Byte) : encodeResponse (.coils tid unit fc bs) = some (coilsFrame tid unit fc bs) := by
  simp only [encodeResponse, coilsPdu, if_neg (Nat.not_lt.mpr h), Option.map_some, coilsFrame]

theorem encodeResponse_regs_of_long {vs : List Half} (h : 255 < 2 * vs.length) (tid : Half)
    (unit fc : Byte) : encodeResponse (.regs tid unit fc vs) = none := by
  simp only [encodeResponse, regsPdu, if_pos h, Option.map_none]

theorem encodeResponse_coils_of_long {bs : List Bool} (h : 255 < byteCount bs.length) (tid : Half)
    (unit fc : Byte) : encodeResponse (.coils tid unit fc bs) = none := by
  simp only [encodeResponse, coilsPdu, if_pos h, Option.map_none]

theorem exec_encResponse_of_some {r : Response} {f : Frame} (h : encodeResponse r = some f)
    (s : State) : exec (.encResponse r) s = .next (s.emit (.frame f)) := by
  simp only [exec, execEncResponse, h]

/-- The bytes of a frame that carries a byte_count (30_encoding.md R108). -/
theorem adu_counted (tid : Half) (unit fc bc : Byte) (bytes : List Byte) :
    adu tid unit (fc :: bc :: bytes) = u16be tid ++ [0x00, 0x00] ++
      u16be (BitVec.ofNat 16 (bytes.length + 3)) ++ [unit] ++ [fc, bc] ++ bytes := by
  simp only [adu, List.length_cons, List.append_assoc, List.cons_append, List.nil_append]

theorem adu_ackPdu (tid : Half) (unit : Byte) (addr value : Half) :
    adu tid unit (ackPdu addr value) = u16be tid ++ [0x00, 0x00] ++ [0x00, 0x06] ++ [unit] ++
      [0x05] ++ u16be addr ++ u16be value := by
  have hlen : u16be (BitVec.ofNat 16 6) = [0x00, 0x06] := by decide
  simp [adu, ackPdu, hlen]

theorem adu_excPdu (tid : Half) (unit fc code : Byte) :
    adu tid unit (excPdu fc code) = u16be tid ++ [0x00, 0x00] ++ [0x00, 0x03] ++ [unit] ++
      [fc ||| 0x80, code] := by
  have hlen : u16be (BitVec.ofNat 16 3) = [0x00, 0x03] := by decide
  simp [adu, excPdu, exceptionFc, hlen]

/-- Settles O10: each form of response has its frame, and a byte_count above 255 has none. -/
theorem encResponsePutsOutItsFrame : Obligations.EncResponsePutsOutItsFrame := by
  intro tid unit fc s
  refine ⟨fun vs hfit => ?_, fun vs hlong => ?_, fun bs hfit => ?_, fun bs hlong => ?_,
    fun addr value => ?_, fun code => ?_⟩
  · rw [exec_encResponse_of_some (encodeResponse_regs hfit tid unit fc), regsFrame, adu_counted,
      regBytes_length, regBytes]
  · exact exec_encResponse_of_none (encodeResponse_regs_of_long hlong tid unit fc) s
  · rw [exec_encResponse_of_some (encodeResponse_coils hfit tid unit fc), coilsFrame, adu_counted,
      packCoils_length, byteCount]
  · exact exec_encResponse_of_none (encodeResponse_coils_of_long hlong tid unit fc) s
  · exact (exec_encResponse_of_some rfl s).trans (by rw [adu_ackPdu])
  · exact (exec_encResponse_of_some rfl s).trans (by rw [adu_excPdu])

end Sys2Proof.Machine

/-! PROOFS. The two frame decoders: the header check on the bytes of a frame (40_codec.md R143), then the
function code (R142, R150), and what they make of the encoders' frames (R152, R153, R161). -/

namespace Sys2Proof.Machine

/-! ### The header check on bytes (40_codec.md R143) -/

theorem checkHeader_of_short {f : Frame} (h : f.length < 8) : checkHeader f = .error .truncated := by
  unfold checkHeader
  split
  · simp only [List.length_cons] at h
    omega
  · rfl

theorem be16_eq_zero_iff (hi lo : Byte) : be16 hi lo = 0x0000 ↔ hi = 0 ∧ lo = 0 := by
  rw [← BitVec.toNat_inj, be16_toNat]
  bv_omega

section Bytes

variable {t1 t0 p1 p0 l1 l0 unit fc : Byte} {data : List Byte}

theorem checkHeader_of_badProtocolId (h : ¬(p1 = 0 ∧ p0 = 0)) :
    checkHeader (t1 :: t0 :: p1 :: p0 :: l1 :: l0 :: unit :: fc :: data) = .error .badProtocolId := by
  rw [checkHeader, if_pos (mt (be16_eq_zero_iff p1 p0).mp h)]

/-- With protocol id 0, the declared length decides. -/
theorem checkHeader_of_protocolId_zero :
    checkHeader (t1 :: t0 :: 0 :: 0 :: l1 :: l0 :: unit :: fc :: data) =
      if 8 + data.length < 6 + (256 * l1.toNat + l0.toNat) then .error .truncated
      else if 6 + (256 * l1.toNat + l0.toNat) < 8 + data.length then .error .lengthMismatch
      else .ok ⟨be16 t1 t0, unit, fc, data⟩ := by
  rw [checkHeader, if_neg (not_not.mpr ((be16_eq_zero_iff 0 0).mpr ⟨rfl, rfl⟩)), be16_toNat]

theorem checkHeader_of_declared_above
    (h : 8 + data.length < 6 + (256 * l1.toNat + l0.toNat)) :
    checkHeader (t1 :: t0 :: 0 :: 0 :: l1 :: l0 :: unit :: fc :: data) = .error .truncated := by
  rw [checkHeader_of_protocolId_zero, if_pos h]

theorem checkHeader_of_declared_below
    (h : 6 + (256 * l1.toNat + l0.toNat) < 8 + data.length) :
    checkHeader (t1 :: t0 :: 0 :: 0 :: l1 :: l0 :: unit :: fc :: data) = .error .lengthMismatch := by
  rw [checkHeader_of_protocolId_zero, if_neg (Nat.lt_asymm h), if_pos h]

theorem checkHeader_of_declared_exact
    (h : 6 + (256 * l1.toNat + l0.toNat) = 8 + data.length) :
    checkHeader (t1 :: t0 :: 0 :: 0 :: l1 :: l0 :: unit :: fc :: data) =
      .ok ⟨be16 t1 t0, unit, fc, data⟩ := by
  rw [checkHeader_of_protocolId_zero, if_neg (Nat.not_lt.mpr h.le), if_neg (Nat.not_lt.mpr h.ge)]

end Bytes

/-! ### Response bodies by function code (40_codec.md R142, R148) -/

section Body

variable {fc : Byte} (tid : Half) (unit : Byte) (data : List Byte)

theorem responseBody_of_exception (hb : fc.getLsbD 7 = true) :
    responseBody ⟨tid, unit, fc, data⟩ = exceptionBody data := by
  rw [responseBody, isExceptionFc, if_pos hb]

theorem responseBody_of_coils (h : fc = 0x01 ∨ fc = 0x02) :
    responseBody ⟨tid, unit, fc, data⟩ = coilBody data := by
  obtain rfl | rfl := h <;> simp [responseBody, isExceptionFc]

theorem responseBody_of_registers (h : fc = 0x03 ∨ fc = 0x04) :
    responseBody ⟨tid, unit, fc, data⟩ = registerBody data := by
  obtain rfl | rfl := h <;> simp [responseBody, isExceptionFc]

theorem responseBody_of_writeAck : responseBody ⟨tid, unit, 0x05, data⟩ = ackBody data := by
  simp [responseBody, isExceptionFc]

theorem responseBody_of_unsupported (hb : fc.getLsbD 7 = false) (hs : supportedFc fc = false) :
    responseBody ⟨tid, unit, fc, data⟩ = .error (.unsupportedFunction fc) := by
  rw [responseBody, isExceptionFc, if_neg (ne_true_of_eq_false hb)]
  split
  case h_6 => rfl
  all_goals
    rename_i hn
    simp [supportedFc, hn] at hs

end Body

/-! ### DEC_RESPONSE (40_codec.md R142) -/

theorem exec_decResponse_of_error {f : Frame} {k : FrameError} (h : checkHeader f = .error k)
    (s : State) : exec (.decResponse f) s = .next (s.emit (.decodeError (frameDecodeError k))) := by
  simp only [exec, execDecResponse, decodeResponse, h, responseOutput]

/-- The response-side instruction of a checked header puts out the body that DEC_RESPONSE reads from it. -/
theorem exec_responseInstr (h : Header) (s : State) : exec (responseInstr h) s =
    .next (s.emit (responseOutput (withHeader h.tid h.unit h.fc (responseBody h)))) := by
  obtain ⟨tid, unit, fc, data⟩ := h
  obtain ⟨hb, he⟩ | ⟨hfc, he⟩ | ⟨hfc, he⟩ | ⟨rfl, he⟩ | ⟨hb, hs, he⟩ :=
    responseInstr_cases tid unit fc data
  · rw [he, responseBody_of_exception tid unit data hb]
    rfl
  · rw [he, responseBody_of_coils tid unit data hfc]
    rfl
  · rw [he, responseBody_of_registers tid unit data hfc]
    rfl
  · rw [he, responseBody_of_writeAck]
    rfl
  · rw [he, responseBody_of_unsupported tid unit data hb hs]
    rfl

theorem exec_decResponse_of_ok {f : Frame} {h : Header} (hk : checkHeader f = .ok h) (s : State) :
    exec (.decResponse f) s = exec (responseInstr h) s := by
  rw [exec_responseInstr]
  simp only [exec, execDecResponse, decodeResponse, hk]

theorem exec_responseInstr_ite (tid : Half) (unit fc : Byte) (data : List Byte) (s : State) :
    exec (responseInstr ⟨tid, unit, fc, data⟩) s =
      if fc.getLsbD 7 = true then exec (.rspException tid unit fc data) s
      else if fc = 0x03 ∨ fc = 0x04 then exec (.rspRegisters tid unit fc data) s
      else if fc = 0x01 ∨ fc = 0x02 then exec (.rspCoils tid unit fc data) s
      else if fc = 0x05 then exec (.rspWriteAck tid unit data) s
      else exec (.rspUnsupported tid unit fc data) s := by
  split_ifs with hb hregs hcoils hack
  · rw [responseInstr_of_exception hb]
  · rw [responseInstr_of_registers hregs]
  · rw [responseInstr_of_coils hcoils]
  · rw [hack, responseInstr_of_writeAck]
  · have hs : supportedFc fc = false := by
      refine Bool.eq_false_iff.mpr fun hs => ?_
      obtain h | h | h | h | h := supportedFc_cases hs
      · exact hcoils (.inl h)
      · exact hcoils (.inr h)
      · exact hregs (.inl h)
      · exact hregs (.inr h)
      · exact hack h
    rw [responseInstr_of_unsupported (Bool.eq_false_iff.mpr hb) hs]

/-- Settles O3: the header check on the bytes, then the instruction of the function code. -/
theorem decResponseDispatchesByFunctionCode : Obligations.DecResponseDispatchesByFunctionCode := by
  intro f s
  have rejected (k : FrameError) (hk : checkHeader f = .error k) : checkHeader f = .error k ∧
      exec (.decResponse f) s = .next (s.emit (.decodeError (frameDecodeError k))) :=
    ⟨hk, exec_decResponse_of_error hk s⟩
  refine ⟨⟨_, rfl⟩, fun hshort => rejected _ (checkHeader_of_short hshort),
    fun t1 t0 p1 p0 l1 l0 unit fc data hf => ?_⟩
  subst hf
  have hlen : ([t1, t0, p1, p0, l1, l0, unit, fc] ++ data).length = 8 + data.length :=
    List.length_append
  rw [hlen]
  refine ⟨fun hpid => rejected _ (checkHeader_of_badProtocolId hpid), ?_, ?_, ?_⟩
  · rintro rfl rfl habove
    exact rejected _ (checkHeader_of_declared_above habove)
  · rintro rfl rfl hbelow
    exact rejected _ (checkHeader_of_declared_below hbelow)
  · rintro rfl rfl hexact
    have hk := checkHeader_of_declared_exact (t1 := t1) (t0 := t0) (unit := unit) (fc := fc) hexact
    exact ⟨hk, (exec_decResponse_of_ok hk s).trans (exec_responseInstr_ite _ unit fc data s)⟩

/-! ### DEC_REQUEST (40_codec.md R150, R151) -/

theorem supportedFc_iff (fc : Byte) : supportedFc fc = true ↔ 1 ≤ fc.toNat ∧ fc.toNat ≤ 5 := by
  simp only [supportedFc, Bool.and_eq_true, decide_eq_true_eq]

theorem supportedFc_eq_false_iff (fc : Byte) :
    supportedFc fc = false ↔ fc.toNat = 0 ∨ 6 ≤ fc.toNat := by
  rw [← Bool.not_eq_true, supportedFc_iff]
  omega

section Request

variable {fc : Byte} (tid : Half) (unit : Byte)

theorem decodedRequest_readFc (h : 1 ≤ fc.toNat ∧ fc.toNat ≤ 4) (a q : Half) :
    decodedRequest ⟨tid, unit, fc, u16be a ++ u16be q⟩ = ⟨tid, unit, fc, .read a q⟩ := by
  have hs : supportedFc fc = true := (supportedFc_iff fc).mpr (by omega)
  have h5 : fc ≠ 0x05 := by bv_omega
  exact decodedRequest_read hs h5 tid unit a q

theorem decodedRequest_writeCoil (a q : Half) :
    decodedRequest ⟨tid, unit, 0x05, u16be a ++ u16be q⟩ = ⟨tid, unit, 0x05, .writeCoil a q⟩ := by
  rw [decodedRequest, pduArgs_fields]
  rfl

theorem decodedRequest_malformed (hs : supportedFc fc = true) {data : List Byte}
    (hlen : data.length ≠ 4) :
    decodedRequest ⟨tid, unit, fc, data⟩ = ⟨tid, unit, fc, .malformed⟩ := by
  simp only [decodedRequest, hs, if_true, pduArgs_of_length_ne hlen, requestBody]

theorem decodedRequest_unknown (hs : supportedFc fc = false) (data : List Byte) :
    decodedRequest ⟨tid, unit, fc, data⟩ = ⟨tid, unit, fc, .unknown⟩ := by
  rw [decodedRequest, hs]
  rfl

end Request

theorem exec_decRequest_of_error {f : Frame} {k : FrameError} (h : checkHeader f = .error k)
    (s : State) : exec (.decRequest f) s = .next (s.emit (.decodeError (frameDecodeError k))) := by
  simp only [exec, execDecRequest, decodeRequest, h, Except.map, requestOutput]

theorem exec_decRequest_of_ok {f : Frame} {h : Header} (hk : checkHeader f = .ok h) (s : State) :
    exec (.decRequest f) s = .next (s.emit (.request (decodedRequest h))) := by
  simp only [exec, execDecRequest, decodeRequest, hk, Except.map, requestOutput]

/-- Four data bytes are two big-endian fields. -/
theorem four_bytes_eq_fields (a1 a0 q1 q0 : Byte) :
    [a1, a0, q1, q0] = u16be (be16 a1 a0) ++ u16be (be16 q1 q0) := by
  rw [u16be_be16, u16be_be16]
  rfl

/-- Settles O9: the header check's error, or the kind of the decoded request. -/
theorem decRequestDecodesByFunctionCode : Obligations.DecRequestDecodesByFunctionCode := by
  intro f s
  refine ⟨⟨_, rfl⟩, fun hk => exec_decRequest_of_error hk s, fun hk => exec_decRequest_of_error hk s,
    fun hk => exec_decRequest_of_error hk s, fun tid unit fc data hk => ?_⟩
  rw [exec_decRequest_of_ok hk s]
  refine ⟨fun hread a1 a0 q1 q0 hdata => ?_, fun hwrite a1 a0 q1 q0 hdata => ?_,
    fun hs hlen => ?_, fun hs => ?_⟩
  · rw [hdata, four_bytes_eq_fields, decodedRequest_readFc tid unit hread]
  · rw [hdata, hwrite, four_bytes_eq_fields, decodedRequest_writeCoil]
  · rw [decodedRequest_malformed tid unit ((supportedFc_iff fc).mpr hs) hlen]
  · rw [decodedRequest_unknown tid unit ((supportedFc_eq_false_iff fc).mpr hs)]

/-! ### Requests there and back (40_codec.md R152, R153) -/

theorem decodeRequest_encodeReadRequest (tid : Half) (unit fc : Byte) (start count : Half) :
    decodeRequest (encodeReadRequest tid unit fc start count) =
      .ok (decodedRequest ⟨tid, unit, fc, u16be start ++ u16be count⟩) := by
  rw [decodeRequest, checkHeader_encodeReadRequest]
  rfl

/-- Settles O15: an encoded request passes the header check with its fields, and a coil write request is
one with code 0x05. -/
theorem requestsRoundTrip : Obligations.RequestsRoundTrip := by
  intro tid unit fc start count value
  rw [encodeWriteCoilRequest_eq]
  simp only [decodeRequest_encodeReadRequest]
  refine ⟨fun hread => ?_, ?_, fun hs => ?_, ?_⟩
  · rw [decodedRequest_readFc tid unit hread]
  · rw [decodedRequest_writeCoil]
  · rw [decodedRequest_unknown tid unit ((supportedFc_eq_false_iff fc).mpr hs)]
  · rw [decodedRequest_writeCoil, coilValue]

/-! ### Responses there and back (40_codec.md R161) -/

/-- DEC_RESPONSE of a frame built around a PDU reads the PDU's body. -/
theorem decodeResponse_adu {data : List Byte} (h : data.length + 2 < 65536) (tid : Half)
    (unit fc : Byte) : decodeResponse (adu tid unit (fc :: data)) =
      withHeader tid unit fc (responseBody ⟨tid, unit, fc, data⟩) := by
  rw [decodeResponse, checkHeader_adu tid unit fc data h]

/-- The byte_count an encoder writes is the one a decoder checks, where it fits a byte. -/
theorem countedBytes_encoded {bytes : List Byte} {n : Nat} (hn : n ≤ 255) (hlen : bytes.length = n) :
    countedBytes (BitVec.ofNat 8 n :: bytes) = .ok bytes := by
  refine countedBytes_of_exact ?_
  rw [hlen, BitVec.toNat_ofNat, Nat.mod_eq_of_lt (by omega)]

theorem getLsbD_packCoils {bs : List Bool} {j i : Nat} (hj : j < byteCount bs.length) (hi : i < 8) :
    ((packCoils bs).getD j 0).getLsbD i = bs.getD (8 * j + i) false :=
  (coilsPackLeastSignificantBitFirst.1 bs).2 j i hj hi

theorem length_le_byteCount (n : Nat) : n ≤ 8 * byteCount n := by
  unfold byteCount
  omega

/-- Unpacking the packed bits gives them back, padded with false to whole bytes: element `k` is bit `k % 8`
of byte `k / 8`. -/
theorem unpackCoils_packCoils (bs : List Bool) : unpackCoils (packCoils bs) =
    bs ++ List.replicate (8 * byteCount bs.length - bs.length) false := by
  have hle := length_le_byteCount bs.length
  have hlen : (unpackCoils (packCoils bs)).length =
      (bs ++ List.replicate (8 * byteCount bs.length - bs.length) false).length := by
    rw [unpackCoils_length, packCoils_length, List.length_append, List.length_replicate]
    omega
  refine List.ext_getElem hlen fun k hk hk' => Option.some.inj ?_
  rw [← List.getElem?_eq_getElem hk]
  have hj : k / 8 < byteCount bs.length := by
    rw [unpackCoils_length, packCoils_length] at hk
    omega
  have hbit := getElem?_unpackCoils (d := packCoils bs) (j := k / 8) (i := k % 8)
    (by rwa [packCoils_length]) (Nat.mod_lt _ (by decide))
  rw [getLsbD_packCoils hj (Nat.mod_lt _ (by decide)), Nat.div_add_mod] at hbit
  rw [hbit, List.getElem_append]
  split
  · next hin => rw [List.getD_eq_getElem _ _ hin]
  · next hout => rw [List.getElem_replicate, List.getD_eq_default _ _ (Nat.not_lt.mp hout)]

theorem getLsbD_exceptionFc (fc : Byte) : (exceptionFc fc).getLsbD 7 = true := by
  simp [exceptionFc]

theorem encodeResponse_regs_eq_some {tid : Half} {unit fc : Byte} {vs : List Half} {f : Frame}
    (h : encodeResponse (.regs tid unit fc vs) = some f) :
    2 * vs.length ≤ 255 ∧ f = regsFrame tid unit fc vs := by
  obtain hlong | hfit := Nat.lt_or_ge 255 (2 * vs.length)
  · rw [encodeResponse_regs_of_long hlong] at h
    cases h
  · rw [encodeResponse_regs hfit] at h
    exact ⟨hfit, (Option.some.inj h).symm⟩

theorem encodeResponse_coils_eq_some {tid : Half} {unit fc : Byte} {bs : List Bool} {f : Frame}
    (h : encodeResponse (.coils tid unit fc bs) = some f) :
    byteCount bs.length ≤ 255 ∧ f = coilsFrame tid unit fc bs := by
  obtain hlong | hfit := Nat.lt_or_ge 255 (byteCount bs.length)
  · rw [encodeResponse_coils_of_long hlong] at h
    cases h
  · rw [encodeResponse_coils hfit] at h
    exact ⟨hfit, (Option.some.inj h).symm⟩

theorem decodeResponse_regsFrame {fc : Byte} {vs : List Half} (hfc : fc = 0x03 ∨ fc = 0x04)
    (hfit : 2 * vs.length ≤ 255) (tid : Half) (unit : Byte) :
    decodeResponse (regsFrame tid unit fc vs) = .ok ⟨tid, unit, fc, .registers vs⟩ := by
  have hbytes := countedBytes_encoded hfit (regBytes_length vs)
  have heven : (regBytes vs).length % 2 = 0 := by
    rw [regBytes_length]
    omega
  rw [regsFrame, decodeResponse_adu (by simp only [List.length_cons, regBytes_length]; omega),
    responseBody_of_registers _ _ _ hfc, registerBody_of_even hbytes heven, regValues_regBytes,
    withHeader]

theorem decodeResponse_coilsFrame {fc : Byte} {bs : List Bool} (hfc : fc = 0x01 ∨ fc = 0x02)
    (hfit : byteCount bs.length ≤ 255) (tid : Half) (unit : Byte) :
    decodeResponse (coilsFrame tid unit fc bs) = .ok ⟨tid, unit, fc,
      .coils (bs ++ List.replicate (8 * byteCount bs.length - bs.length) false)⟩ := by
  have hbytes := countedBytes_encoded hfit (packCoils_length bs)
  rw [coilsFrame, decodeResponse_adu (by simp only [List.length_cons, packCoils_length]; omega),
    responseBody_of_coils _ _ _ hfc, coilBody_of_ok hbytes, unpackCoils_packCoils, withHeader]

theorem decodeResponse_adu_ackPdu (tid : Half) (unit : Byte) (addr value : Half) :
    decodeResponse (adu tid unit (ackPdu addr value)) = .ok ⟨tid, unit, 0x05, .writeAck addr value⟩ := by
  have hbody : ackBody (u16be addr ++ u16be value) = .ok (.writeAck addr value) := by
    simp only [u16be, List.cons_append, List.nil_append, ackBody, be16_u16be]
  rw [ackPdu, decodeResponse_adu (by simp), responseBody_of_writeAck, hbody, withHeader]

theorem decodeResponse_adu_excPdu (tid : Half) (unit fc code : Byte) :
    decodeResponse (adu tid unit (excPdu fc code)) =
      .ok ⟨tid, unit, exceptionFc fc, .exception code⟩ := by
  rw [excPdu, decodeResponse_adu (by simp), responseBody_of_exception _ _ _ (getLsbD_exceptionFc fc),
    exceptionBody, withHeader]

/-- Settles O16: each form of response has one frame, which decodes to the body it was made from. -/
theorem responsesRoundTrip : Obligations.ResponsesRoundTrip := by
  intro tid unit fc f
  refine ⟨fun vs hfc henc => ?_, fun bs hfc henc => ?_, fun addr value henc => ?_,
    fun code henc => ?_⟩
  · obtain ⟨hfit, rfl⟩ := encodeResponse_regs_eq_some henc
    exact decodeResponse_regsFrame hfc hfit tid unit
  · obtain ⟨hfit, rfl⟩ := encodeResponse_coils_eq_some henc
    exact decodeResponse_coilsFrame hfc hfit tid unit
  · cases henc
    exact decodeResponse_adu_ackPdu tid unit addr value
  · cases henc
    exact decodeResponse_adu_excPdu tid unit fc code

end Sys2Proof.Machine

/-! PROOFS. One step of an exchange as its instruction (41_dispatch.md R180): what Validate latches and which
exception it takes (R183 to R185, R191, R193 to R195, R198), and the close on a framing error (R199). -/

namespace Sys2Proof.Machine

/-! ### The step of a request, phase by phase (41_dispatch.md R180) -/

section RequestStep

variable {i : Nat} {e : Engine} {s : State}

/-- A request that the decoder gives is one step of its engine (30_encoding.md R110). -/
theorem exec_requestInstr (i : Nat) (h : Header) (s : State) :
    exec (requestInstr i h) s = requestStep i (decodedRequest h) (executeRule h.fc) s := by
  rw [← runRequest_eq_exec, runRequest_eq_requestStep]

variable {r : DecodedRequest} {execute : Nat → Engine → State → Result}

theorem requestStep_of_received (he : s.engine? i = some e) (hp : e.phase = .received) :
    requestStep i r execute s = .next (validate i e r s) := by
  simp only [requestStep, he, hp]

theorem requestStep_of_validated_none (he : s.engine? i = some e) (hp : e.phase = .validated)
    (hx : e.exc = none) : requestStep i r execute s = execute i e s := by
  simp only [requestStep, he, hp, hx]

theorem requestStep_of_validated_some {code : Byte} (he : s.engine? i = some e)
    (hp : e.phase = .validated) (hx : e.exc = some code) :
    requestStep i r execute s = respond i e s := by
  simp only [requestStep, he, hp, hx]

theorem requestStep_of_executed (he : s.engine? i = some e) (hp : e.phase = .executed) :
    requestStep i r execute s = respond i e s := by
  simp only [requestStep, he, hp]

end RequestStep

/-! ### What Validate latches (41_dispatch.md R185) -/

/-- Validate of a request for an accepted unit: the latches, with the exception that validation gives. -/
theorem validate_of_accepted {r : DecodedRequest} {s : State} (hu : unitAccepted s.cfg r.unit = true)
    (i : Nat) (e : Engine) : validate i e r s = (s.afterLatch r).setEngine i
      { e.latch r s.freeCount with exc := validateRequest s.cfg r, phase := .validated } := by
  cases hv : validateRequest s.cfg r <;> simp only [validate, hu, hv, if_true, takeException]

/-- Validate of a request for another unit drops it (R198). -/
theorem validate_of_foreign {r : DecodedRequest} {s : State} (hu : unitAccepted s.cfg r.unit = false)
    (i : Nat) (e : Engine) : validate i e r s = ((s.afterLatch r).setEngine i
      { e.latch r s.freeCount with phase := .idle }).emit (.dropped i) := by
  simp only [validate, hu, Bool.false_eq_true, if_false]

theorem engine?_afterLatch (s : State) (r : DecodedRequest) (i : Nat) :
    (s.afterLatch r).engine? i = s.engine? i := by
  obtain ⟨-, -, -, heng, -⟩ := afterLatch_frame s r
  rw [State.engine?, heng, State.engine?]

theorem outputs_afterLatch (s : State) (r : DecodedRequest) : (s.afterLatch r).outputs = s.outputs := by
  obtain ⟨-, -, -, -, -, -, -, hout⟩ := afterLatch_frame s r
  exact hout

/-- Validate of a request for an accepted unit leaves the outputs, and its engine holds the latches. -/
theorem validate_accepted_effect {i : Nat} {e : Engine} {r : DecodedRequest} {s : State}
    (he : s.engine? i = some e) (hu : unitAccepted s.cfg r.unit = true) :
    OnlyEngine i s (validate i e r s) ∧ (validate i e r s).outputs = s.outputs ∧
    (validate i e r s).engine? i = some
      { e.latch r s.freeCount with exc := validateRequest s.cfg r, phase := .validated } := by
  refine ⟨validate_onlyEngine i e r s, ?_⟩
  rw [validate_of_accepted hu]
  exact ⟨outputs_afterLatch s r,
    State.engine?_setEngine_of_some ((engine?_afterLatch s r i).trans he) _⟩

/-- Validate of a request for another unit puts out the drop and leaves its engine Idle, with `why` and
`tx` as they were (R198). -/
theorem validate_foreign_effect {i : Nat} {e : Engine} {r : DecodedRequest} {s : State}
    (he : s.engine? i = some e) (hu : unitAccepted s.cfg r.unit = false) :
    OnlyEngine i s (validate i e r s) ∧ (validate i e r s).outputs = s.outputs ++ [.dropped i] ∧
    ∃ e', (validate i e r s).engine? i = some e' ∧ e'.phase = .idle ∧ e'.why = e.why ∧
      e'.tx = e.tx := by
  refine ⟨validate_onlyEngine i e r s, ?_⟩
  rw [validate_of_foreign hu]
  obtain ⟨-, -, -, htx, hwhy⟩ := latch_frame e r s.freeCount
  exact ⟨congrArg (· ++ _) (outputs_afterLatch s r), _,
    State.engine?_setEngine_of_some ((engine?_afterLatch s r i).trans he) _, rfl, hwhy, htx⟩

theorem unitAccepted_eq_false {c : Config} {unit u : Byte} (hc : c.acceptUnit = some u)
    (hu : unit ≠ u) : unitAccepted c unit = false := by
  rw [← Bool.not_eq_true, unitAccepted_iff]
  exact fun h => hu (h u hc)

/-! ### The exception that validation gives -/

/-- Quantity, then range, of a read (R183, R184). -/
theorem validateRead_eq (size limit : Nat) (a q : Half) : validateRead size limit a q =
    if q.toNat = 0 ∨ limit < q.toNat then some 0x03
    else if size < a.toNat + q.toNat then some 0x02 else none := by
  unfold validateRead
  split
  · rfl
  · by_cases hr : size < a.toNat + q.toNat
    · rw [if_pos hr, if_neg (by rw [inRange_iff]; omega)]
      rfl
    · rw [if_neg hr, if_pos (by rw [inRange_iff]; omega)]

theorem legalCoilValue_iff (v : Half) : legalCoilValue v = true ↔ v = 0xFF00 ∨ v = 0x0000 := by
  simp only [legalCoilValue, Bool.or_eq_true, beq_iff_eq]

theorem mem_roCoils (a : Nat) : a ∈ roCoils ↔ a < 3 := by
  simp only [roCoils, List.mem_cons, List.not_mem_nil, or_false]
  omega

/-- Coil value, then address, then the read-only coils, of a coil write (R191, R184, R193). -/
theorem validateWriteCoil_eq (c : Config) (a v : Half) : validateWriteCoil c a v =
    if v ≠ 0xFF00 ∧ v ≠ 0x0000 then some 0x03
    else if c.coilSize ≤ a.toNat then some 0x02
    else if a.toNat < 3 ∧ c.roCoilWrite = .reject then some 0x02
    else none := by
  unfold validateWriteCoil
  by_cases hv : v ≠ 0xFF00 ∧ v ≠ 0x0000
  · rw [if_pos hv, if_neg (by rw [legalCoilValue_iff]; tauto)]
    rfl
  · rw [if_neg hv, if_pos (by rw [legalCoilValue_iff]; tauto)]
    by_cases ha : c.coilSize ≤ a.toNat
    · rw [if_pos ha, if_neg (by rw [inRange_iff]; omega)]
      rfl
    · rw [if_neg ha, if_pos (by rw [inRange_iff]; omega)]
      simp only [mem_roCoils]
      rfl

/-! ### Validate as a step -/

section Validate

variable {s : State} {i : Nat} {e : Engine} {tid : Half} {unit : Byte}

/-- Validate of a read (R183 to R185), by whichever read instruction. -/
theorem requestStep_validates_read {fc : Byte} {a q : Half} {execute : Nat → Engine → State → Result}
    (he : s.engine? i = some e) (hp : e.phase = .received) (hu : unitAccepted s.cfg unit = true) :
    requestStep i ⟨tid, unit, fc, .read a q⟩ execute s = .next (s.setEngine i { e with
      tid := tid, unit := unit, fc := fc, kind := .read, a := a, q := q,
      exc := validateRequest s.cfg ⟨tid, unit, fc, .read a q⟩, phase := .validated }) := by
  rw [requestStep_of_received he hp, validate_of_accepted (by exact hu)]
  rfl

/-- A request with no fields latches its header and takes the exception of its kind (R194, R195). -/
theorem requestStep_rejects {r : DecodedRequest} {execute : Nat → Engine → State → Result} {code : Byte}
    (he : s.engine? i = some e) (hp : e.phase = .received) (hu : unitAccepted s.cfg r.unit = true)
    (hx : validateRequest s.cfg r = some code) : NextWith (requestStep i r execute s) fun t =>
      OnlyEngine i s t ∧ t.outputs = s.outputs ∧ t.engine? i = some
        { e.latch r s.freeCount with exc := some code, phase := .validated } := by
  refine ⟨_, requestStep_of_received he hp, ?_⟩
  rw [← hx]
  exact validate_accepted_effect he hu

end Validate

/-- Settles O18: the four read instructions are one step, and differ in the table and the limit. -/
theorem readRequestsAreValidated : Obligations.ReadRequestsAreValidated := by
  intro s i e tid unit a q he hp hu exc t
  have validated (fc : Byte) (execute : Nat → Engine → State → Result) (x : Option Byte)
      (hx : validateRequest s.cfg ⟨tid, unit, fc, .read a q⟩ = x) :
      requestStep i ⟨tid, unit, fc, .read a q⟩ execute s = .next (t fc x) := by
    subst hx
    exact requestStep_validates_read he hp ((unitAccepted_iff _ _).mpr hu)
  have coils := validateRead_eq s.cfg.coilSize maxCoils a q
  have regs := validateRead_eq s.cfg.hrSize maxRegs a q
  exact ⟨validated 0x01 _ _ coils, validated 0x02 _ _ coils, validated 0x03 _ _ regs,
    validated 0x04 _ _ regs⟩

/-- Settles O19: Validate of a coil write, with the exception of `validateWriteCoil_eq`. -/
theorem coilWriteRequestsAreValidated : Obligations.CoilWriteRequestsAreValidated := by
  intro s i e tid unit a v he hp hu
  rw [← validateWriteCoil_eq]
  refine (requestStep_of_received he hp).trans (congrArg _ ?_)
  exact validate_of_accepted ((unitAccepted_iff _ _).mpr hu) i e

/-- Settles O20: `requestStep_rejects` for the malformed form of each of the five codes. -/
theorem malformedRequestsTakeIllegalDataValue : Obligations.MalformedRequestsTakeIllegalDataValue := by
  intro s i e tid unit data he hp hu _ taken
  have rejected (fc : Byte) (execute : Nat → Engine → State → Result) :
      taken fc (requestStep i ⟨tid, unit, fc, .malformed⟩ execute s) := by
    obtain ⟨t, ht, honly, hout, heng⟩ := requestStep_rejects (execute := execute) he hp
      (r := ⟨tid, unit, fc, .malformed⟩) ((unitAccepted_iff _ _).mpr hu) rfl
    exact ⟨t, ht, honly, hout, _, _, _, heng⟩
  exact ⟨rejected 0x01 _, rejected 0x02 _, rejected 0x03 _, rejected 0x04 _, rejected 0x05 _⟩

/-- Settles O22: every request-side instruction is one step of its engine, and Validate drops it. -/
theorem foreignUnitsAreDropped : Obligations.ForeignUnitsAreDropped := by
  intro s i e h u he hp hc hu
  exact ⟨_, (exec_requestInstr i h s).trans (requestStep_of_received he hp),
    validate_foreign_effect he (unitAccepted_eq_false hc hu)⟩

/-- Settles O23: the engine's own step on a bad frame closes it, with the reason of the same name. -/
theorem framingErrorsClose : Obligations.FramingErrorsClose := by
  intro s i e rest k why hc ha he hp hk hwhy
  rw [step_advance hc ha, advance_of_received_error (by exact he) hp hk]
  obtain ⟨rfl, rfl⟩ | ⟨rfl, rfl⟩ | ⟨rfl, rfl⟩ := hwhy <;> rfl

/-! ### Validate and the store -/

/-- Validate commutes with every change of the state that keeps the configuration and the free values and
commutes with what Validate writes (R185). -/
theorem validate_comm {i : Nat} {e : Engine} {r : DecodedRequest} {s : State} {g : State → State}
    (hcfg : (g s).cfg = s.cfg) (hfree : (g s).freeCount = s.freeCount)
    (huse : (g s).useFree = g s.useFree)
    (hset : ∀ t e', (g t).setEngine i e' = g (t.setEngine i e'))
    (hemit : ∀ t o, (g t).emit o = g (t.emit o)) : validate i e r (g s) = g (validate i e r s) := by
  have latched : (g s).afterLatch r = g (s.afterLatch r) := by
    obtain ⟨tid, unit, fc, body⟩ := r
    cases body with
    | read | writeCoil => rfl
    | unknown | malformed => exact huse
  cases hu : unitAccepted s.cfg r.unit with
  | true =>
    rw [validate_of_accepted hu, validate_of_accepted (by rwa [hcfg]), latched, hset, hcfg, hfree]
  | false =>
    rw [validate_of_foreign hu, validate_of_foreign (by rwa [hcfg]), latched, hset, hemit, hfree]

/-- The state with other contents of the two tables. -/
def State.withStore (s : State) (hr : Memory Half) (co : Memory Bool) : State :=
  { s with hr := hr, co := co }

/-- Settles O60: Validate leaves the store and commutes with any change of it. -/
theorem validationReadsNoStore : Obligations.ValidationReadsNoStore := by
  intro s i e h hr co he hp
  obtain ⟨hhr, hco, -⟩ := (validate_onlyEngine i e (decodedRequest h) s).store
  refine ⟨_, (exec_requestInstr i h s).trans (requestStep_of_received he hp), hhr, hco, ?_⟩
  rw [exec_requestInstr, requestStep_of_received (by exact he) hp]
  exact congrArg _ (validate_comm (g := (·.withStore hr co)) rfl rfl rfl (fun _ _ => rfl) fun _ _ => rfl)

end Sys2Proof.Machine

/-! PROOFS. Execute and Respond as steps of an exchange (41_dispatch.md R182, R186 to R190, R192, R196). -/

namespace Sys2Proof.Machine

/-! ### Execute (41_dispatch.md R182) -/

/-- A validated request without an exception executes the rule of its function code. -/
theorem requestStep_executes {s t : State} {i : Nat} {e : Engine} {r : DecodedRequest} {fc : Byte}
    (he : s.engine? i = some e) (hp : e.phase = .validated) (hx : e.exc = none) (hf : e.fc = fc)
    (h : executeRule e.fc i e s = .next t) : requestStep i r (executeRule fc) s = .next t := by
  rw [requestStep_of_validated_none he hp hx, ← hf, h]

/-- Settles O24: `executeRule_coilRead`, reached from either coil read instruction. -/
theorem coilReadsExecute : Obligations.CoilReadsExecute := by
  intro s i e tid unit args he hp hx hk hr t
  have executed (fc : Byte) (hfc : fc = 0x01 ∨ fc = 0x02) (hf : e.fc = fc) :
      requestStep i (supportedRequest tid unit fc args) (executeRule fc) s = .next t :=
    requestStep_executes he hp hx hf (executeRule_coilRead i hk (by rwa [hf]) hr)
  exact ⟨executed 0x01 (.inl rfl), executed 0x02 (.inr rfl)⟩

/-- Settles O25: `exec_regRead_validated` for either register read instruction. -/
theorem registerReadsExecute : Obligations.RegisterReadsExecute := by
  intro s i e tid unit args he hp hx hk hr t
  exact ⟨fun hf => exec_regRead_validated he hp hx hk (.inl ⟨hf, rfl⟩) hr,
    fun hf => exec_regRead_validated he hp hx hk (.inr ⟨hf, rfl⟩) hr⟩

/-! ### The coil write's effect on the cells (41_dispatch.md R190, R192) -/

/-- From `s` to `t` engine `i` writes `b` to coil `a`: the reset coil clears itself, and true to it also
clears registers 0 and 1 and appends one event. -/
def CoilWritten (i a : Nat) (b : Bool) (s t : State) : Prop :=
  (∀ c, c ≠ a → t.readCoil c = s.readCoil c) ∧
  t.readCoil a = (if a = 10 then false else b) ∧
  (if a = 10 ∧ b = true then t.readReg 0 = 0x0000 ∧ t.readReg 1 = 0x0000 ∧
      (∀ c, c ≠ 0 → c ≠ 1 → t.readReg c = s.readReg c) ∧ t.simReset = s.simReset ++ [i]
    else t.hr = s.hr ∧ t.simReset = s.simReset)

theorem coilWritten_writeCoilStore {s : State} (hs : storeOk s = true) (i a : Nat) (b : Bool) :
    CoilWritten i a b s (writeCoilStore i a b s) := by
  obtain ⟨-, -, hco, -⟩ := (storeOk_iff s).mp hs
  refine ⟨fun c hc => readCoil_writeCoilStore_other hc s i b, ?_⟩
  obtain ⟨rfl, rfl, h⟩ | ⟨rfl, rfl, h⟩ | ⟨ha, h⟩ := writeCoilStore_cases s i a b <;> rw [h]
  · obtain ⟨h0, h1⟩ := readReg_resetSideEffect_cleared (wf_hr_of_storeOk hs) i
    refine ⟨State.readCoil_writeCoil_same (by rwa [resetSideEffect_co]) _ _, ?_⟩
    rw [if_pos ⟨rfl, rfl⟩]
    exact ⟨h0, h1, fun c h0 h1 => readReg_resetSideEffect_other h0 h1 s i, rfl⟩
  · refine ⟨State.readCoil_writeCoil_same hco _ _, ?_⟩
    rw [if_neg (by simp)]
    exact ⟨rfl, rfl⟩
  · rw [if_neg (show ¬a = 10 from ha), if_neg fun hreset => ha hreset.1]
    exact ⟨State.readCoil_writeCoil_same hco a b, rfl, rfl⟩

theorem CoilWritten.of_sameStore {i a : Nat} {b : Bool} {s t u : State} (h : CoilWritten i a b s t)
    (g : SameStore t u) : CoilWritten i a b s u := by
  obtain ⟨hhr, hco, hreset⟩ := g
  simpa only [CoilWritten, State.readReg_congr hhr, State.readCoil_congr hco, hhr, hreset] using h

/-- The coil write of an engine leaves the control fields and the other engines, and the engine holds
what Execute latches. -/
theorem writeCoilStore_setEngine_frame {s : State} {i : Nat} {e : Engine} (he : s.engine? i = some e)
    (a : Nat) (b : Bool) (e' : Engine) :
    let t := (writeCoilStore i a b s).setEngine i e'
    t.engine? i = some e' ∧ SameControl s t ∧ SameOtherEngines i s t ∧ t.outputs = s.outputs ∧
      t.freeCount = s.freeCount := by
  have heng (j : Nat) : (writeCoilStore i a b s).engine? j = s.engine? j := by
    rw [State.engine?, writeCoilStore_engines, State.engine?]
  refine ⟨State.engine?_setEngine_of_some ((heng i).trans he) e', by simp [SameControl],
    fun j hj => ?_, by simp, by simp⟩
  rw [State.engine?_setEngine_other _ i j e' hj, heng]

theorem coilBool_eq_decide (q : Half) : coilBool q = decide (q = 0xFF00) :=
  beq_eq_decide q 0xFF00

/-- Settles O26: `executeRule_coilWrite`, whose store is the one `CoilWritten` describes. -/
theorem coilWritesExecute : Obligations.CoilWritesExecute := by
  intro s i e tid unit args hs he hp hx hk hf ha
  refine ⟨_, requestStep_executes (r := supportedRequest tid unit 0x05 args) he hp hx hf
    (executeRule_coilWrite i hk hf ha), ?_⟩
  obtain ⟨heng, hcontrol, hothers, hout, hfree⟩ := writeCoilStore_setEngine_frame he e.a.toNat
    (coilBool e.q) { e with res := .ack, phase := .executed }
  obtain ⟨hcoils, hcoil, hregs⟩ := (coilWritten_writeCoilStore hs i e.a.toNat (coilBool e.q)).of_sameStore
    (u := (writeCoilStore i e.a.toNat (coilBool e.q) s).setEngine i
      { e with res := .ack, phase := .executed }) .rfl
  simp only [coilBool_eq_decide, decide_eq_true_eq] at hcoil hregs ⊢
  refine ⟨heng, hcontrol, hothers, hout, hfree, hcoils, fun hne => ?_, fun h10 => ?_⟩
  · rw [if_neg hne] at hcoil
    rw [if_neg fun hreset => hne hreset.1] at hregs
    exact ⟨hcoil, hregs⟩
  · rw [h10, if_pos rfl] at hcoil
    refine ⟨by rwa [h10], fun hq => ?_, fun hq => ?_⟩
    · rwa [if_pos ⟨h10, hq⟩] at hregs
    · rwa [if_neg fun hreset => hq hreset.2] at hregs

/-! ### Respond (41_dispatch.md R196) -/

/-- The 9-byte exception frame (40_codec.md R160). -/
def exceptionFrame (tid : Half) (unit fc code : Byte) : Frame :=
  u16be tid ++ [0x00, 0x00, 0x00, 0x03] ++ [unit, fc ||| 0x80, code]

theorem encodeResponse_exc (tid : Half) (unit fc code : Byte) :
    encodeResponse (.exc tid unit fc code) = some (exceptionFrame tid unit fc code) := by
  rw [encodeResponse, adu_excPdu]
  rfl

section Respond

variable {s : State} {i : Nat} {e : Engine}

/-- Respond of an exchange that carries an exception. -/
theorem respond_exception {code : Byte} (hx : e.exc = some code) (i : Nat) (s : State) :
    respond i e s = .next (s.setEngine i
      { e with tx := exceptionFrame e.tid e.unit e.fc code, phase := .responded }) :=
  respond_of_encoded i s (by rw [engineResponse, hx]) (encodeResponse_exc _ _ _ _)

/-- The response of a coil read's result. -/
theorem engineResponse_coils {bs : List Bool} (hx : e.exc = none) (hk : e.kind = .read)
    (hf : e.fc = 0x01 ∨ e.fc = 0x02) (hres : e.res = .coils bs) :
    engineResponse e = some (.coils e.tid e.unit e.fc bs) := by
  simp only [engineResponse, hx, successResponse, hk, hres, if_pos hf]

/-- The response of a register read's result. -/
theorem engineResponse_regs {vs : List Half} (hx : e.exc = none) (hk : e.kind = .read)
    (hf : e.fc = 0x03 ∨ e.fc = 0x04) (hres : e.res = .regs vs) :
    engineResponse e = some (.regs e.tid e.unit e.fc vs) := by
  simp only [engineResponse, hx, successResponse, hk, hres, if_pos hf]

/-- The response of a coil write. -/
theorem engineResponse_ack (hx : e.exc = none) (hk : e.kind = .writeCoil) (hf : e.fc = 0x05)
    (hres : e.res = .ack) : engineResponse e = some (.ack e.tid e.unit e.a e.q) := by
  simp only [engineResponse, hx, successResponse, hk, hres, if_pos hf]

/-- An executed exchange responds, whichever instruction steps its engine. -/
theorem exec_requestInstr_responds {h : Header} {r : Response} {f : Frame}
    (he : s.engine? i = some e) (hp : e.phase = .executed) (hr : engineResponse e = some r)
    (hf : encodeResponse r = some f) : exec (requestInstr i h) s =
      .next (s.setEngine i { e with tx := f, phase := .responded }) := by
  rw [exec_requestInstr, requestStep_of_executed he hp, respond_of_encoded i s hr hf]

end Respond

/-- Settles O27: an exception skips Execute and is answered with `exceptionFrame`. -/
theorem exceptionsAreResponded : Obligations.ExceptionsAreResponded := by
  intro s i e h code he hp hx
  rw [exec_requestInstr, requestStep_of_validated_some he hp hx, respond_exception hx]
  rfl

/-- Settles O28: the three results that fit the latches, each with the frame of its response. -/
theorem successesAreResponded : Obligations.SuccessesAreResponded := by
  intro s i e h he hp hx t
  refine ⟨fun hk hf bs hres hfit => ?_, fun hk hf vs hres hfit => ?_, fun hk hf hres => ?_⟩
  · exact exec_requestInstr_responds he hp (engineResponse_coils hx hk hf hres)
      (encodeResponse_coils hfit _ _ _)
  · exact exec_requestInstr_responds he hp (engineResponse_regs hx hk hf hres)
      (encodeResponse_regs hfit _ _ _)
  · exact exec_requestInstr_responds he hp (engineResponse_ack hx hk hf hres) rfl

/-! ### Events of the reset (20_memory.md R83) -/

theorem fetch_serve_next {s t : State} {i : Nat} {x : PortInput} (hf : fetch s = .instr (.serve i x))
    (h : step s = .next t) : exec (.serve i x) s.popMove = .next t := by
  have hc := configOk_of_step h
  simpa only [step, hc, if_true, hf, runFetched] using h

/-- An engine that executes a coil write in a step that completes exists. -/
theorem lt_nConn_of_executesCoilWrite {s t : State} {i : Nat} {a q : Half} (hs : stateOk s = true)
    (h : step s = .next t) (hw : ExecutesCoilWrite s i a q) : i < s.cfg.nConn := by
  obtain ⟨-, -, hlen, -⟩ := (stateOk_iff s).mp hs
  rw [← hlen]
  obtain ⟨e, rest, -, he, -⟩ | ⟨f, tid, unit, hf, -⟩ := hw
  · exact State.engine?_eq_some_lt he
  · obtain ⟨s₀, -, -, -, h₀, -⟩ := exec_serve_next (fetch_serve_next hf h)
    obtain ⟨e, he, -⟩ := receive_next h₀
    exact State.engine?_eq_some_lt (s := s) he

/-- Settles O58: of the writers of the store only an engine's coil write appends an event, and
`CoilWritten` says when. -/
theorem resetEventsClearTheEnergy : Obligations.ResetEventsClearTheEnergy := by
  intro s t hs h
  obtain ⟨-, -, hreset⟩ | ⟨a, v, -, -, -, hreset⟩ | ⟨a, b, -, -, -, hreset⟩ | ⟨ws, -, -, -, hreset⟩ |
    ⟨i, a, q, hw, hsame⟩ := step_store h
  · exact .inl hreset
  · exact .inl hreset
  · exact .inl hreset
  · obtain ⟨-, -, -, hbatch, -⟩ := applyWrites_frame s ws
    exact .inl (hreset.trans hbatch)
  · obtain ⟨-, hcoil, hregs⟩ := (coilWritten_writeCoilStore (storeOk_of_stateOk hs) i a.toNat
      (coilBool q)).of_sameStore hsame
    by_cases hwrite : a.toNat = 10 ∧ coilBool q = true
    · rw [if_pos hwrite] at hregs
      obtain ⟨h0, h1, -, hreset⟩ := hregs
      obtain ⟨h10, -⟩ := hwrite
      rw [h10, if_pos rfl] at hcoil
      exact .inr ⟨i, lt_nConn_of_executesCoilWrite hs h hw, hreset, h0, h1, hcoil⟩
    · rw [if_neg hwrite] at hregs
      obtain ⟨-, hreset⟩ := hregs
      exact .inl hreset

end Sys2Proof.Machine

/-! PROOFS. One SERVE from an Idle engine (41_dispatch.md R201): the answers to reads, to coil writes and to
requests that take an exception (R186 to R190, R195), the close and the drop (R198, R199), and CONNECT
(R200). -/

namespace Sys2Proof.Machine

/-! ### The engine inside one SERVE -/

/-- Receive of end-of-stream by an Idle engine (41_dispatch.md R181). -/
theorem receive_eof_of_idle {i : Nat} {e : Engine} {s : State} (he : s.engine? i = some e)
    (hp : e.phase = .idle) : receive i .eof s = .next (closeEngine i e .connectionClosed s) := by
  simp only [receive, he, hp, if_true]

/-- The engine once it has received `f` and Validate has latched its request `r` with exception `exc`
(41_dispatch.md R185). -/
def Engine.afterValidate (e : Engine) (f : Frame) (r : DecodedRequest) (n : Nat) (exc : Option Byte) :
    Engine :=
  { ({ e with rx := f, phase := .received } : Engine).latch r n with exc := exc, phase := .validated }

theorem afterLatch_setEngine (s : State) (i : Nat) (e : Engine) (r : DecodedRequest) :
    (s.setEngine i e).afterLatch r = (s.afterLatch r).setEngine i e := by
  obtain ⟨tid, unit, fc, body⟩ := r
  cases body <;> rfl

theorem onlyEngine_afterLatch_setEngine (i : Nat) (e : Engine) (r : DecodedRequest) (s : State) :
    OnlyEngine i s ((s.afterLatch r).setEngine i e) := by
  obtain ⟨hcfg, hhr, hco, heng, hlock, hreset, hagenda, -⟩ := afterLatch_frame s r
  refine ⟨⟨hhr, hco, hreset⟩, ⟨hcfg, hlock, hagenda⟩, fun j hj => ?_⟩
  rw [State.engine?_setEngine_other _ i j e hj, engine?_afterLatch]

section Serve

variable {s : State} {i : Nat} {e : Engine} {f : Frame} {h : Header}

/-- The first two steps of an exchange: Receive, and Validate of a request for an accepted unit. -/
theorem advance_validates_received {r : DecodedRequest} (he : s.engine? i = some e)
    (hk : checkHeader f = .ok h) (hr : decodedRequest h = r) (hu : unitAccepted s.cfg r.unit = true) :
    advance i (s.setEngine i { e with rx := f, phase := .received }) =
      .next ((s.afterLatch r).setEngine i
        (e.afterValidate f r s.freeCount (validateRequest s.cfg r))) := by
  rw [advance_of_received_ok (State.engine?_setEngine_of_some he _) rfl hk, hr,
    validate_of_accepted (by exact hu), afterLatch_setEngine, State.setEngine_setEngine]
  rfl

/-- SERVE of a request that passes validation: after Execute has latched `res` over the state `u`, the
response `g` goes to the host. -/
theorem exec_serve_executed {r : DecodedRequest} {res : ExecResult} {rsp : Response} {g : Frame}
    {u : State} (he : s.engine? i = some e) (hp : e.phase = .idle) (hk : checkHeader f = .ok h)
    (hr : decodedRequest h = r) (hu : unitAccepted s.cfg r.unit = true)
    (hv : validateRequest s.cfg r = none) :
    let e₁ := e.afterValidate f r s.freeCount none
    executeRule e₁.fc i e₁ ((s.afterLatch r).setEngine i e₁) =
      .next (u.setEngine i { e₁ with res := res, phase := .executed }) →
    u.engine? i = some e →
    engineResponse { e₁ with res := res, phase := .executed } = some rsp →
    encodeResponse rsp = some g →
    exec (.serve i (.frame f)) s = .next ((u.setEngine i
      { e₁ with res := res, tx := g, phase := .idle }).emit (.tx i g)) := by
  intro e₁ hexec hui hrsp hg
  have validated := advance_validates_received he hk hr hu
  rw [hv] at validated
  have executed := (advance_of_validated_none (State.engine?_setEngine_of_some
    ((engine?_afterLatch s r i).trans he) e₁) rfl rfl).trans hexec
  have holds (e' : Engine) : (u.setEngine i e').engine? i = some e' :=
    State.engine?_setEngine_of_some hui e'
  have responded := (advance_of_executed (holds { e₁ with res := res, phase := .executed }) rfl).trans
    (respond_of_encoded i _ hrsp hg)
  rw [State.setEngine_setEngine] at responded
  have delivered := deliver_of_responded (holds { e₁ with res := res, tx := g, phase := .responded }) rfl
  rw [returnToIdle, State.setEngine_setEngine] at delivered
  exact exec_serve_of_steps (receive_frame_of_idle he hp f) validated executed responded (holds _) rfl
    delivered

/-- SERVE of a request that validation rejects: it is answered with the exception frame, and nothing but
the engine, the outputs and the free values changes (R196, R202). -/
theorem exec_serve_exception {r : DecodedRequest} {code : Byte} (he : s.engine? i = some e)
    (hp : e.phase = .idle) (hk : checkHeader f = .ok h) (hr : decodedRequest h = r)
    (hu : unitAccepted s.cfg r.unit = true) (hv : validateRequest s.cfg r = some code) :
    let e₁ := e.afterValidate f r s.freeCount (some code)
    let g := exceptionFrame r.tid r.unit r.fc code
    exec (.serve i (.frame f)) s = .next (((s.afterLatch r).setEngine i
      { e₁ with tx := g, phase := .idle }).emit (.tx i g)) := by
  intro e₁ g
  have validated := advance_validates_received he hk hr hu
  rw [hv] at validated
  have holds (e' : Engine) : ((s.afterLatch r).setEngine i e').engine? i = some e' :=
    State.engine?_setEngine_of_some ((engine?_afterLatch s r i).trans he) e'
  have hframe : exceptionFrame e₁.tid e₁.unit e₁.fc code = g := by
    obtain ⟨htid, hunit, hfc⟩ := latch_header { e with rx := f, phase := .received } r s.freeCount
    simp only [e₁, Engine.afterValidate, htid, hunit, hfc, g]
  have responded := (advance_of_validated_some (holds e₁) rfl rfl).trans (respond_exception rfl i _)
  rw [hframe, State.setEngine_setEngine] at responded
  have waiting := advance_of_waiting (holds { e₁ with tx := g, phase := .responded }) (.inr (.inr rfl))
  have delivered := deliver_of_responded (holds { e₁ with tx := g, phase := .responded }) rfl
  rw [returnToIdle, State.setEngine_setEngine] at delivered
  exact exec_serve_of_steps (receive_frame_of_idle he hp f) validated responded waiting (holds _) rfl
    delivered

/-- Where the engine is Closed or Idle after Receive and its first step, SERVE ends there. -/
theorem exec_serve_of_waiting {x : PortInput} {s₀ s₁ : State} (h₀ : receive i x s = .next s₀)
    (h₁ : advance i s₀ = .next s₁) (he : s₁.engine? i = some e)
    (hp : e.phase = .closed ∨ e.phase = .idle) : exec (.serve i x) s = .next s₁ := by
  have waiting : advance i s₁ = .next s₁ := advance_of_waiting he (hp.imp_right .inl)
  have hdone : isResponded i s₁ = false := by
    obtain hp | hp := hp <;> simp [isResponded, he, hp]
  simp only [exec, execServe, finishExchange, andThen, h₀, h₁, waiting, hdone, Bool.false_eq_true,
    if_false]

end Serve

/-! ### Reads (41_dispatch.md R186 to R189) -/

/-- The response frame of a register read, with its length and its byte_count from the count read. -/
theorem regsFrame_readRegs (tid : Half) (unit fc : Byte) (s : State) (a q : Nat) :
    regsFrame tid unit fc (s.readRegs a q) = u16be tid ++ [0x00, 0x00] ++
      u16be (BitVec.ofNat 16 (2 * q + 3)) ++ [unit, fc, BitVec.ofNat 8 (2 * q)] ++
      (s.readRegs a q).flatMap u16be := by
  rw [regsFrame, adu_counted, regBytes_length, State.readRegs_length]
  simp only [regBytes, List.append_assoc, List.cons_append, List.nil_append]

/-- The response frame of a coil read, with its length and its byte_count from the count read. -/
theorem coilsFrame_readCoils (tid : Half) (unit fc : Byte) (s : State) (a q : Nat) :
    coilsFrame tid unit fc (s.readCoils a q) = u16be tid ++ [0x00, 0x00] ++
      u16be (BitVec.ofNat 16 ((q + 7) / 8 + 3)) ++ [unit, fc, BitVec.ofNat 8 ((q + 7) / 8)] ++
      packCoils (s.readCoils a q) := by
  rw [coilsFrame, adu_counted, packCoils_length, State.readCoils_length, byteCount]
  simp only [List.append_assoc, List.cons_append, List.nil_append]

/-- Settles O29: `exec_serve_regRead`, with its frame written out. -/
theorem serveAnswersRegisterReads : Obligations.ServeAnswersRegisterReads := by
  intro s i e tid unit fc a q he hp hu hfc hq hq' hr
  refine ⟨_, exec_serve_regRead hfc he hp ((unitAccepted_iff _ _).mpr hu) hq hq' hr,
    onlyEngine_emit (onlyEngine_setEngine i _ s) _,
    ⟨_, State.engine?_setEngine_of_some he _, rfl, rfl, rfl⟩, ?_⟩
  rw [regsFrame_readRegs]
  rfl

/-- SERVE of a coil read that passes validation (R186, R187): the addressed coils are latched and
answered, and nothing but the engine and the outputs changes. -/
theorem exec_serve_coilRead {s : State} {i : Nat} {e : Engine} {tid : Half} {unit fc : Byte}
    {a q : Half} (he : s.engine? i = some e) (hp : e.phase = .idle)
    (hu : unitAccepted s.cfg unit = true) (hfc : fc = 0x01 ∨ fc = 0x02) (hq : 1 ≤ q.toNat)
    (hq' : q.toNat ≤ 2000) (hr : a.toNat + q.toNat ≤ s.cfg.coilSize) :
    let f := encodeReadRequest tid unit fc a q
    let bs := s.readCoils a.toNat q.toNat
    exec (.serve i (.frame f)) s = .next ((s.setEngine i
      { e.latchRead f tid unit fc a q with
        res := .coils bs, tx := coilsFrame tid unit fc bs, phase := .idle }).emit
          (.tx i (coilsFrame tid unit fc bs))) := by
  intro f bs
  have hreq : decodedRequest ⟨tid, unit, fc, u16be a ++ u16be q⟩ = ⟨tid, unit, fc, .read a q⟩ :=
    decodedRequest_readFc tid unit (by obtain rfl | rfl := hfc <;> decide) a q
  have hvalid : validateRequest s.cfg ⟨tid, unit, fc, .read a q⟩ = none := by
    have hcoils := (validateRead_eq_none_iff s.cfg.coilSize maxCoils a q).mpr ⟨hq, hq', hr⟩
    exact (if_pos hfc).trans hcoils
  have hfit : byteCount bs.length ≤ 255 := by
    rw [State.readCoils_length, byteCount]
    omega
  have executed := executeRule_coilRead (e := e.latchRead f tid unit fc a q)
    (s := s.setEngine i (e.latchRead f tid unit fc a q)) i rfl hfc hr
  rw [State.setEngine_setEngine] at executed
  exact exec_serve_executed he hp (checkHeader_encodeReadRequest tid unit fc a q) hreq hu hvalid
    executed he (engineResponse_coils rfl rfl hfc rfl) (encodeResponse_coils hfit tid unit fc)

/-- Settles O30: `exec_serve_coilRead`, with its frame written out. -/
theorem serveAnswersCoilReads : Obligations.ServeAnswersCoilReads := by
  intro s i e tid unit fc a q he hp hu hfc hq hq' hr
  refine ⟨_, exec_serve_coilRead he hp ((unitAccepted_iff _ _).mpr hu) hfc hq hq' hr,
    onlyEngine_emit (onlyEngine_setEngine i _ s) _,
    ⟨_, State.engine?_setEngine_of_some he _, rfl, rfl, rfl⟩, ?_⟩
  rw [coilsFrame_readCoils]
  rfl

/-! ### Coil writes (41_dispatch.md R190) -/

theorem coilBool_coilValue (b : Bool) : coilBool (coilValue b) = b := by
  cases b <;> decide

/-- A coil write that the protocol may make passes validation (R191, R184, R193). -/
theorem validateWriteCoil_coilValue {c : Config} {a : Half} (ha : a.toNat < c.coilSize)
    (hro : a.toNat < 3 → c.roCoilWrite = .accept) (b : Bool) :
    validateWriteCoil c a (coilValue b) = none := by
  have hlegal : ¬(coilValue b ≠ 0xFF00 ∧ coilValue b ≠ 0x0000) := by
    cases b <;> decide
  have hwritable : ¬(a.toNat < 3 ∧ c.roCoilWrite = .reject) := fun ⟨h3, hreject⟩ => by
    rw [hro h3] at hreject
    cases hreject
  rw [validateWriteCoil_eq, if_neg hlegal, if_neg (by omega), if_neg hwritable]

/-- SERVE of a coil write that passes validation (R190): the store takes the write, and the request is
echoed. -/
theorem exec_serve_coilWrite {s : State} {i : Nat} {e : Engine} {tid : Half} {unit : Byte} {a : Half}
    {b : Bool} (he : s.engine? i = some e) (hp : e.phase = .idle)
    (hu : unitAccepted s.cfg unit = true) (ha : a.toNat < s.cfg.coilSize)
    (hro : a.toNat < 3 → s.cfg.roCoilWrite = .accept) :
    let f := encodeWriteCoilRequest tid unit a b
    let g := adu tid unit (ackPdu a (coilValue b))
    exec (.serve i (.frame f)) s = .next (((writeCoilStore i a.toNat b s).setEngine i
      { e.afterValidate f ⟨tid, unit, 0x05, .writeCoil a (coilValue b)⟩ s.freeCount none with
        res := .ack, tx := g, phase := .idle }).emit (.tx i g)) := by
  intro f g
  have hstore : (writeCoilStore i a.toNat b s).engine? i = some e := by
    rw [State.engine?, writeCoilStore_engines]
    exact he
  have executed := executeRule_coilWrite
    (e := e.afterValidate f ⟨tid, unit, 0x05, .writeCoil a (coilValue b)⟩ s.freeCount none)
    (s := s.setEngine i
      (e.afterValidate f ⟨tid, unit, 0x05, .writeCoil a (coilValue b)⟩ s.freeCount none))
    i rfl rfl ha
  rw [writeCoilStore_setEngine, State.setEngine_setEngine] at executed
  simp only [Engine.afterValidate, Engine.latch, coilBool_coilValue] at executed
  exact exec_serve_executed he hp (checkHeader_encodeReadRequest tid unit 0x05 a (coilValue b))
    (decodedRequest_writeCoil tid unit a (coilValue b)) hu (validateWriteCoil_coilValue ha hro b)
    executed hstore (engineResponse_ack rfl rfl rfl rfl) rfl

/-- Settles O31: `exec_serve_coilWrite`, whose store is the one `CoilWritten` describes. -/
theorem serveAnswersCoilWrites : Obligations.ServeAnswersCoilWrites := by
  intro s i e tid unit a b hs he hp hu ha hro
  refine ⟨_, exec_serve_coilWrite he hp ((unitAccepted_iff _ _).mpr hu) ha hro, ?_⟩
  obtain ⟨heng, hcontrol, hothers, hout, -⟩ := writeCoilStore_setEngine_frame he a.toNat b
    { e.afterValidate (encodeWriteCoilRequest tid unit a b)
        ⟨tid, unit, 0x05, .writeCoil a (coilValue b)⟩ s.freeCount none with
      res := .ack, tx := adu tid unit (ackPdu a (coilValue b)), phase := .idle }
  refine ⟨hcontrol, hothers, ⟨_, heng, rfl, rfl, rfl⟩, ?_, coilWritten_writeCoilStore hs i a.toNat b⟩
  rw [State.emit_outputs, hout, adu_ackPdu, u16be_coilValue]
  simp only [List.append_assoc, List.cons_append, List.nil_append]

/-! ### Exceptions, closes and drops -/

/-- Settles O21: an unknown code takes exception 0x01, in one step and in one SERVE. -/
theorem illegalFunctionTakesException : Obligations.IllegalFunctionTakesException := by
  intro s i e tid unit fc data he hfc hu
  have hu' := (unitAccepted_iff s.cfg unit).mpr hu
  refine ⟨fun hp => ?_, fun hp f hk => ?_⟩
  · obtain ⟨t, ht, honly, hout, heng⟩ := requestStep_rejects (execute := executeNothing) he hp
      (r := ⟨tid, unit, fc, .unknown⟩) hu' rfl
    exact ⟨t, ht, honly, hout, _, _, _, heng⟩
  · have hreq := decodedRequest_unknown tid unit ((supportedFc_eq_false_iff fc).mpr hfc) data
    refine ⟨_, exec_serve_exception he hp hk hreq hu' rfl,
      onlyEngine_emit (onlyEngine_afterLatch_setEngine i _ _ s) _, ?_⟩
    exact congrArg (· ++ _) (outputs_afterLatch s ⟨tid, unit, fc, .unknown⟩)

/-- Settles O34: each of the three ends the exchange at its first step, and SERVE ends there. -/
theorem serveClosesAndDrops : Obligations.ServeClosesAndDrops := by
  intro s i e he hp
  have holds (e' : Engine) : (s.setEngine i e').engine? i = some e' :=
    State.engine?_setEngine_of_some he e'
  refine ⟨fun f k hk => ?_, fun f h u hk hc hu => ?_, ?_⟩
  · have closed := advance_of_received_error (holds { e with rx := f, phase := .received }) rfl hk
    rw [closeEngine, State.setEngine_setEngine] at closed
    exact ⟨frameCloseReason k, by rintro rfl; rfl, by rintro rfl; rfl, by rintro rfl; rfl,
      exec_serve_of_waiting (receive_frame_of_idle he hp f) closed (holds _) (.inl rfl)⟩
  · have dropped := advance_of_received_ok (holds { e with rx := f, phase := .received }) rfl hk
    obtain ⟨honly, hout, e', heng, hidle, hwhy, -⟩ := validate_foreign_effect (r := decodedRequest h)
      (holds { e with rx := f, phase := .received }) (unitAccepted_eq_false hc hu)
    refine ⟨_, exec_serve_of_waiting (receive_frame_of_idle he hp f) dropped heng (.inr hidle),
      ⟨honly.store, honly.control, fun j hj => ?_⟩, hout, e', heng, hidle, hwhy⟩
    rw [honly.others j hj, State.engine?_setEngine_other s i j _ hj]
  · exact exec_serve_of_waiting (receive_eof_of_idle he hp) (advance_of_waiting (holds _) (.inl rfl))
      (holds _) (.inl rfl)

/-- Settles O38: CONNECT by the phase of the engine. -/
theorem connectOpensAClosedEngine : Obligations.ConnectOpensAClosedEngine := by
  intro s i e he
  refine ⟨fun hp => ?_, exec_connect_of_not_closed he⟩
  simp only [exec, execConnect, he, hp, if_true]

end Sys2Proof.Machine

/-! PROOFS. SERVE and the moves it stands for (41_dispatch.md R201): what an engine's steps do to its phase
(R180), that SERVE of an Idle engine of a legal state completes (R203), and that SERVE is the run of its
steps. -/

namespace Sys2Proof.Machine

/-! ### SERVE as a sequence of steps -/

/-- `n` steps of engine `i`, one after another. -/
def advances (i : Nat) : Nat → State → Result
  | 0, s => .next s
  | n + 1, s => andThen (advance i s) (advances i n)

/-- Deliver where there is a response (41_dispatch.md R201). -/
def deliverIfResponded (i : Nat) (s : State) : Result :=
  if isResponded i s then deliver i s else .next s

theorem andThen_assoc (r : Result) (f g : State → Result) :
    andThen (andThen r f) g = andThen r fun s => andThen (f s) g := by
  cases r <;> rfl

theorem andThen_congr {r : Result} {f g : State → Result} (h : ∀ s, r = .next s → f s = g s) :
    andThen r f = andThen r g := by
  cases r with
  | next s => exact h s rfl
  | fault | refused => rfl

/-- SERVE is Receive, three steps of the engine, and Deliver where there is a response. -/
theorem exec_serve_eq (i : Nat) (x : PortInput) (s : State) : exec (.serve i x) s =
    andThen (receive i x s) fun s₀ => andThen (advances i 3 s₀) (deliverIfResponded i) := by
  refine andThen_congr fun s₀ _ => ?_
  simp only [advances, andThen_assoc]
  rfl

theorem advances_sameControl {i n : Nat} {s t : State} (h : advances i n s = .next t) :
    SameControl s t := by
  induction n generalizing s with
  | zero =>
    injection h with h
    subst h
    exact .rfl
  | succ n ih =>
    obtain ⟨u, h₁, h⟩ := andThen_next h
    exact (advance_frame h₁).1.trans (ih h)

/-! ### The phases an engine passes through (41_dispatch.md R180) -/

/-- How many steps of its own an engine can still take in this phase before it waits for the host. -/
def stepsLeft : Phase → Nat
  | .received => 3
  | .validated => 2
  | .executed => 1
  | .closed | .idle | .responded => 0

/-- An engine's own step follows one row of R180's table and brings it nearer to the host's turn, or finds
it waiting. -/
theorem advance_phase {i : Nat} {e : Engine} {s t : State} (he : s.engine? i = some e)
    (h : advance i s = .next t) : ∃ e', t.engine? i = some e' ∧
      (e'.phase = e.phase ∧ stepsLeft e.phase = 0 ∨
        (e.phase, e'.phase) ∈ phaseMoves ∧ stepsLeft e'.phase < stepsLeft e.phase) := by
  obtain ⟨e₀, he₀, hcase⟩ := advance_cases h
  obtain rfl : e = e₀ := Option.some.inj (he.symm.trans he₀)
  obtain ⟨hp, hd, -, rfl⟩ | ⟨hp, k, -, rfl⟩ | ⟨hp, -, h⟩ | ⟨hp, h⟩ | ⟨hp, rfl⟩ := hcase
  · cases hu : unitAccepted s.cfg (decodedRequest hd).unit with
    | true =>
      obtain ⟨-, -, heng⟩ := validate_accepted_effect he hu
      exact ⟨_, heng, .inr (by simp [hp, phaseMoves, stepsLeft])⟩
    | false =>
      obtain ⟨-, -, e', heng, hidle, -⟩ := validate_foreign_effect he hu
      exact ⟨e', heng, .inr (by simp [hp, hidle, phaseMoves, stepsLeft])⟩
  · exact ⟨_, State.engine?_setEngine_of_some he _, .inr (by simp [hp, phaseMoves, stepsLeft])⟩
  · obtain ⟨u, res, hu, -, rfl⟩ := executeRule_next h
    have hui : u.engine? i = some e := by
      obtain rfl | ⟨-, -, -, rfl⟩ := hu
      · exact he
      · rwa [State.engine?, writeCoilStore_engines]
    exact ⟨_, State.engine?_setEngine_of_some hui _, .inr (by simp [hp, phaseMoves, stepsLeft])⟩
  · obtain ⟨r, f, -, -, rfl⟩ := respond_next h
    refine ⟨_, State.engine?_setEngine_of_some he _, .inr ?_⟩
    obtain ⟨hp, -⟩ | hp := hp <;> simp [hp, phaseMoves, stepsLeft]
  · refine ⟨e, he, .inl ⟨rfl, ?_⟩⟩
    obtain hp | hp | hp := hp <;> rw [hp] <;> rfl

theorem advances_stepsLeft {i n : Nat} {e : Engine} {s t : State} (he : s.engine? i = some e)
    (h : advances i n s = .next t) :
    ∃ e', t.engine? i = some e' ∧ stepsLeft e'.phase ≤ stepsLeft e.phase - n := by
  induction n generalizing s e with
  | zero =>
    injection h with h
    subst h
    exact ⟨e, he, Nat.le_refl _⟩
  | succ n ih =>
    obtain ⟨u, h₁, h⟩ := andThen_next h
    obtain ⟨e₁, he₁, hstep⟩ := advance_phase he h₁
    obtain ⟨e', he', hle⟩ := ih he₁ h
    refine ⟨e', he', ?_⟩
    obtain ⟨hp, h0⟩ | ⟨-, hlt⟩ := hstep
    · rw [hp] at hle
      omega
    · omega

theorem stepsLeft_le_three (p : Phase) : stepsLeft p ≤ 3 := by
  cases p <;> decide

/-- An engine that has no step of its own left ends Idle or Closed once a response is delivered. -/
theorem deliverIfResponded_completes {i : Nat} {e : Engine} {s : State} (he : s.engine? i = some e)
    (h0 : stepsLeft e.phase = 0) : ∃ t e', deliverIfResponded i s = .next t ∧
      t.engine? i = some e' ∧ (e'.phase = .idle ∨ e'.phase = .closed) := by
  cases hp : e.phase with
  | responded =>
    have hdone : isResponded i s = true := by simp [isResponded, he, hp]
    refine ⟨returnToIdle i e s, _, ?_, State.engine?_setEngine_of_some he _, .inl rfl⟩
    rw [deliverIfResponded, if_pos hdone, deliver_of_responded he hp]
  | idle | closed =>
    have hdone : ¬isResponded i s = true := by simp [isResponded, he, hp]
    exact ⟨s, e, if_neg hdone, he, by simp [hp]⟩
  | received | validated | executed =>
    rw [hp] at h0
    cases h0

/-- Where the three steps of an exchange complete, SERVE completes, and its engine is then Idle or
Closed. -/
theorem serve_completes_of_advances {i : Nat} {x : PortInput} {e : Engine} {s s₀ s₃ : State}
    (h₀ : receive i x s = .next s₀) (he : s₀.engine? i = some e) (h₃ : advances i 3 s₀ = .next s₃) :
    ∃ t e', exec (.serve i x) s = .next t ∧ t.engine? i = some e' ∧
      (e'.phase = .idle ∨ e'.phase = .closed) := by
  obtain ⟨e₃, he₃, hle⟩ := advances_stepsLeft he h₃
  have hthree := stepsLeft_le_three e.phase
  obtain ⟨t, e', ht, he', hp⟩ := deliverIfResponded_completes he₃ (by omega)
  refine ⟨t, e', ?_, he', hp⟩
  simp only [exec_serve_eq, h₀, andThen, h₃, ht]

/-- Receive from phase Idle: the engine is Received or Closed (R181). -/
theorem receive_phase {i : Nat} {x : PortInput} {s t : State} (h : receive i x s = .next t) :
    ∃ e e', s.engine? i = some e ∧ e.phase = .idle ∧ t.engine? i = some e' ∧
      (e'.phase = .received ∨ e'.phase = .closed) := by
  obtain ⟨e, he, hp, ⟨f, -, rfl⟩ | ⟨-, rfl⟩⟩ := receive_next h
  · exact ⟨e, _, he, hp, State.engine?_setEngine_of_some he _, .inl rfl⟩
  · exact ⟨e, _, he, hp, State.engine?_setEngine_of_some he _, .inr rfl⟩

/-- SERVE takes its engine from Idle to Idle or Closed. -/
theorem serve_phase {i : Nat} {x : PortInput} {s t : State} (h : exec (.serve i x) s = .next t) :
    ∃ e e', s.engine? i = some e ∧ e.phase = .idle ∧ t.engine? i = some e' ∧
      (e'.phase = .idle ∨ e'.phase = .closed) := by
  have h' := h
  rw [exec_serve_eq] at h'
  obtain ⟨s₀, h₀, h'⟩ := andThen_next h'
  obtain ⟨s₃, h₃, -⟩ := andThen_next h'
  obtain ⟨e, e₀, he, hp, he₀, -⟩ := receive_phase h₀
  obtain ⟨t', e', ht, he', hp'⟩ := serve_completes_of_advances h₀ he₀ h₃
  obtain rfl : t' = t := by
    rw [ht] at h
    injection h
  exact ⟨e, e', he, hp, he', hp'⟩

/-! ### SERVE completes from legal states (41_dispatch.md R203) -/

/-- A read that validation let through asks for a count within its limit (R183). -/
theorem count_le_of_latchesValid {c : Config} {e : Engine} (h : latchesValid c e = true)
    (hx : e.exc = none) (hk : e.kind = .read) : e.q.toNat ≤ maxCoils ∧
      (e.fc = 0x03 ∨ e.fc = 0x04 → e.q.toNat ≤ maxRegs) := by
  obtain ⟨-, -, hval⟩ := (latchesValid_iff c e).mp h
  rw [hx] at hval
  simp only [latchedRequest, validateRequest, hk] at hval
  split at hval <;> rename_i hfc <;>
    obtain ⟨-, hle, -⟩ := (validateRead_eq_none_iff _ _ _ _).mp hval.symm
  · refine ⟨hle, fun hregs => ?_⟩
    obtain hf | hf := hregs <;> rw [hf] at hfc <;> exact absurd hfc (by decide)
  · exact ⟨hle.trans (by decide), fun _ => hle⟩

/-- A result that fits valid latches has a response that can be encoded (R196). -/
theorem response_of_resultFits {c : Config} {e : Engine} (h : latchesValid c e = true)
    (hx : e.exc = none) (hres : resultFits e = true) :
    ∃ r f, engineResponse e = some r ∧ encodeResponse r = some f := by
  obtain ⟨hk, hf, bs, hr⟩ | ⟨hk, hf, vs, hr⟩ | ⟨hk, hf, hr⟩ := resultFits_cases hres
  · have hlen : bs.length = e.q.toNat := by
      simp only [resultFits, hk, hr, Bool.and_eq_true, beq_iff_eq] at hres
      obtain ⟨-, hlen⟩ := hres
      exact hlen
    obtain ⟨hle, -⟩ := count_le_of_latchesValid h hx hk
    have hfit : byteCount bs.length ≤ 255 := by
      rw [byteCount, hlen]
      simp only [maxCoils] at hle
      omega
    exact ⟨_, _, engineResponse_coils hx hk hf hr, encodeResponse_coils hfit _ _ _⟩
  · have hlen : vs.length = e.q.toNat := by
      simp only [resultFits, hk, hr, Bool.and_eq_true, beq_iff_eq] at hres
      obtain ⟨-, hlen⟩ := hres
      exact hlen
    obtain ⟨-, hle⟩ := count_le_of_latchesValid h hx hk
    have hfit : 2 * vs.length ≤ 255 := by
      have := hle hf
      simp only [maxRegs] at this
      omega
    exact ⟨_, _, engineResponse_regs hx hk hf hr, encodeResponse_regs hfit _ _ _⟩
  · exact ⟨_, _, engineResponse_ack hx hk hf hr, rfl⟩

/-- The own step of an engine of a legal state completes. -/
theorem advance_completes {i : Nat} {e : Engine} {s : State} (hs : stateOk s = true)
    (he : s.engine? i = some e) : ∃ t, advance i s = .next t := by
  have hok := engineOk_of_stateOk hs he
  cases hp : e.phase with
  | closed | idle | responded => exact ⟨s, advance_of_waiting he (by simp [hp])⟩
  | received =>
    cases hk : checkHeader e.rx with
    | ok hd => exact ⟨_, advance_of_received_ok he hp hk⟩
    | error k => exact ⟨_, advance_of_received_error he hp hk⟩
  | validated =>
    obtain ⟨-, hlatches⟩ := (engineOk_validated_iff hp).mp hok
    cases hx : e.exc with
    | none =>
      rw [advance_of_validated_none he hp hx]
      exact executeRule_completes i hlatches hx
    | some code => exact ⟨_, (advance_of_validated_some he hp hx).trans (respond_exception hx i s)⟩
  | executed =>
    obtain ⟨-, hlatches, hx, hres⟩ := (engineOk_executed_iff hp).mp hok
    obtain ⟨r, f, hr, hf⟩ := response_of_resultFits hlatches hx hres
    exact ⟨_, (advance_of_executed he hp).trans (respond_of_encoded i s hr hf)⟩

theorem advances_complete {i : Nat} {e : Engine} {s : State} (hs : stateOk s = true)
    (he : s.engine? i = some e) (n : Nat) : ∃ t, advances i n s = .next t := by
  induction n generalizing s e with
  | zero => exact ⟨s, rfl⟩
  | succ n ih =>
    obtain ⟨u, hu⟩ := advance_completes hs he
    obtain ⟨e', he', -⟩ := advance_phase he hu
    obtain ⟨t, ht⟩ := ih (stateOk_advance hs hu) he'
    exact ⟨t, by rw [advances, hu, andThen, ht]⟩

/-- Settles O36: Receive completes on an Idle engine, and each step after it starts in a legal state. -/
theorem serveCompletesFromLegalStates : Obligations.ServeCompletesFromLegalStates := by
  intro s i e x hs he hp
  have received : ∃ s₀, receive i x s = .next s₀ := by
    cases x with
    | frame f => exact ⟨_, receive_frame_of_idle he hp f⟩
    | eof => exact ⟨_, receive_eof_of_idle he hp⟩
  obtain ⟨s₀, h₀⟩ := received
  obtain ⟨-, e₀, -, -, he₀, -⟩ := receive_phase h₀
  obtain ⟨s₃, h₃⟩ := advances_complete (stateOk_receive hs h₀) he₀ 3
  obtain ⟨t, e', ht, he', hp'⟩ := serve_completes_of_advances h₀ he₀ h₃
  exact ⟨t, ht, e', he', hp'⟩

/-! ### The agenda -/

/-- The state with another agenda. -/
def State.withAgenda (s : State) (l : List Move) : State := { s with agenda := l }

/-- `f` neither reads the agenda nor writes it. -/
def IgnoresAgenda (f : State → Result) : Prop :=
  ∀ s l, f (s.withAgenda l) = mapNext (·.withAgenda l) (f s)

@[simp] theorem State.engine?_withAgenda (s : State) (l : List Move) (i : Nat) :
    (s.withAgenda l).engine? i = s.engine? i := rfl

theorem receive_ignoresAgenda (i : Nat) (x : PortInput) : IgnoresAgenda (receive i x) := by
  intro s l
  unfold receive
  rw [State.engine?_withAgenda]
  cases s.engine? i with
  | none => rfl
  | some e =>
    by_cases hp : e.phase = .idle
    · cases x <;> simp only [hp, if_true] <;> rfl
    · simp only [hp, if_false, mapNext_refused]

theorem validate_withAgenda (i : Nat) (e : Engine) (r : DecodedRequest) (s : State) (l : List Move) :
    validate i e r (s.withAgenda l) = (validate i e r s).withAgenda l :=
  validate_comm (g := (·.withAgenda l)) rfl rfl rfl (fun _ _ => rfl) fun _ _ => rfl

theorem writeCoilStore_withAgenda (i a : Nat) (b : Bool) (s : State) (l : List Move) :
    writeCoilStore i a b (s.withAgenda l) = (writeCoilStore i a b s).withAgenda l := by
  unfold writeCoilStore
  split
  · cases b <;> rfl
  · rfl

theorem executeFor_ignoresAgenda {i : Nat} {e : Engine} {kind : ReqKind} {fc : Byte}
    {rule : Nat → Engine → State → Result} (h : IgnoresAgenda (rule i e)) :
    IgnoresAgenda (executeFor kind fc rule i e) := by
  intro s l
  unfold executeFor
  split
  · exact h s l
  · rfl

theorem mapNext_ite (f : State → State) (p : Prop) [Decidable p] (a b : Result) :
    mapNext f (if p then a else b) = if p then mapNext f a else mapNext f b :=
  apply_ite _ _ _ _

theorem executeCoilRead_ignoresAgenda (i : Nat) (e : Engine) : IgnoresAgenda (executeCoilRead i e) := by
  intro s l
  unfold executeCoilRead
  rw [mapNext_ite]
  rfl

theorem executeRegRead_ignoresAgenda (i : Nat) (e : Engine) : IgnoresAgenda (executeRegRead i e) := by
  intro s l
  unfold executeRegRead
  rw [mapNext_ite]
  rfl

theorem executeCoilWrite_ignoresAgenda (i : Nat) (e : Engine) :
    IgnoresAgenda (executeCoilWrite i e) := by
  intro s l
  unfold executeCoilWrite
  rw [writeCoilStore_withAgenda, mapNext_ite]
  rfl

theorem executeRule_ignoresAgenda (fc : Byte) (i : Nat) (e : Engine) :
    IgnoresAgenda (executeRule fc i e) := by
  unfold executeRule
  generalize fc.toNat = n
  match n with
  | 1 | 2 => exact executeFor_ignoresAgenda (executeCoilRead_ignoresAgenda i e)
  | 3 | 4 => exact executeFor_ignoresAgenda (executeRegRead_ignoresAgenda i e)
  | 5 => exact executeFor_ignoresAgenda (executeCoilWrite_ignoresAgenda i e)
  | 0 | _ + 6 => exact fun _ _ => rfl

theorem respond_ignoresAgenda (i : Nat) (e : Engine) : IgnoresAgenda (respond i e) := by
  intro s l
  unfold respond
  cases engineResponse e with
  | none => rfl
  | some r => cases hf : encodeResponse r <;> simp only [hf] <;> rfl

theorem advance_ignoresAgenda (i : Nat) : IgnoresAgenda (advance i) := by
  intro s l
  cases he : s.engine? i with
  | none => simp only [advance, State.engine?_withAgenda, he, mapNext_refused]
  | some e =>
    have he' : (s.withAgenda l).engine? i = some e := he
    cases hp : e.phase with
    | closed | idle | responded =>
      rw [advance_of_waiting he (by simp [hp]), advance_of_waiting he' (by simp [hp]), mapNext_next]
    | received =>
      cases hk : checkHeader e.rx with
      | ok hd =>
        rw [advance_of_received_ok he hp hk, advance_of_received_ok he' hp hk, validate_withAgenda,
          mapNext_next]
      | error k =>
        rw [advance_of_received_error he hp hk, advance_of_received_error he' hp hk]
        rfl
    | validated =>
      cases hx : e.exc with
      | none =>
        rw [advance_of_validated_none he hp hx, advance_of_validated_none he' hp hx]
        exact executeRule_ignoresAgenda e.fc i e s l
      | some code =>
        rw [advance_of_validated_some he hp hx, advance_of_validated_some he' hp hx]
        exact respond_ignoresAgenda i e s l
    | executed =>
      rw [advance_of_executed he hp, advance_of_executed he' hp]
      exact respond_ignoresAgenda i e s l

/-! ### SERVE is the run of its steps (41_dispatch.md R201) -/

theorem step_offer {i : Nat} {x : PortInput} {s : State} {rest : List Move}
    (hc : configOk s.cfg = true) (ha : s.agenda = .offer i x :: rest) :
    step s = receive i x s.popMove := by
  simp only [step, hc, if_true, fetch, ha, fetchMove, runFetched]

theorem step_take {i : Nat} {s : State} {rest : List Move} (hc : configOk s.cfg = true)
    (ha : s.agenda = .take i :: rest) : step s = deliver i s.popMove := by
  simp only [step, hc, if_true, fetch, ha, fetchMove, runFetched]

theorem isResponded_iff (i : Nat) (s : State) :
    isResponded i s = true ↔ (s.engine? i).map Engine.phase = some .responded := by
  cases he : s.engine? i <;> simp [isResponded, he]

/-- `n` moves of engine `i` before the rest of the agenda are `n` steps of it. -/
theorem runSteps_advances {i : Nat} {s : State} {rest : List Move} (hc : configOk s.cfg = true)
    (ha : s.agenda = rest) (n : Nat) :
    runSteps n (s.withAgenda (List.replicate n (.advance i) ++ rest)) = advances i n s := by
  induction n generalizing s with
  | zero => rw [List.replicate_zero, List.nil_append, ← ha]; rfl
  | succ n ih =>
    have taken : step (s.withAgenda (List.replicate (n + 1) (.advance i) ++ rest)) =
        mapNext (·.withAgenda (List.replicate n (.advance i) ++ rest)) (advance i s) := by
      rw [← advance_ignoresAgenda]
      exact step_advance (by exact hc) rfl
    rw [runSteps, taken, advances]
    cases h : advance i s with
    | next t =>
      obtain ⟨hcfg, -, hagenda⟩ := (advance_frame h).1
      exact ih (by rwa [hcfg]) (hagenda.trans ha)
    | fault | refused => rfl

/-- Settles O35: the offer is Receive, the engine's moves are its steps, and the take is Deliver; none of
them reads the agenda. -/
theorem serveIsTheRunOfItsSteps : Obligations.ServeIsTheRunOfItsSteps := by
  intro s i x rest hc ha
  have offered : step s = mapNext (·.withAgenda (List.replicate 3 (.advance i) ++ rest))
      (receive i x (s.withAgenda rest)) := by
    rw [← receive_ignoresAgenda, step_offer hc ha, State.popMove, ha]
    rfl
  rw [exec_serve_eq, runSteps, offered]
  change andThen (receive i x (s.withAgenda rest)) _ = _
  cases h₀ : receive i x (s.withAgenda rest) with
  | fault | refused => rfl
  | next s₀ =>
    obtain ⟨hcfg, -, hagenda⟩ := (receive_onlyEngine h₀).control
    have hc₀ : configOk s₀.cfg = true := by rw [hcfg]; exact hc
    change andThen (advances i 3 s₀) _ = andThen (runSteps 3 (s₀.withAgenda _)) _
    rw [runSteps_advances (rest := rest) hc₀ hagenda]
    refine andThen_congr fun u hu => ?_
    have hcu : configOk u.cfg = true := by rwa [(advances_sameControl hu).1]
    simp only [deliverIfResponded, isResponded_iff]
    rw [step_take (s := { u with agenda := .take i :: u.agenda }) hcu rfl]
    rfl

/-! ### Phase changes (41_dispatch.md R180) -/

/-- Every engine keeps its phase or changes it along one row of R180's table. -/
def PhasesMove (s t : State) : Prop :=
  ∀ j e, s.engine? j = some e →
    ∃ e', t.engine? j = some e' ∧ (e'.phase = e.phase ∨ (e.phase, e'.phase) ∈ phaseMoves)

theorem phasesMove_of_engines {s t : State} (h : t.engines = s.engines) : PhasesMove s t :=
  fun j e he => ⟨e, by rw [State.engine?, h]; exact he, .inl rfl⟩

/-- Where only engine `i` changes, its own phase change decides. -/
theorem phasesMove_of_engine {i : Nat} {e e' : Engine} {s t : State} (h : SameOtherEngines i s t)
    (he : s.engine? i = some e) (he' : t.engine? i = some e')
    (hp : e'.phase = e.phase ∨ (e.phase, e'.phase) ∈ phaseMoves) : PhasesMove s t := by
  intro j d hd
  by_cases hj : j = i
  · subst hj
    obtain rfl : e = d := Option.some.inj (he.symm.trans hd)
    exact ⟨e', he', hp⟩
  · exact ⟨d, (h j hj).trans hd, .inl rfl⟩

theorem receive_phasesMove {i : Nat} {x : PortInput} {s t : State} (h : receive i x s = .next t) :
    PhasesMove s t := by
  obtain ⟨e, e', he, hp, he', hp'⟩ := receive_phase h
  refine phasesMove_of_engine (receive_onlyEngine h).others he he' (.inr ?_)
  obtain hp' | hp' := hp' <;> rw [hp, hp'] <;> decide

theorem advance_phasesMove {i : Nat} {s t : State} (h : advance i s = .next t) : PhasesMove s t := by
  obtain ⟨e, he, -⟩ := advance_next h
  obtain ⟨e', he', ⟨hp, -⟩ | ⟨hp, -⟩⟩ := advance_phase he h
  · exact phasesMove_of_engine (advance_frame h).2 he he' (.inl hp)
  · exact phasesMove_of_engine (advance_frame h).2 he he' (.inr hp)

theorem deliver_phasesMove {i : Nat} {s t : State} (h : deliver i s = .next t) : PhasesMove s t := by
  have hothers := (deliver_onlyEngine h).others
  obtain ⟨e, he, hp, rfl⟩ := deliver_next h
  exact phasesMove_of_engine hothers he (State.engine?_setEngine_of_some he { e with phase := .idle })
    (.inr (by simp [hp, phaseMoves]))

theorem serve_sameOtherEngines {i : Nat} {x : PortInput} {s t : State}
    (h : exec (.serve i x) s = .next t) : SameOtherEngines i s t := by
  obtain ⟨s₀, s₁, s₂, s₃, h₀, h₁, h₂, h₃, h₄⟩ := exec_serve_next h
  have exchange (j : Nat) (hj : j ≠ i) : s₃.engine? j = s.engine? j :=
    ((advance_frame h₃).2 j hj).trans (((advance_frame h₂).2 j hj).trans
      (((advance_frame h₁).2 j hj).trans ((receive_onlyEngine h₀).others j hj)))
  obtain h₄ | rfl := h₄
  · exact fun j hj => ((deliver_onlyEngine h₄).others j hj).trans (exchange j hj)
  · exact exchange

theorem serve_phasesMove {i : Nat} {x : PortInput} {s t : State}
    (h : exec (.serve i x) s = .next t) : PhasesMove s t := by
  obtain ⟨e, e', he, hp, he', hp' | hp'⟩ := serve_phase h
  · exact phasesMove_of_engine (serve_sameOtherEngines h) he he' (.inl (hp'.trans hp.symm))
  · exact phasesMove_of_engine (serve_sameOtherEngines h) he he' (.inr (by rw [hp, hp']; decide))

theorem exec_phasesMove {ins : Instr} {s t : State} (hr : Instr.isRequest ins = false)
    (h : exec ins s = .next t) : PhasesMove s t := by
  obtain ⟨o, rfl⟩ | ⟨a, v, -, -, rfl⟩ | ⟨a, b, -, -, rfl⟩ | ⟨ws, -, -, rfl⟩ | ⟨i, rfl⟩ | ⟨i, x, rfl⟩ :=
    exec_next hr h
  · exact phasesMove_of_engines rfl
  · exact phasesMove_of_engines rfl
  · exact phasesMove_of_engines rfl
  · obtain ⟨-, heng, -⟩ := applyWrites_frame s ws
    exact phasesMove_of_engines heng
  · obtain ⟨e, he, hp, rfl⟩ := exec_connect_next h
    exact phasesMove_of_engine (onlyEngine_setEngine i _ s).others he
      (State.engine?_setEngine_of_some he { e with why := none, phase := .idle })
      (.inr (by simp [hp, phaseMoves]))
  · exact serve_phasesMove h

theorem step_phasesMove {s t : State} (h : step s = .next t) : PhasesMove s t := by
  have hpop : PhasesMove s.popMove t := by
    obtain ⟨-, rfl⟩ | ⟨ins, -, hr, h⟩ | ⟨o, rfl⟩ | ⟨i, x, rest, -, h⟩ | ⟨i, rest, -, h⟩ |
      ⟨i, rest, -, h⟩ := step_next h
    · exact phasesMove_of_engines rfl
    · exact exec_phasesMove hr h
    · exact phasesMove_of_engines rfl
    · exact receive_phasesMove h
    · exact advance_phasesMove h
    · exact deliver_phasesMove h
  exact hpop

theorem deliver_of_not_responded {i : Nat} {e : Engine} {s : State} (he : s.engine? i = some e)
    (hp : e.phase ≠ .responded) : deliver i s = .refused .notEnabled := by
  simp only [deliver, he, if_neg hp]

/-- Settles O40: the offer is Receive and the take is Deliver, each by the engine's phase, and
`step_phasesMove`. -/
theorem hostMovesReceiveAndDeliver : Obligations.HostMovesReceiveAndDeliver := by
  refine ⟨fun s i e rest hc he => ?_, fun s t j e h => step_phasesMove h j e⟩
  have he' : s.popMove.engine? i = some e := he
  refine ⟨fun f hp ha => ?_, fun hp ha => ?_, fun x hp ha => ?_, fun hp ha => ?_, fun hp ha => ?_⟩
  · rw [step_offer hc ha, receive_frame_of_idle he' hp]
  · rw [step_offer hc ha, receive_eof_of_idle he' hp, closeEngine]
  · rw [step_offer hc ha, receive_of_not_idle he' hp]
  · rw [step_take hc ha, deliver_of_responded he' hp, returnToIdle]
  · rw [step_take hc ha, deliver_of_not_responded he' hp]

end Sys2Proof.Machine

/-! PROOFS. The simulation port (42_store_ports.md R222 to R227): what each of its operations puts out and
writes, by whether the cells it names exist. -/

namespace Sys2Proof.Machine

/-! ### Reads (42_store_ports.md R222, R224) -/

theorem stReadRegsOutput_eq (start count : Half) (s : State) :
    stReadRegsOutput start count s =
      if s.cfg.hrSize < start.toNat + count.toNat then .outOfRange
      else .regs ((List.range count.toNat).map fun k => s.readReg (start.toNat + k)) := by
  simp only [stReadRegsOutput, inRange_iff, State.readRegs, ← not_lt, ite_not]

theorem stReadCoilsOutput_eq (start count : Half) (s : State) :
    stReadCoilsOutput start count s =
      if s.cfg.coilSize < start.toNat + count.toNat then .outOfRange
      else .coils ((List.range count.toNat).map fun k => s.readCoil (start.toNat + k)) := by
  simp only [stReadCoilsOutput, inRange_iff, State.readCoils, ← not_lt, ite_not]

/-- Settles O41: the output of the register read, with its bounds check turned into an order on numbers. -/
theorem stReadRegsReturnsTheRegisters : Obligations.StReadRegsReturnsTheRegisters := by
  intro s start count
  rw [exec_stReadRegs, stReadRegsOutput_eq]

/-- Settles O43: the output of the coil read, with its bounds check turned into an order on numbers. -/
theorem stReadCoilsReturnsTheCoils : Obligations.StReadCoilsReturnsTheCoils := by
  intro s start count
  rw [exec_stReadCoils, stReadCoilsOutput_eq]

/-! ### Writes of one cell (42_store_ports.md R223, R225) -/

theorem exec_stWriteReg_of_lt {s : State} {addr : Half} (h : addr.toNat < s.cfg.hrSize) (value : Half) :
    exec (.stWriteReg addr value) s = .next ((s.writeReg addr.toNat value).emit .ok) :=
  if_pos ((inRange_iff _ _ _).mpr h)

theorem exec_stWriteReg_of_le {s : State} {addr : Half} (h : s.cfg.hrSize ≤ addr.toNat) (value : Half) :
    exec (.stWriteReg addr value) s = .next (s.emit .outOfRange) :=
  if_neg fun hin => h.not_gt ((inRange_iff _ _ _).mp hin)

theorem exec_stWriteCoil_of_lt {s : State} {addr : Half} (h : addr.toNat < s.cfg.coilSize)
    (value : Bool) :
    exec (.stWriteCoil addr value) s = .next ((s.writeCoil addr.toNat value).emit .ok) :=
  if_pos ((inRange_iff _ _ _).mpr h)

theorem exec_stWriteCoil_of_le {s : State} {addr : Half} (h : s.cfg.coilSize ≤ addr.toNat)
    (value : Bool) : exec (.stWriteCoil addr value) s = .next (s.emit .outOfRange) :=
  if_neg fun hin => h.not_gt ((inRange_iff _ _ _).mp hin)

theorem wf_co_of_storeOk {s : State} (hs : storeOk s = true) : Memory.wf blankCoil s.co = true := by
  obtain ⟨-, -, hwf, -⟩ := (storeOk_iff s).mp hs
  exact hwf

/-- Settles O42: by whether the register exists. -/
theorem stWriteRegWritesItsCell : Obligations.StWriteRegWritesItsCell := by
  intro s addr value hs
  obtain ha | ha := lt_or_ge addr.toNat s.cfg.hrSize
  · refine ⟨_, exec_stWriteReg_of_lt ha value, .rfl, rfl, rfl, rfl, rfl, fun _ => ⟨rfl, ?_, ?_⟩,
      fun hge => absurd ha hge.not_gt⟩
    · exact State.readReg_writeReg_same (wf_hr_of_storeOk hs) addr.toNat value
    · exact fun a => State.readReg_writeReg_other s addr.toNat a value
  · exact ⟨_, exec_stWriteReg_of_le ha value, .rfl, rfl, rfl, rfl, rfl,
      fun hlt => absurd hlt ha.not_gt, fun _ => ⟨rfl, rfl⟩⟩

/-- Settles O44: by whether the coil exists; the reset coil is a cell like any other here (R227). -/
theorem stWriteCoilWritesItsCell : Obligations.StWriteCoilWritesItsCell := by
  intro s addr value hs
  obtain ha | ha := lt_or_ge addr.toNat s.cfg.coilSize
  · refine ⟨_, exec_stWriteCoil_of_lt ha value, .rfl, rfl, rfl, rfl, rfl, fun _ => ⟨rfl, ?_, ?_⟩,
      fun hge => absurd ha hge.not_gt⟩
    · exact State.readCoil_writeCoil_same (wf_co_of_storeOk hs) addr.toNat value
    · exact fun a => State.readCoil_writeCoil_other s addr.toNat a value
  · exact ⟨_, exec_stWriteCoil_of_le ha value, .rfl, rfl, rfl, rfl, rfl,
      fun hlt => absurd hlt ha.not_gt, fun _ => ⟨rfl, rfl⟩⟩

/-! ### Batches (42_store_ports.md R226) -/

theorem all_inStore_iff (c : Config) (ws : List StoreWrite) :
    ws.all (StoreWrite.inStore c) = true ↔
      (∀ a v, StoreWrite.reg a v ∈ ws → a.toNat < c.hrSize) ∧
      (∀ a b, StoreWrite.coil a b ∈ ws → a.toNat < c.coilSize) := by
  rw [List.all_eq_true]
  constructor
  · exact fun h => ⟨fun a v hw => (inRange_iff _ _ _).mp (h _ hw),
      fun a b hw => (inRange_iff _ _ _).mp (h _ hw)⟩
  · rintro ⟨hreg, hcoil⟩ w hw
    cases w with
    | reg a v => exact (inRange_iff _ _ _).mpr (hreg a v hw)
    | coil a b => exact (inRange_iff _ _ _).mpr (hcoil a b hw)

theorem exec_stBatch_not_inStore {s : State} {ws : List StoreWrite}
    (h : ¬ws.all (StoreWrite.inStore s.cfg) = true) :
    exec (.stBatch ws) s = .next (s.emit .outOfRange) :=
  if_neg h

/-- A coil that a batch does not name keeps its value. -/
theorem readCoil_applyWrites_of_not_mem {s : State} (hs : Memory.wf blankCoil s.co = true)
    {ws : List StoreWrite} {a : Half} (h : ∀ b, StoreWrite.coil a b ∉ ws) :
    (s.applyWrites ws).readCoil a.toNat = s.readCoil a.toNat :=
  (readCoil_applyWrites hs ws a).resolve_right (h _)

/-- A coil holds the value of its last write in a batch whose cells all exist. -/
theorem readCoil_applyWrites_last {s : State} (hs : storeOk s = true) {ws₁ ws₂ : List StoreWrite}
    {a : Half} {b : Bool} (hall : (ws₁ ++ .coil a b :: ws₂).all (StoreWrite.inStore s.cfg) = true)
    (h : ∀ c, StoreWrite.coil a c ∉ ws₂) :
    (s.applyWrites (ws₁ ++ .coil a b :: ws₂)).readCoil a.toNat = b := by
  rw [List.all_append, Bool.and_eq_true] at hall
  obtain ⟨hall₁, -⟩ := hall
  have hwf : Memory.wf blankCoil (s.applyWrites ws₁).co = true :=
    wf_co_of_storeOk (storeOk_applyWrites ws₁ hall₁ hs)
  rw [applyWrites_append]
  calc (((s.applyWrites ws₁).writeCoil a.toNat b).applyWrites ws₂).readCoil a.toNat
      _ = ((s.applyWrites ws₁).writeCoil a.toNat b).readCoil a.toNat :=
        readCoil_applyWrites_of_not_mem (Memory.wf_write blankCoil hwf a.toNat b) h
      _ = b := State.readCoil_writeCoil_same hwf a.toNat b

/-- Settles O45: by whether every cell of the list exists; the cells after the batch are those of
`State.applyWrites`, where a cell holds its last write. -/
theorem stBatchIsAllOrNothing : Obligations.StBatchIsAllOrNothing := by
  intro s ws hs
  by_cases hall : ws.all (StoreWrite.inStore s.cfg) = true
  · obtain ⟨hcfg, heng, hlock, hsim, hagenda, hout, hfree⟩ := applyWrites_frame s ws
    refine ⟨_, exec_stBatch_inStore hall, ⟨hcfg, hlock, hagenda⟩, heng, hsim, hfree, ?_⟩
    rw [if_pos ((all_inStore_iff s.cfg ws).mp hall)]
    refine ⟨by rw [State.emit_outputs, hout], fun a h => readReg_applyWrites_of_not_mem s h,
      fun a h => readCoil_applyWrites_of_not_mem (wf_co_of_storeOk hs) h, ?_, ?_⟩
    · rintro ws₁ a v ws₂ rfl hlast
      exact readReg_applyWrites_last (wf_hr_of_storeOk hs) ws₁ v hlast
    · rintro ws₁ a b ws₂ rfl hlast
      exact readCoil_applyWrites_last hs hall hlast
  · refine ⟨_, exec_stBatch_not_inStore hall, .rfl, rfl, rfl, rfl, ?_⟩
    rw [if_neg (mt (all_inStore_iff s.cfg ws).mpr hall)]
    exact ⟨rfl, rfl, rfl⟩

end Sys2Proof.Machine

/-! PROOFS. Exceptions in one SERVE (60_exceptions.md R241 to R243, R249, R251): the exception frame, the
one outcome of a SERVE, and which code a function code can be answered with. -/

namespace Sys2Proof.Machine

/-! ### SERVE of a rejected request (60_exceptions.md R241, R251) -/

/-- Settles O32: `exec_serve_exception`, whose state differs from the first in its engine, the outputs and
the free values. -/
theorem serveAnswersExceptions : Obligations.ServeAnswersExceptions := by
  intro s i e f h code he hp hk hu hv
  have hu' : unitAccepted s.cfg (decodedRequest h).unit = true := (unitAccepted_iff s.cfg h.unit).mpr hu
  have hafter := (engine?_afterLatch s (decodedRequest h) i).trans he
  obtain ⟨-, -, -, -, hwhy⟩ :=
    latch_frame { e with rx := f, phase := .received } (decodedRequest h) s.freeCount
  exact ⟨_, exec_serve_exception he hp hk rfl hu' hv,
    onlyEngine_emit (onlyEngine_afterLatch_setEngine i _ _ s) _,
    ⟨_, State.engine?_setEngine_of_some hafter _, rfl, hwhy⟩,
    congrArg (· ++ _) (outputs_afterLatch s (decodedRequest h))⟩

/-! ### The codes validation gives (60_exceptions.md R242) -/

theorem validateRead_code {size limit : Nat} {a q : Half} {code : Byte}
    (h : validateRead size limit a q = some code) : code = 0x02 ∨ code = 0x03 := by
  rw [validateRead_eq] at h
  split_ifs at h <;> cases h
  · exact .inr rfl
  · exact .inl rfl

theorem validateWriteCoil_code {c : Config} {a v : Half} {code : Byte}
    (h : validateWriteCoil c a v = some code) : code = 0x02 ∨ code = 0x03 := by
  rw [validateWriteCoil_eq] at h
  split_ifs at h <;> cases h
  · exact .inr rfl
  · exact .inl rfl
  · exact .inl rfl

/-- A request that is not of an unknown function takes 0x02 or 0x03 only (R183, R184, R191, R193, R194). -/
theorem validateRequest_code_of_known {c : Config} {r : DecodedRequest} {code : Byte}
    (hr : r.body ≠ .unknown) (h : validateRequest c r = some code) : code = 0x02 ∨ code = 0x03 := by
  obtain ⟨tid, unit, fc, body⟩ := r
  cases body with
  | read a q =>
    simp only [validateRequest] at h
    split at h <;> exact validateRead_code h
  | writeCoil a v => exact validateWriteCoil_code h
  | malformed =>
    cases h
    exact .inr rfl
  | unknown => exact absurd rfl hr

/-- The kind is Unknown for no supported function code (40_codec.md R150). -/
theorem decodedRequest_body_ne_unknown {h : Header} (hs : supportedFc h.fc = true) :
    (decodedRequest h).body ≠ .unknown := by
  simp only [decodedRequest, hs, if_true]
  cases pduArgs h.data with
  | fields a q =>
    simp only [requestBody]
    split <;> simp
  | malformed data => simp [requestBody]

/-- The bound of R243 on the code validation gives, by the request's function code. -/
theorem validateRequest_code_by_fc {c : Config} {h : Header} {code : Byte}
    (hv : validateRequest c (decodedRequest h) = some code) :
    (1 ≤ h.fc.toNat ∧ h.fc.toNat ≤ 5 → code = 0x02 ∨ code = 0x03) ∧
    (h.fc.toNat = 0 ∨ 6 ≤ h.fc.toNat → code = 0x01) := by
  refine ⟨fun hs => ?_, fun hs => ?_⟩
  · exact validateRequest_code_of_known
      (decodedRequest_body_ne_unknown ((supportedFc_iff h.fc).mpr hs)) hv
  · rw [decodedRequest_unknown h.tid h.unit ((supportedFc_eq_false_iff h.fc).mpr hs) h.data] at hv
    cases hv
    rfl

/-! ### The one outcome of a SERVE (60_exceptions.md R249) -/

/-- Frame `g` is a success response: the response to a result that fits the latched request, and no
exception (41_dispatch.md R196). -/
def IsSuccessFrame (g : Frame) : Prop :=
  ∃ e r, e.exc = none ∧ resultFits e = true ∧ engineResponse e = some r ∧ encodeResponse r = some g

/-- A success response decodes to registers, coils or an acknowledgment (40_codec.md R161). -/
theorem decodeResponse_successFrame {g : Frame} (hg : IsSuccessFrame g) (tid : Half)
    (unit fc code : Byte) : decodeResponse g ≠ .ok ⟨tid, unit, fc, .exception code⟩ := by
  obtain ⟨e, r, hx, hres, hr, henc⟩ := hg
  obtain ⟨hk, hf, bs, hbs⟩ | ⟨hk, hf, vs, hvs⟩ | ⟨hk, hf, hack⟩ := resultFits_cases hres
  · obtain rfl := Option.some.inj (hr.symm.trans (engineResponse_coils hx hk hf hbs))
    obtain ⟨hfit, rfl⟩ := encodeResponse_coils_eq_some henc
    rw [decodeResponse_coilsFrame hf hfit]
    simp
  · obtain rfl := Option.some.inj (hr.symm.trans (engineResponse_regs hx hk hf hvs))
    obtain ⟨hfit, rfl⟩ := encodeResponse_regs_eq_some henc
    rw [decodeResponse_regsFrame hf hfit]
    simp
  · obtain rfl := Option.some.inj (hr.symm.trans (engineResponse_ack hx hk hf hack))
    cases henc
    rw [decodeResponse_adu_ackPdu]
    simp

theorem decodeResponse_exceptionFrame (tid : Half) (unit fc code : Byte) :
    decodeResponse (exceptionFrame tid unit fc code) =
      .ok ⟨tid, unit, fc ||| 0x80, .exception code⟩ := by
  have hframe : adu tid unit (excPdu fc code) = exceptionFrame tid unit fc code :=
    Option.some.inj (encodeResponse_exc tid unit fc code)
  rw [← hframe]
  exact decodeResponse_adu_excPdu tid unit fc code

/-- Execute puts nothing out and leaves its engine Executed, with a result that fits the request (R182). -/
theorem executeRule_effect {s t : State} {i : Nat} {e : Engine} {fc : Byte}
    (he : s.engine? i = some e) (h : executeRule fc i e s = .next t) : t.outputs = s.outputs ∧
      ∃ res, resultFits { e with res := res, phase := .executed } = true ∧
        t.engine? i = some { e with res := res, phase := .executed } := by
  obtain ⟨u, res, hu, hfit, rfl⟩ := executeRule_next h
  have hstore : u.engine? i = some e ∧ u.outputs = s.outputs := by
    obtain rfl | ⟨-, -, -, rfl⟩ := hu
    · exact ⟨he, rfl⟩
    · exact ⟨by rwa [State.engine?, writeCoilStore_engines], writeCoilStore_outputs _ _ _ _⟩
  obtain ⟨hui, hout⟩ := hstore
  exact ⟨hout, res, hfit, State.engine?_setEngine_of_some hui _⟩

/-- SERVE of a request that passes validation, where it completes, puts out one success response. -/
theorem serve_valid_outputs {s t : State} {i : Nat} {e : Engine} {f : Frame} {h : Header}
    (he : s.engine? i = some e) (hp : e.phase = .idle) (hk : checkHeader f = .ok h)
    (hu : unitAccepted s.cfg h.unit = true) (hv : validateRequest s.cfg (decodedRequest h) = none)
    (hs : exec (.serve i (.frame f)) s = .next t) :
    ∃ g, IsSuccessFrame g ∧ t.outputs = s.outputs ++ [.tx i g] := by
  obtain ⟨s₀, s₁, s₂, s₃, h₀, h₁, h₂, h₃, -⟩ := exec_serve_next hs
  cases (receive_frame_of_idle he hp f).symm.trans h₀
  have validated := advance_validates_received he hk rfl hu
  rw [hv] at validated
  cases validated.symm.trans h₁
  have he₁ := State.engine?_setEngine_of_some ((engine?_afterLatch s (decodedRequest h) i).trans he)
    (e.afterValidate f (decodedRequest h) s.freeCount none)
  obtain ⟨hout, res, hfit, he₂⟩ :=
    executeRule_effect he₁ ((advance_of_validated_none he₁ rfl rfl).symm.trans h₂)
  obtain ⟨r, g, hr, hg, rfl⟩ := respond_next ((advance_of_executed he₂ rfl).symm.trans h₃)
  have he₃ := State.engine?_setEngine_of_some he₂ { e.afterValidate f (decodedRequest h) s.freeCount none
    with res := res, tx := g, phase := .responded }
  cases (exec_serve_of_steps h₀ h₁ h₂ h₃ he₃ rfl (deliver_of_responded he₃ rfl)).symm.trans hs
  refine ⟨g, ⟨_, r, rfl, hfit, hr, hg⟩, congrArg (· ++ _) ?_⟩
  exact hout.trans (outputs_afterLatch s (decodedRequest h))

/-- SERVE of a frame that passes the header check, where it completes, puts out one thing: the drop, the
exception frame of the code that validation gives, or a success response. -/
theorem serve_outputs {s t : State} {i : Nat} {f : Frame} {h : Header} (hk : checkHeader f = .ok h)
    (hs : exec (.serve i (.frame f)) s = .next t) : ∃ o, t.outputs = s.outputs ++ [o] ∧
      (o = .dropped i ∨
       (∃ code, validateRequest s.cfg (decodedRequest h) = some code ∧
         o = .tx i (exceptionFrame h.tid h.unit h.fc code)) ∨
       ∃ g, IsSuccessFrame g ∧ o = .tx i g) := by
  obtain ⟨e, -, he, hp, -⟩ := serve_phase hs
  by_cases hu : ∀ u, s.cfg.acceptUnit = some u → h.unit = u
  · cases hv : validateRequest s.cfg (decodedRequest h) with
    | some code =>
      obtain ⟨t', ht', -, -, hout⟩ := serveAnswersExceptions s i e f h code he hp hk hu hv
      cases ht'.symm.trans hs
      exact ⟨_, hout, .inr (.inl ⟨code, rfl, rfl⟩)⟩
    | none =>
      obtain ⟨g, hg, hout⟩ :=
        serve_valid_outputs he hp hk ((unitAccepted_iff s.cfg h.unit).mpr hu) hv hs
      exact ⟨_, hout, .inr (.inr ⟨g, hg, rfl⟩)⟩
  · push Not at hu
    obtain ⟨u, hc, hne⟩ := hu
    obtain ⟨-, hdrop, -⟩ := serveClosesAndDrops s i e he hp
    obtain ⟨t', ht', -, hout, -⟩ := hdrop f h u hk hc hne
    cases ht'.symm.trans hs
    exact ⟨_, hout, .inl rfl⟩

/-- Settles O33: of the three outcomes of `serve_outputs` only the exception frame decodes to an exception,
and its code is validation's. -/
theorem exceptionCodesByFunctionCode : Obligations.ExceptionCodesByFunctionCode := by
  intro s t i f g h tid unit fc code hk hs hout hdec
  obtain ⟨o, hout', ho⟩ := serve_outputs hk hs
  obtain rfl : o = .tx i g := List.singleton_inj.mp (List.append_cancel_left (hout'.symm.trans hout))
  obtain ho | ⟨code', hv, ho⟩ | ⟨g', hg, ho⟩ := ho <;> cases ho
  · cases (decodeResponse_exceptionFrame h.tid h.unit h.fc code').symm.trans hdec
    exact ⟨rfl, validateRequest_code_by_fc hv⟩
  · exact absurd hdec (decodeResponse_successFrame hg tid unit fc code)

end Sys2Proof.Machine

/-! PROOFS. Block reset, a waiting block, and the configurations the block refuses
(70_reset_and_hazards.md R280, R281, R283). -/

namespace Sys2Proof.Machine

/-! ### The configuration's bounds -/

/-- What the configuration has to meet: the bounds of R283, and INIT_HR and INIT_CO as tables of existing
cells with a false reset coil (00_scope.md R15). -/
theorem configOk_iff (c : Config) : configOk c = true ↔
    (102 ≤ c.hrSize ∧ c.hrSize ≤ 65536) ∧ (11 ≤ c.coilSize ∧ c.coilSize ≤ 65536) ∧ 1 ≤ c.nConn ∧
    (Memory.wf blankReg c.initHr = true ∧ Memory.within c.hrSize c.initHr = true) ∧
    (Memory.wf blankCoil c.initCo = true ∧ Memory.within c.coilSize c.initCo = true) ∧
    Memory.read blankCoil c.initCo resetCoil = false := by
  simp only [configOk, Bool.and_eq_true, decide_eq_true_eq, Bool.not_eq_true', and_assoc]

theorem configOk_reference : configOk Config.reference = true := by decide

theorem step_of_not_configOk {s : State} (hc : ¬ configOk s.cfg = true) :
    step s = .refused .badConfig :=
  if_neg hc

/-- Settles O54: each of the five is the failure of a bound of `configOk_iff`. -/
theorem badConfigurationsAreRefused : Obligations.BadConfigurationsAreRefused := by
  intro s hbad
  refine step_of_not_configOk fun hc => ?_
  obtain ⟨⟨hregLo, hregHi⟩, ⟨hcoilLo, hcoilHi⟩, hconn, -⟩ := (configOk_iff s.cfg).mp hc
  omega

/-! ### A waiting block -/

theorem step_of_agenda_nil {s : State} (hc : configOk s.cfg = true) (ha : s.agenda = []) :
    step s = .next s.popMove := by
  simp only [step, hc, if_true, fetch, ha, runFetched]

theorem popMove_of_agenda_nil {s : State} (ha : s.agenda = []) : s.popMove = s := by
  cases s
  cases ha
  rfl

theorem popMove_of_agenda_cons {s : State} {m : Move} {rest : List Move} (ha : s.agenda = m :: rest) :
    s.popMove = { s with agenda := rest } := by
  simp only [State.popMove, ha, List.tail_cons]

/-- Settles O53: with no move there is none to take off, and the step of a waiting engine is
`advance_of_waiting`. -/
theorem waitingBlockDoesNothing : Obligations.WaitingBlockDoesNothing := by
  refine fun s hc => ⟨fun ha => ?_, fun i e rest ha he hp => ?_⟩
  · rw [step_of_agenda_nil hc ha, popMove_of_agenda_nil ha]
  · have hwait : advance i s.popMove = .next s.popMove := advance_of_waiting he hp
    rw [step_advance hc ha, hwait, popMove_of_agenda_cons ha]

/-! ### Block reset -/

theorem engine?_boot {c : Config} {i : Nat} (h : i < c.nConn) :
    (State.boot c).engine? i = some Engine.reset := by
  simp [State.engine?, State.boot, h]

theorem readCoil_boot_resetCoil {c : Config} (hc : configOk c = true) :
    (State.boot c).readCoil resetCoil = false := by
  obtain ⟨-, -, -, -, -, hcoil⟩ := (configOk_iff c).mp hc
  exact hcoil

/-- Settles O48: reset copies INIT_HR and INIT_CO, and every engine is `Engine.reset`. -/
theorem resetGivesTheStatedValues : Obligations.ResetGivesTheStatedValues := fun _ =>
  ⟨fun _ => rfl, fun _ => rfl, readCoil_boot_resetCoil,
    fun _ hi => ⟨Engine.reset, engine?_boot hi, rfl, rfl, rfl⟩, rfl, rfl⟩

theorem storeOk_boot {c : Config} (hc : configOk c = true) : storeOk (State.boot c) = true := by
  obtain ⟨-, -, -, ⟨hwfHr, hinHr⟩, ⟨hwfCo, hinCo⟩, -⟩ := (configOk_iff c).mp hc
  exact (storeOk_iff _).mpr ⟨hwfHr, hinHr, hwfCo, hinCo⟩

/-- R280: the state after block reset is legal; its engines are Closed, which asks nothing of their
latches. -/
theorem stateOk_boot {c : Config} (hc : configOk c = true) : stateOk (State.boot c) = true := by
  refine (stateOk_iff _).mpr ⟨hc, storeOk_boot hc, List.length_replicate, fun e he => ?_, rfl⟩
  obtain rfl : e = Engine.reset := List.eq_of_mem_replicate he
  rfl

/-- The agenda is free at reset (log entry 4), and one that keeps the simulation's duties makes the state
one of R228's runs. -/
theorem stateDutiful_boot {c : Config} {ms : List Move} (hc : configOk c = true)
    (hms : ms.all Move.keepsDuties = true) :
    stateDutiful { State.boot c with agenda := ms } = true :=
  (stateDutiful_iff _).mpr ⟨stateOk_boot hc, hms, readCoil_boot_resetCoil hc⟩

/-- Settles O49: `State.reset` is `State.boot` of the reference configuration, which is within its bounds. -/
theorem resetIsLegal : Obligations.ResetIsLegal :=
  ⟨stateOk_boot configOk_reference, fun _ => stateOk_boot, fun _ _ => stateDutiful_boot⟩

end Sys2Proof.Machine
